-- ==== Sys2Proof/Word.lean ====
section
/-! DEFINITION. The word and byte types of the host port (00_scope.md R7, R10; 20_memory.md R60). -/

namespace Sys2Proof

/-- A 32-bit word of the host port: a register, a buffer entry, a binary32 pattern (R10, R60). -/
abbrev Word := BitVec 32

/-- One byte of a word as a byte-addressed bus sees it (20_memory.md R62). -/
abbrev Byte := BitVec 8

end Sys2Proof
end

