-- ==== Sys2Proof/Syntax.lean ====
section
/-! DEFINITION. The eight commands, one constructor per row of spec/opcode_table.json (30_encoding.md R104). -/

namespace Sys2Proof

/-- A command. `v` is a voice slot index, `b` a bank index, `n` a buffer length in samples, each the
unsigned integer its field holds (30_encoding.md R103). -/
inductive Instr where
  /-- `OSC v, n`: oscillator render (40_oscillator.md R122). -/
  | osc (v n : Nat)
  /-- `ENV v, n`: envelope apply (41_envelope.md R133). -/
  | env (v n : Nat)
  /-- `DIST v, n`: distortion apply (42_distortion.md R152). -/
  | dist (v n : Nat)
  /-- `VOL v, n`: volume scale (43_voice.md R160). -/
  | vol (v n : Nat)
  /-- `PROD v, n`: produce the next `n` samples of a voice (43_voice.md R161). -/
  | prod (v n : Nat)
  /-- `ENQ`: enqueue a new voice (44_mixer.md R171). -/
  | enq
  /-- `FILL n`: produce `n` mixed samples (44_mixer.md R174). -/
  | fill (n : Nat)
  /-- `TSEAL b`: seal a table bank (45_host_access.md R185). -/
  | tseal (b : Nat)
  deriving DecidableEq, Repr

end Sys2Proof
end

