-- ==== Sys2Proof/WellFormed.lean ====
section
/-! DEFINITION. Which commands have an encoding: every operand fits its field (30_encoding.md R101, R103). -/

namespace Sys2Proof

/-- A voice slot or bank index fits the 6-bit field `V` (30_encoding.md R101). -/
def fitsV (v : Nat) : Bool := decide (v < 64)

/-- A length fits the 22-bit field `N` (30_encoding.md R101). -/
def fitsN (n : Nat) : Bool := decide (n < 4194304)

/-- Every operand of the command fits its field. -/
def Instr.wellFormed : Instr → Bool
  | .osc v n  => fitsV v && fitsN n
  | .env v n  => fitsV v && fitsN n
  | .dist v n => fitsV v && fitsN n
  | .vol v n  => fitsV v && fitsN n
  | .prod v n => fitsV v && fitsN n
  | .enq      => true
  | .fill n   => fitsN n
  | .tseal b  => fitsV b

end Sys2Proof
end

