-- ==== Sys2Proof/Decode.lean ====
section
/-! DEFINITION. Decoding and encoding of command words (30_encoding.md R100 to R106, R110). -/

namespace Sys2Proof

/-- Why a word is no command (30_encoding.md R105). Every reason is refused with E_ILLEGAL. -/
inductive DecodeError where
  /-- `OP` is `0x0` or `0x9` to `0xF`. -/
  | reservedOp
  /-- `ENQ` with any of bits 27:0 set. -/
  | enqOperand
  /-- `FILL` with any of bits 27:22 set. -/
  | fillVoice
  /-- `TSEAL` with any of bits 21:0 set. -/
  | tsealLength
  deriving DecidableEq, Repr

/-- Field `OP`, bits 31:28 (30_encoding.md R101). -/
def fieldOp (w : Word) : Nat := w.toNat / 2 ^ 28

/-- Field `V`, bits 27:22 (30_encoding.md R101). -/
def fieldV (w : Word) : Nat := w.toNat / 2 ^ 22 % 2 ^ 6

/-- Field `N`, bits 21:0 (30_encoding.md R101). -/
def fieldN (w : Word) : Nat := w.toNat % 2 ^ 22

/-- Stage 1 of a write to `CMD`: the command a word stands for, from the word alone
(30_encoding.md R100, R104, R105, R106). -/
def decode (w : Word) : Except DecodeError Instr :=
  match fieldOp w with
  | 1 => .ok (.osc (fieldV w) (fieldN w))
  | 2 => .ok (.env (fieldV w) (fieldN w))
  | 3 => .ok (.dist (fieldV w) (fieldN w))
  | 4 => .ok (.vol (fieldV w) (fieldN w))
  | 5 => .ok (.prod (fieldV w) (fieldN w))
  | 6 => if fieldV w = 0 ∧ fieldN w = 0 then .ok .enq else .error .enqOperand
  | 7 => if fieldV w = 0 then .ok (.fill (fieldN w)) else .error .fillVoice
  | 8 => if fieldN w = 0 then .ok (.tseal (fieldV w)) else .error .tsealLength
  | _ => .error .reservedOp

/-- The word with the three fields of 30_encoding.md R101. -/
def packFields (op v n : Nat) : Word := BitVec.ofNat 32 (op * 2 ^ 28 + v * 2 ^ 22 + n)

/-- The word of a command, by the formats and opcodes of 30_encoding.md R102 and R104. -/
def encode : Instr → Word
  | .osc v n  => packFields 0x1 v n
  | .env v n  => packFields 0x2 v n
  | .dist v n => packFields 0x3 v n
  | .vol v n  => packFields 0x4 v n
  | .prod v n => packFields 0x5 v n
  | .enq      => packFields 0x6 0 0
  | .fill n   => packFields 0x7 0 n
  | .tseal b  => packFields 0x8 b 0

/-- The command read from a word numbered as spec/opcode_table.json numbers it. Every row has 32 bits; bits above
`nbits` are 0. -/
def decodeTableWord (nbits w : Nat) : Option Instr :=
  match decode (BitVec.ofNat 32 (w % 2 ^ nbits)) with
  | .ok i => some i
  | .error _ => none

end Sys2Proof
end

