-- ==== Sys2Proof/Config.lean ====
section
/-! DEFINITION. What one instance of the block fixes (00_scope.md R6) and the values the spec leaves open, as constants
without a body. -/

namespace Sys2Proof

/-- The integer implementation parameters of 00_scope.md R6, fixed for the life of one instance.
State carries them, so that a statement about every state is a statement about every instance (log 1). -/
structure Params where
  /-- `SR`: the sample rate, the oscillator's wrap length and the largest buffer length. -/
  sr     : Nat
  /-- `NVOICE`: the number of voice slots. -/
  nvoice : Nat
  /-- `NTABLE`: the number of table banks. -/
  ntable : Nat
  deriving DecidableEq, Repr

/-- The legal ranges of 00_scope.md R6. -/
def Params.legal (p : Params) : Bool :=
  decide (1 ≤ p.sr) && decide (p.sr ≤ 1048576) && decide (1 ≤ p.nvoice) && decide (p.nvoice ≤ 64)
    && decide (1 ≤ p.ntable) && decide (p.ntable ≤ 32)

/-- The defaults of 00_scope.md R6. -/
def Params.default : Params := { sr := 44100, nvoice := 8, ntable := 8 }

/-- `POW` before the named properties of 00_scope.md R16 are put on it (`Machine.fpow`).
UNVERIFIED, log 8: a free value, the spec gives no algorithm (93_implementation_defined.md U1). -/
opaque Config.powRaw : Word → Word → Word

/-- The ramp index `i - START` at an index `i` before `START`, as a function of `i` and `START`.
DESIGN CHOICE, log 9: a free value, the spec gives it no value (R15, R140). -/
opaque Config.freeRampIndex : Word → Word → Word

/-- The bits of `V_CTL` above bit 0 in the n-th read of a slot that is not valid.
DESIGN CHOICE, log 6: a free value (10_state.md R29, 93_implementation_defined.md U7). -/
opaque Config.freeVoiceControl : Nat → Word

end Sys2Proof
end

