-- ==== Sys2Proof/Machine/Float.lean ====
section
/-! DEFINITION. binary32 values and the arithmetic primitives (00_scope.md R10 to R16).
A finite pattern stands for an exact integer number of units of `2^-149`; an operation computes its exact quotient of
two naturals in those units and rounds once. PRESUMED, log 10: the IEEE 754 rules themselves. -/

namespace Sys2Proof.Machine

/-- `+0.0` (R14). -/
def fZero : Word := 0x00000000#32
/-- `-0.0` (R14). -/
def fNegZero : Word := 0x80000000#32
/-- `1.0` (R14). -/
def fOne : Word := 0x3F800000#32
/-- `+inf` (R14). -/
def fInf : Word := 0x7F800000#32
/-- `-inf` (R14). -/
def fNegInf : Word := 0xFF800000#32
/-- The canonical quiet NaN (R11, R14). -/
def fNaN : Word := 0x7FC00000#32
/-- `C001`, the binary32 nearest to 0.01 (R14). -/
def fC001 : Word := 0x3C23D70A#32

/-- Bit 31, the sign (R10). -/
def fsign (w : Word) : Bool := decide (2 ^ 31 ≤ w.toNat)

/-- Bits 30:0, the pattern without its sign. -/
def fbits (w : Word) : Nat := w.toNat % 2 ^ 31

/-- Bits 30:23, the biased exponent (R10). -/
def fexp (w : Word) : Nat := fbits w / 2 ^ 23

/-- Bits 22:0, the fraction (R10). -/
def ffrac (w : Word) : Nat := fbits w % 2 ^ 23

/-- `isnan` (R12). -/
def isnan (w : Word) : Bool := decide (0x7F800000 < fbits w)

/-- `isinf`, either sign (R12). -/
def isinf (w : Word) : Bool := decide (fbits w = 0x7F800000)

/-- `iszero`, either sign (R12). -/
def iszero (w : Word) : Bool := decide (fbits w = 0)

/-- `isposinf` (R12). -/
def isposinf (w : Word) : Bool := decide (w = fInf)

/-- A pattern from its sign, bit 31, and its bits 30:0. -/
def packSign (neg : Bool) (bits : Nat) : Word := BitVec.ofNat 32 ((if neg then 2 ^ 31 else 0) + bits)

/-- `fabs`: bit 31 cleared, a NaN is not canonicalised (R12). -/
def fabs (w : Word) : Word := packSign false (fbits w)

/-- The pattern with bit 31 turned over. -/
def fneg (w : Word) : Word := packSign (!fsign w) (fbits w)

/-- `copysign(a, b)`: `a` with bit 31 of `b`, a NaN is not canonicalised (R12). -/
def copysign (a b : Word) : Word := packSign (fsign b) (fbits a)

/-- The magnitude of the finite pattern with bits 30:0 equal to `bits`, in units of `2^-149` (R10: exponent 0 is zero
or subnormal, otherwise a leading 1 and bias 127). -/
def magOfBits (bits : Nat) : Nat :=
  if bits / 2 ^ 23 = 0 then bits % 2 ^ 23 else (2 ^ 23 + bits % 2 ^ 23) * 2 ^ (bits / 2 ^ 23 - 1)

/-- The magnitude of a finite pattern, in units of `2^-149`. -/
def fmag (w : Word) : Nat := magOfBits (fbits w)

/-- `num / den` rounded to a natural number, to nearest with ties to even. -/
def roundQuotient (num den : Nat) : Nat :=
  let q := num / den
  let r := num % den
  if den < 2 * r ∨ (2 * r = den ∧ q % 2 = 1) then q + 1 else q

/-- By how many bits the unit of rounding of the exact value `num / den` exceeds `2^-149`: a significand keeps 24
bits. -/
def roundShift (num den : Nat) : Nat := Nat.log2 (num / den) - 23

/-- Bits 30:0 of the binary32 nearest to `num / den` units of `2^-149`, ties to even, with gradual underflow and
overflow to infinity (R11). -/
def roundBits (num den : Nat) : Nat :=
  let shift := roundShift num den
  min 0x7F800000 (shift * 2 ^ 23 + roundQuotient num (den * 2 ^ shift))

/-- The exact value `num / den` units of `2^-149`, with a sign, rounded once. -/
def roundTo (neg : Bool) (num den : Nat) : Word := packSign neg (roundBits num den)

/-- The exact signed value of a finite pattern in units of `2^-149`. -/
def fint (w : Word) : Int := if fsign w then -(fmag w : Int) else (fmag w : Int)

/-- `fadd` (R11). A sum of zeros of both signs, and an exact cancellation, is `+0.0`. -/
def fadd (a b : Word) : Word :=
  if isnan a || isnan b then fNaN
  else if isinf a then (if isinf b && (fsign a != fsign b) then fNaN else a)
  else if isinf b then b
  else if fint a + fint b = 0 then (if fsign a && fsign b then fNegZero else fZero)
  else roundTo (decide (fint a + fint b < 0)) (fint a + fint b).natAbs 1

/-- `fsub` (R11). -/
def fsub (a b : Word) : Word := if isnan b then fNaN else fadd a (fneg b)

/-- `fmul` (R11): `0 * inf` is NaN, the sign is the product of the signs. -/
def fmul (a b : Word) : Word :=
  if isnan a || isnan b then fNaN
  else if (isinf a && iszero b) || (iszero a && isinf b) then fNaN
  else if isinf a || isinf b then packSign (fsign a != fsign b) 0x7F800000
  else roundTo (fsign a != fsign b) (fmag a * fmag b) (2 ^ 149)

/-- `fdiv` (R11): `0/0` and `inf/inf` are NaN, another dividend over a zero is an infinity. -/
def fdiv (a b : Word) : Word :=
  if isnan a || isnan b then fNaN
  else if (isinf a && isinf b) || (iszero a && iszero b) then fNaN
  else if isinf a || iszero b then packSign (fsign a != fsign b) 0x7F800000
  else if isinf b then packSign (fsign a != fsign b) 0
  else roundTo (fsign a != fsign b) (fmag a * 2 ^ 149) (fmag b)

/-- A number that orders the patterns that are not NaN as their values, with `+0` and `-0` equal. -/
def fkey (w : Word) : Int := if fsign w then -(fbits w : Int) else (fbits w : Int)

/-- `fge`: false when either operand is NaN (R12). -/
def fge (a b : Word) : Bool := !isnan a && !isnan b && decide (fkey b ≤ fkey a)

/-- `fle` (R12). -/
def fle (a b : Word) : Bool := !isnan a && !isnan b && decide (fkey a ≤ fkey b)

/-- `flt` (R12). -/
def flt (a b : Word) : Bool := !isnan a && !isnan b && decide (fkey a < fkey b)

/-- `fgt` (R12). -/
def fgt (a b : Word) : Bool := !isnan a && !isnan b && decide (fkey b < fkey a)

/-- `feq` (R12). -/
def feq (a b : Word) : Bool := !isnan a && !isnan b && decide (fkey a = fkey b)

/-- `fne` (R12): true when either operand is NaN. -/
def fne (a b : Word) : Bool := !feq a b

/-- `u2f(n)`, for `0 <= n < 2^32` (R13). -/
def u2f (n : Nat) : Word := roundTo false (n * 2 ^ 149) 1

/-- `POW(a, e)` with the named properties of R16 and no others: `POW(a, +0.0) = 1.0`, `POW(1.0, e) = 1.0`,
`POW(+inf, e) = +inf` when `e > 0`, and a result that is not NaN and is `>= +0.0`. What is left is a free value
(log 8). -/
def fpow (a e : Word) : Word :=
  if e = fZero then fOne
  else if a = fOne then fOne
  else if a = fInf ∧ fgt e fZero = true then fInf
  else if fge (Config.powRaw a e) fZero then Config.powRaw a e else fZero

end Sys2Proof.Machine
end

