-- ==== Sys2Proof/Machine/State.lean ====
section
/-! DEFINITION. The state of the block (10_state.md), what the host can do to it, why a step stops, and reset. -/

namespace Sys2Proof.Machine

/-- The envelope phase, field `STATE` (10_state.md R32). There is no sustain phase (41_envelope.md R131). -/
inductive Phase where
  | attack
  | decay
  | release
  | done
  deriving DecidableEq, Repr

/-- The refusal codes of 60_exceptions.md R204, without `OK`. -/
inductive Code where
  /-- `E_ILLEGAL`: the word written to `CMD` is no legal encoding. -/
  | illegal
  /-- `E_VOICE`: voice index out of range, or the slot is not valid. -/
  | voice
  /-- `E_LEN`: length above `SR`. -/
  | len
  /-- `E_OFFOVF`: `offset + n >= 2^32`. -/
  | offOvf
  /-- `E_OFFSEQ`: `G.OFFARG` before `START` in Decay or Release. -/
  | offSeq
  /-- `E_NODIST`: the voice has no distortion. -/
  | noDist
  /-- `E_PARAM`: a staged parameter breaks the construction contract. -/
  | param
  /-- `E_TABLE`: bank out of range, not sealed (`ENQ`) or already sealed (`TSEAL`). -/
  | table
  /-- `E_FULL`: no free voice slot. -/
  | full
  /-- `E_TSEALED`: bus write to an entry of a sealed bank. -/
  | tSealed
  /-- `E_ADDR`: unmapped address, no right to write, wrong width or alignment. -/
  | addr
  deriving DecidableEq, Repr

/-- One voice slot (10_state.md R28). Every `Word` from `aslope` on is a binary32 pattern. -/
structure Voice where
  /-- `VALID`: the slot holds a voice of the pool (R30). -/
  valid  : Bool
  /-- `FIN`: the voice's finished flag (R31). -/
  fin    : Bool
  /-- `DIST_EN`: the voice has a distortion. -/
  distEn : Bool
  /-- `STATE`: the envelope phase (R32). -/
  state  : Phase
  /-- `TSEL`: the bank the oscillator reads. -/
  tsel   : BitVec 5
  /-- `OFFSET`: the running absolute sample offset. -/
  offset : Word
  /-- `START`: the index at which the current Decay or Release began (R33). -/
  start  : Word
  /-- `ASLOPE`. -/
  aslope : Word
  /-- `DSLOPE`. -/
  dslope : Word
  /-- `SUSH`: the sustain height. -/
  sush   : Word
  /-- `RSLOPE`. -/
  rslope : Word
  /-- `DEXP`: the distortion exponent. -/
  dexp   : Word
  /-- `DDRIVE`: the distortion drive. -/
  ddrive : Word
  /-- `VOL`: the volume scalar. -/
  vol    : Word
  deriving DecidableEq, Repr

/-- One thing the host does to the block, one atomic step (00_scope.md R17). -/
inductive HostAction where
  /-- `WR addr, data` at a word address (45_host_access.md R186). -/
  | write (addr data : Word)
  /-- `RD addr` at a word address (45_host_access.md R187). -/
  | read (addr : Word)
  /-- A write of the listed bytes, lowest address first, on a byte-addressed bus (20_memory.md R62, R63; log 11). -/
  | writeBytes (byteAddr : BitVec 34) (data : List Byte)
  /-- A read of `width` bytes on a byte-addressed bus (20_memory.md R62, R63). -/
  | readBytes (byteAddr : BitVec 34) (width : Nat)
  /-- The hardware reset input (70_reset_and_hazards.md R230). -/
  | reset
  deriving DecidableEq, Repr

/-- The memories `SCR`, `OUT` and `TBL` in one list of (byte address, byte), addresses strictly rising; word address
`a` of the host port is byte addresses `4*a` to `4*a+3` (20_memory.md R62; log 5). -/
abbrev Memory := List Host.Cell

/-- Why the model stops where the spec gives a read no value. -/
inductive Fault where
  /-- Raised by a bus read, and by a command that needs the value, of the `SCR`, `OUT` or `TBL` word at word address
  `addr`, never written since reset (93_implementation_defined.md U4, 45_host_access.md R187). Safe: hardware goes
  on with some value (log 4). -/
  | unwrittenWord (addr : Nat)
  /-- Raised by a bus read of a register other than `V_CTL` of slot `slot` while it is not valid (10_state.md R29,
  93_implementation_defined.md U7). Safe: hardware returns some value (log 6). -/
  | invalidSlotRegister (slot : Nat)
  deriving DecidableEq, Repr

/-- Why the model has no meaning for a command. -/
inductive Refusal where
  /-- Raised by `exec` for a command without a meaning yet. Safe: the model stops. No command of this model is one. -/
  | notModelled (mnemonic : String)
  deriving DecidableEq, Repr

/-- The whole state of the block (10_state.md R20), its parameters, and the model's own `pending`, `rdata`, `freeIx`. -/
structure State where
  /-- `SR`, `NVOICE`, `NTABLE` (00_scope.md R6); no step changes them (log 1). -/
  params    : Params
  /-- `G.P_CTL` (10_state.md R22). -/
  pCtl      : Word
  /-- `G.P_ATTACK` (R21). -/
  pAttack   : Word
  /-- `G.P_DECAY` (R21). -/
  pDecay    : Word
  /-- `G.P_SUSTAIN` (R21). -/
  pSustain  : Word
  /-- `G.P_RELEASE` (R21). -/
  pRelease  : Word
  /-- `G.P_VOLUME` (R21). -/
  pVolume   : Word
  /-- `G.P_CRUNCH` (R21). -/
  pCrunch   : Word
  /-- `G.P_DRIVE` (R21). -/
  pDrive    : Word
  /-- `G.OFFARG` (R23). -/
  offarg    : Word
  /-- `G.ERR`, the first refusal code since reset (R26). -/
  err       : BitVec 8
  /-- `G.LAST`, the status of the latest command or refusal (R26). -/
  last      : BitVec 8
  /-- `G.RSTATE`, the tag of the latest executed ENV or PROD (R26). -/
  rstate    : BitVec 2
  /-- `G.RSLOT`, the slot of the latest executed ENQ (R26). -/
  rslot     : BitVec 6
  /-- `G.RCOUNT`, the voice count of the latest executed FILL (R26). -/
  rcount    : BitVec 7
  /-- `V[0]`, `V[1]`, ... (R28). -/
  voices    : List Voice
  /-- `TSEAL[0]`, `TSEAL[1]`, ... (R37). -/
  sealFlags : List Bool
  /-- `SCR`, `OUT` and `TBL` (R36, R38, R39). -/
  mem       : Memory
  /-- The model's own: what the host does next, oldest first (log 2). -/
  pending   : List HostAction
  /-- The model's own: the value the latest access returned, none after a write (00_scope.md R17; log 2). -/
  rdata     : Option Word
  /-- The model's own: how many free values have been drawn (log 6, log 16). -/
  freeIx    : Nat
  deriving DecidableEq, Repr

/-- A slot at reset: `VALID` is 0 (10_state.md R43).
DESIGN CHOICE, log 7: every other field is zero, the spec leaves them unspecified. -/
def Voice.blank : Voice :=
  { valid := false, fin := false, distEn := false, state := .attack, tsel := 0#5, offset := 0#32, start := 0#32,
    aslope := 0#32, dslope := 0#32, sush := 0#32, rslope := 0#32, dexp := 0#32, ddrive := 0#32, vol := 0#32 }

/-- The state after reset of an instance with parameters `p` (10_state.md R43, 70_reset_and_hazards.md R230). -/
def State.resetWith (p : Params) : State :=
  { params := p, pCtl := 0#32, pAttack := 0#32, pDecay := 0#32, pSustain := 0#32, pRelease := 0#32, pVolume := 0#32,
    pCrunch := 0#32, pDrive := 0#32, offarg := 0#32, err := 0#8, last := 0#8, rstate := 0#2, rslot := 0#6,
    rcount := 0#7, voices := List.replicate p.nvoice Voice.blank, sealFlags := List.replicate p.ntable false, mem := [],
    pending := [], rdata := none, freeIx := 0 }

/-- The state after reset, with the default parameters of 00_scope.md R6 (log 1). -/
def State.reset : State := State.resetWith Params.default

end Sys2Proof.Machine
end

