-- ==== Sys2Proof/Machine/Flags.lean ====
section
/-! DEFINITION. The block has no condition codes (10_state.md R40). Its one-bit state `VALID`, `FIN`, `DIST_EN` and
`TSEAL`, the phase tag, and the status codes of `G.ERR` and `G.LAST` (60_exceptions.md R204). -/

namespace Sys2Proof.Machine

/-- The number of a phase, field `STATE` (10_state.md R32). -/
def Phase.tag : Phase → BitVec 2
  | .attack => 0#2
  | .decay => 1#2
  | .release => 2#2
  | .done => 3#2

/-- The number of a refusal code (60_exceptions.md R204). -/
def Code.byte : Code → BitVec 8
  | .illegal => 0x01#8
  | .voice => 0x02#8
  | .len => 0x03#8
  | .offOvf => 0x04#8
  | .offSeq => 0x05#8
  | .noDist => 0x06#8
  | .param => 0x07#8
  | .table => 0x08#8
  | .full => 0x09#8
  | .tSealed => 0x0A#8
  | .addr => 0x0B#8

/-- `OK`, the value of `G.LAST` after an executed command (60_exceptions.md R204). -/
def okByte : BitVec 8 := 0x00#8

/-- The voice in slot `v`, when `v < NVOICE` and `V[v].VALID = 1`; a slot beyond the list, which no run has, is not
valid (log 14). -/
def liveVoice (nvoice : Nat) (vs : List Voice) (v : Nat) : Option Voice :=
  if v < nvoice then
    match vs[v]? with
    | some vc => if vc.valid then some vc else none
    | none => none
  else none

/-- `V[v].VALID` as a number read at index `v` (10_state.md R28). -/
def isLive (nvoice : Nat) (vs : List Voice) (v : Nat) : Bool := (liveVoice nvoice vs v).isSome

/-- The number of slots with `VALID = 1` (10_state.md R27, 44_mixer.md R175). -/
def countLive (nvoice : Nat) (vs : List Voice) : Nat := (List.range nvoice).countP (isLive nvoice vs)

/-- `TSEAL[b]` (10_state.md R37). -/
def isSealed (flags : List Bool) (b : Nat) : Bool := flags.getD b false

/-- Bit `b` is `TSEAL[b]` for `b < NTABLE`, 0 above (10_state.md R27). -/
def sealBitmap (ntable : Nat) (flags : List Bool) : Word :=
  BitVec.ofNat 32 (((List.range ntable).map (fun b => if isSealed flags b then 2 ^ b else 0)).sum)

/-- FILL step 4: `VALID` cleared where `VALID = 1` and `FIN = 1` (44_mixer.md R177). -/
def removeFinished (vs : List Voice) : List Voice :=
  vs.map (fun vc => if vc.valid && vc.fin then { vc with valid := false } else vc)

end Sys2Proof.Machine
end

