-- ==== Sys2Proof/Machine/Memory.lean ====
section
/-! DEFINITION. Bytes and words of the one address space, and byte order (20_memory.md R60, R62). -/

namespace Sys2Proof.Machine

/-- What a byte that nothing has written since reset reads as: no value (10_state.md R43, 93_implementation_defined.md
U4; log 4). -/
def unwrittenByte (_addr : Nat) : Option Byte := none

/-- Every listed address is above `lo`, and they rise strictly. -/
def risingFrom : Nat → Memory → Bool
  | _, [] => true
  | lo, (a, _) :: t => decide (lo ≤ a) && risingFrom (a + 1) t

/-- The canonical form: addresses strictly rising, and no entry equal to what an unlisted address reads as. -/
def Memory.wf (m : Memory) : Bool := risingFrom 0 m && m.all (fun c => unwrittenByte c.1 != some c.2)

/-- The byte at a byte address, if one has been written. -/
def readByte : Memory → Nat → Option Byte
  | [], x => unwrittenByte x
  | (a, b) :: t, x => if a = x then some b else readByte t x

/-- A byte written at a byte address, the list kept in order. -/
def writeByte : Memory → Nat → Byte → Memory
  | [], x, b => [(x, b)]
  | (a, c) :: t, x, b =>
    if x < a then (x, b) :: (a, c) :: t
    else if x = a then (x, b) :: t
    else (a, c) :: writeByte t x b

/-- Byte `j` of a word, byte 0 holding bits 7:0 (R62). -/
def byteOf (w : Word) (j : Nat) : Byte := (w >>> (8 * j)).setWidth 8

/-- The word of four bytes, the first holding bits 7:0 (R62). -/
def wordOfBytes (b0 b1 b2 b3 : Byte) : Word := b3 ++ (b2 ++ (b1 ++ b0))

/-- The word at a word address, if it has been written (R62). -/
def readWord (m : Memory) (a : Nat) : Option Word :=
  match readByte m (4 * a), readByte m (4 * a + 1), readByte m (4 * a + 2), readByte m (4 * a + 3) with
  | some b0, some b1, some b2, some b3 => some (wordOfBytes b0 b1 b2 b3)
  | _, _, _, _ => none

/-- A word written at a word address (R62). -/
def writeWord (m : Memory) (a : Nat) (w : Word) : Memory :=
  writeByte (writeByte (writeByte (writeByte m (4 * a) (byteOf w 0)) (4 * a + 1) (byteOf w 1)) (4 * a + 2) (byteOf w 2))
    (4 * a + 3) (byteOf w 3)

/-- The value of a word that is needed: a fault where nothing has been written since reset
(93_implementation_defined.md U4; log 4). -/
def needWord (m : Memory) (a : Nat) : Except Fault Word :=
  match readWord m a with
  | some w => .ok w
  | none => .error (.unwrittenWord a)

end Sys2Proof.Machine
end

