-- ==== Sys2Proof/Machine/Map.lean ====
section
/-! DEFINITION. The word-address map of the host port (20_memory.md R70 to R75). -/

namespace Sys2Proof.Machine

/-- The global registers of 20_memory.md R71. -/
inductive GlobalReg where
  | cmd | err | last | rstate | rslot | rcount | nactive | tsealed | capSr | capNv | capNt | offarg
  | pCtl | pAttack | pDecay | pSustain | pRelease | pVolume | pCrunch | pDrive
  deriving DecidableEq, Repr

/-- The registers of one voice slot (20_memory.md R72). -/
inductive VoiceReg where
  | ctl | offset | start | aslope | dslope | sush | rslope | dexp | ddrive | vol
  deriving DecidableEq, Repr

/-- What a word address stands for (20_memory.md R70). -/
inductive Target where
  | global (r : GlobalReg)
  | voice (v : Nat) (r : VoiceReg)
  | scr (k : Nat)
  | out (k : Nat)
  | tbl (b i : Nat)
  | unmapped
  deriving DecidableEq, Repr

/-- Word address of `CMD` (R71). -/
def cmdAddr : Word := 0x00000000#32

/-- Word address of slot 0's registers (R72). -/
def voiceBase : Nat := 0x00001000

/-- Word address of `SCR[0]` (R73). -/
def scrBase : Nat := 0x00100000

/-- Word address of `OUT[0]` (R74). -/
def outBase : Nat := 0x00200000

/-- Word address of `TBL[0][0]` (R75). -/
def tblBase : Nat := 0x04000000

/-- Words from one bank to the next (R75). -/
def tblStride : Nat := 0x00200000

/-- Word address of `TBL[b][i]` (R75). -/
def tblAddr (b i : Nat) : Nat := tblBase + b * tblStride + i

/-- `SCR[k]`, if it has been written (R73). -/
def readScr (m : Memory) (k : Nat) : Option Word := readWord m (scrBase + k)

/-- `OUT[k]`, if it has been written (R74). -/
def readOut (m : Memory) (k : Nat) : Option Word := readWord m (outBase + k)

/-- `TBL[b][i]`, if it has been written (R75). -/
def readTbl (m : Memory) (b i : Nat) : Option Word := readWord m (tblAddr b i)

/-- The global register at a word address below `0x20` (R71). -/
def globalRegAt : Nat → Option GlobalReg
  | 0x00 => some .cmd
  | 0x01 => some .err
  | 0x02 => some .last
  | 0x03 => some .rstate
  | 0x04 => some .rslot
  | 0x05 => some .rcount
  | 0x06 => some .nactive
  | 0x07 => some .tsealed
  | 0x08 => some .capSr
  | 0x09 => some .capNv
  | 0x0A => some .capNt
  | 0x0B => some .offarg
  | 0x10 => some .pCtl
  | 0x11 => some .pAttack
  | 0x12 => some .pDecay
  | 0x13 => some .pSustain
  | 0x14 => some .pRelease
  | 0x15 => some .pVolume
  | 0x16 => some .pCrunch
  | 0x17 => some .pDrive
  | _ => none

/-- The register `r` of a voice slot (R72). -/
def voiceRegAt : Nat → Option VoiceReg
  | 0 => some .ctl
  | 1 => some .offset
  | 2 => some .start
  | 3 => some .aslope
  | 4 => some .dslope
  | 5 => some .sush
  | 6 => some .rslope
  | 7 => some .dexp
  | 8 => some .ddrive
  | 9 => some .vol
  | _ => none

/-- The target of a word address (R70 to R75); every other address is unmapped (R76). -/
def target (p : Params) (addr : Word) : Target :=
  let a := addr.toNat
  if a < 0x20 then
    match globalRegAt a with
    | some r => .global r
    | none => .unmapped
  else if voiceBase ≤ a ∧ a < voiceBase + 16 * p.nvoice then
    match voiceRegAt ((a - voiceBase) % 16) with
    | some r => .voice ((a - voiceBase) / 16) r
    | none => .unmapped
  else if scrBase ≤ a ∧ a < scrBase + p.sr then .scr (a - scrBase)
  else if outBase ≤ a ∧ a < outBase + p.sr then .out (a - outBase)
  else if tblBase ≤ a ∧ (a - tblBase) / tblStride < p.ntable ∧ (a - tblBase) % tblStride < 2 * p.sr then
    .tbl ((a - tblBase) / tblStride) ((a - tblBase) % tblStride)
  else .unmapped

end Sys2Proof.Machine
end

