-- ==== Sys2Proof/Machine/Ops.lean ====
section
/-! DEFINITION. The named operations over the state that the meanings share: the refusal mechanism, the three stages of
a command, and the loops over buffers. -/

namespace Sys2Proof.Machine

/-- `refuse(Code)`: the block's only exceptional event, taken as one shared operation. It changes `G.LAST`, and `G.ERR`
if that is 0, and nothing else (00_scope.md R9, 60_exceptions.md R200 to R202). There is nothing to return from
(R203). -/
def refuse (c : Code) (s : State) : State :=
  { s with last := c.byte, err := if s.err = okByte then c.byte else s.err }

/-- The end of an executed command: `G.LAST <- 0` (30_encoding.md R100, 60_exceptions.md R201). -/
def complete (s : State) : State := { s with last := okByte }

/-- Stages 2 and 3 of a command (30_encoding.md R100): every check first, refusing with the first code that applies,
then the writes, then `G.LAST <- 0`. -/
def runCommand {α : Type} (check : Except Code α) (effect : α → Except Fault State) (s : State) :
    Host.Outcome State Fault Refusal :=
  match check with
  | .error c => .next (refuse c s)
  | .ok a =>
    match effect a with
    | .error f => .fault f
    | .ok t => .next (complete t)

/-- The memories replaced. -/
def setMem (m : Memory) (s : State) : State := { s with mem := m }

/-- Voice slot `v` replaced. -/
def setVoice (v : Nat) (vc : Voice) (s : State) : State := { s with voices := s.voices.set v vc }

/-- All voice slots replaced. -/
def setVoices (vs : List Voice) (s : State) : State := { s with voices := vs }

/-- `G.RSTATE <- tag` (10_state.md R26). -/
def setRstate (ph : Phase) (s : State) : State := { s with rstate := ph.tag }

/-- `G.RSLOT <- slot` (10_state.md R26). -/
def setRslot (v : Nat) (s : State) : State := { s with rslot := BitVec.ofNat 6 v }

/-- `G.RCOUNT <- cnt` (10_state.md R26). -/
def setRcount (cnt : Nat) (s : State) : State := { s with rcount := BitVec.ofNat 7 cnt }

/-- `TSEAL[b] <- 1` (10_state.md R37). -/
def sealBank (b : Nat) (s : State) : State := { s with sealFlags := s.sealFlags.set b true }

/-- The value a read access returns (00_scope.md R17). -/
def setRdata (r : Option Word) (s : State) : State := { s with rdata := r }

/-- `for k in k .. k+count-1: X[k] <- w`, with `X[0]` at word address `base` (00_scope.md R8). -/
def fillWords (base : Nat) (w : Word) : (k count : Nat) → Memory → Memory
  | _, 0, m => m
  | k, c + 1, m => fillWords base w (k + 1) c (writeWord m (base + k) w)

/-- `for k in k .. k+count-1: X[k] <- f k X[k]`, ascending, with `X[0]` at word address `base` (00_scope.md R8). -/
def updateWords (base : Nat) (f : Nat → Word → Except Fault Word) : (k count : Nat) → Memory → Except Fault Memory
  | _, 0, m => .ok m
  | k, c + 1, m =>
    match needWord m (base + k) with
    | .error e => .error e
    | .ok x =>
      match f k x with
      | .error e => .error e
      | .ok y => updateWords base f (k + 1) c (writeWord m (base + k) y)

/-- `for v in v .. v+count-1: a <- body v a`, ascending (00_scope.md R8). -/
def forEach {α : Type} (body : Nat → α → Except Fault α) : (v count : Nat) → α → Except Fault α
  | _, 0, a => .ok a
  | v, c + 1, a =>
    match body v a with
    | .error e => .error e
    | .ok a' => forEach body (v + 1) c a'

end Sys2Proof.Machine
end

