-- ==== Sys2Proof/Machine/Operands.lean ====
section
/-! DEFINITION. The operands of a command and the checks on them (30_encoding.md R103). Each check gives the code the
command is refused with. -/

namespace Sys2Proof.Machine

/-- A check that fails with one code. -/
def require (ok : Bool) (c : Code) : Except Code Unit := if ok then .ok () else .error c

/-- Operand `v`: the voice of a valid slot, otherwise E_VOICE (30_encoding.md R103). -/
def voiceOperand (s : State) (v : Nat) : Except Code Voice :=
  match liveVoice s.params.nvoice s.voices v with
  | some vc => .ok vc
  | none => .error .voice

/-- Operand `n`: a length of at most `SR`, otherwise E_LEN (30_encoding.md R103, 70_reset_and_hazards.md R241). -/
def lengthOperand (s : State) (n : Nat) : Except Code Unit := require (decide (n ≤ s.params.sr)) .len

/-- An offset with `off + n < 2^32`, computed without wrap, otherwise E_OFFOVF (00_scope.md R15, 43_voice.md R162). -/
def offsetOperand (off : Word) (n : Nat) : Except Code Unit := require (decide (off.toNat + n < 2 ^ 32)) .offOvf

/-- `P_CTL[4:0]` (10_state.md R22). -/
def ctlTsel (w : Word) : BitVec 5 := w.setWidth 5

/-- `P_CTL[8]` (10_state.md R22). -/
def ctlDistEn (w : Word) : Bool := w.getLsbD 8

/-- Bits 7:5 and 31:9 of `P_CTL` are zero (10_state.md R22). -/
def ctlReservedClear (w : Word) : Bool := decide (w &&& 0xFFFFFEE0#32 = 0#32)

/-- A duration or height ENQ accepts: not NaN, not infinite, `>= +0.0` (44_mixer.md R172 check 3). -/
def isFiniteNonneg (w : Word) : Bool := !isnan w && !isinf w && fge w fZero

/-- A volume ENQ accepts: not NaN, not infinite (44_mixer.md R172 check 4). -/
def isFinite (w : Word) : Bool := !isnan w && !isinf w

end Sys2Proof.Machine
end

