-- ==== Sys2Proof/Machine/Distortion.lean ====
section
/-! DEFINITION. The power-law distortion: construction, one sample, and `DIST` (42_distortion.md). -/

namespace Sys2Proof.Machine

/-- `max(crunch, 0.01)` (42_distortion.md R151). -/
def clampCrunch (crunch : Word) : Word := if fgt crunch fC001 then crunch else fC001

/-- `DEXP` of `DistInit(crunch, drive)` (42_distortion.md R151); `DDRIVE` is the drive itself. -/
def distExponent (crunch : Word) : Word := fsub fOne (clampCrunch crunch)

/-- The shaped sample (42_distortion.md R153): a NaN product gives the canonical NaN, a zero product that zero. -/
def distSample (vc : Voice) (x : Word) : Word :=
  if isnan (fmul x vc.ddrive) then fNaN
  else if iszero (fmul x vc.ddrive) then fmul x vc.ddrive
  else copysign (fpow (fabs (fmul x vc.ddrive)) vc.dexp) (fmul x vc.ddrive)

/-- `DistApply(v, n)` (42_distortion.md R153). -/
def distApply (vc : Voice) (n : Nat) (m : Memory) : Except Fault Memory :=
  updateWords scrBase (fun _ x => .ok (distSample vc x)) 0 n m

/-- The checks of `DIST`, in order (42_distortion.md R152). -/
def distCheck (v n : Nat) (s : State) : Except Code Voice :=
  match voiceOperand s v with
  | .error c => .error c
  | .ok vc =>
    match lengthOperand s n with
    | .error c => .error c
    | .ok _ =>
      match require vc.distEn .noDist with
      | .error c => .error c
      | .ok _ => .ok vc

/-- The writes of `DIST`: `SCR[0 .. n-1]` (42_distortion.md R152). -/
def distEffect (n : Nat) (s : State) (vc : Voice) : Except Fault State :=
  match distApply vc n s.mem with
  | .error e => .error e
  | .ok m => .ok (setMem m s)

/-- `DIST v, n` (42_distortion.md R152). -/
def execDist (v n : Nat) (s : State) : Host.Outcome State Fault Refusal :=
  runCommand (distCheck v n s) (distEffect n s) s

end Sys2Proof.Machine
end

