-- ==== Sys2Proof/Machine/Envelope.lean ====
section
/-! DEFINITION. The envelope: slope derivation, the four phases sample by sample, and `ENV` (41_envelope.md). -/

namespace Sys2Proof.Machine

/-- `inv(p)` of 41_envelope.md R132: a zero product of either sign gives `+inf`. -/
def slopeOf (p : Word) : Word := if iszero p then fInf else fdiv fOne p

/-- `ASLOPE` from the attack duration (41_envelope.md R132). -/
def attackSlope (p : Params) (a : Word) : Word := slopeOf (fmul a (u2f p.sr))

/-- `DSLOPE` and `RSLOPE` from a duration and the sustain height, the products left to right (41_envelope.md R132). -/
def fallSlope (p : Params) (d s : Word) : Word := slopeOf (fmul (fmul d s) (u2f p.sr))

/-- The ramp product `rp(m, s)`: `m*s`, and `+inf` for an infinite slope even when `m = 0` (41_envelope.md section 4). -/
def rampProduct (m : Nat) (s : Word) : Word := if isposinf s then fInf else fmul (u2f m) s

/-- `m = i - START`, exact (41_envelope.md R135, R136).
DESIGN CHOICE, log 9: at an index before `START`, to which the spec gives no value, a free value in `0 .. 2^32-1`. -/
def rampIndex (i : Nat) (start : Word) : Nat :=
  if start.toNat ≤ i then i - start.toNat else (Config.freeRampIndex (BitVec.ofNat 32 i) start).toNat

/-- The gain of an Attack sample, not clamped (41_envelope.md R134). -/
def attackGain (vc : Voice) (i : Nat) : Word :=
  if isposinf (rampProduct i vc.aslope) then fOne else rampProduct i vc.aslope

/-- The gain of a Decay sample, not clamped (41_envelope.md R135). -/
def decayGain (vc : Voice) (i : Nat) : Word :=
  if isposinf (rampProduct (rampIndex i vc.start) vc.dslope) then vc.sush
  else fsub fOne (rampProduct (rampIndex i vc.start) vc.dslope)

/-- The gain of a Release sample, not clamped (41_envelope.md R136). -/
def releaseGain (vc : Voice) (i : Nat) : Word :=
  if isposinf (rampProduct (rampIndex i vc.start) vc.rslope) then fZero
  else fsub vc.sush (rampProduct (rampIndex i vc.start) vc.rslope)

/-- The voice after the sample at index `i`; it does not depend on the sample (41_envelope.md R134 to R138). -/
def envAdvance (vc : Voice) (i : Nat) : Voice :=
  match vc.state with
  | .attack =>
    if fge (attackGain vc i) fOne then
      if iszero vc.sush then { vc with state := .done }
      else { vc with state := .decay, start := BitVec.ofNat 32 i }
    else vc
  | .decay =>
    if fle (decayGain vc i) vc.sush then { vc with state := .release, start := BitVec.ofNat 32 i } else vc
  | .release => if fle (releaseGain vc i) fZero then { vc with state := .done } else vc
  | .done => vc

/-- The output sample at index `i` for the input sample `x` (41_envelope.md R134 to R137). -/
def envOutput (vc : Voice) (i : Nat) (x : Word) : Word :=
  match vc.state with
  | .attack => fmul x (attackGain vc i)
  | .decay => fmul x (decayGain vc i)
  | .release => fmul x (releaseGain vc i)
  | .done => fZero

/-- The output for `SCR[k]`. A Done sample is the constant `+0.0` and needs no input (41_envelope.md R137; log 12). -/
def envSample (vc : Voice) (i : Nat) (m : Memory) (k : Nat) : Except Fault Word :=
  match vc.state with
  | .done => .ok fZero
  | .attack | .decay | .release =>
    match needWord m (scrBase + k) with
    | .error e => .error e
    | .ok x => .ok (envOutput vc i x)

/-- The loop of `EnvApply(v, n, off)` from sample `k` on: the phase is looked at afresh for every sample
(41_envelope.md R139). -/
def envApply (off : Nat) : (k count : Nat) → Voice → Memory → Except Fault (Voice × Memory)
  | _, 0, vc, m => .ok (vc, m)
  | k, c + 1, vc, m =>
    match envSample vc (off + k) m k with
    | .error e => .error e
    | .ok y => envApply off (k + 1) c (envAdvance vc (off + k)) (writeWord m (scrBase + k) y)

/-- `V[v].STATE` is Decay or Release and `off < V[v].START` (41_envelope.md R133). -/
def runsBackwards (vc : Voice) (off : Word) : Bool :=
  match vc.state with
  | .attack => false
  | .decay => decide (off.toNat < vc.start.toNat)
  | .release => decide (off.toNat < vc.start.toNat)
  | .done => false

/-- The checks of `ENV`, in order (41_envelope.md R133). -/
def envCheck (v n : Nat) (s : State) : Except Code Voice :=
  match voiceOperand s v with
  | .error c => .error c
  | .ok vc =>
    match lengthOperand s n with
    | .error c => .error c
    | .ok _ =>
      match offsetOperand s.offarg n with
      | .error c => .error c
      | .ok _ =>
        match require (!runsBackwards vc s.offarg) .offSeq with
        | .error c => .error c
        | .ok _ => .ok vc

/-- The writes of `ENV`: `SCR[0 .. n-1]`, `V[v].STATE`, `V[v].START`, `G.RSTATE` (41_envelope.md R133). -/
def envEffect (v n : Nat) (s : State) (vc : Voice) : Except Fault State :=
  match envApply s.offarg.toNat 0 n vc s.mem with
  | .error e => .error e
  | .ok (vc', m) => .ok (setRstate vc'.state (setVoice v vc' (setMem m s)))

/-- `ENV v, n` (41_envelope.md R133). -/
def execEnv (v n : Nat) (s : State) : Host.Outcome State Fault Refusal :=
  runCommand (envCheck v n s) (envEffect v n s) s

end Sys2Proof.Machine
end

