-- ==== Sys2Proof/Machine/Oscillator.lean ====
section
/-! DEFINITION. The oscillator unit: `OSC` (40_oscillator.md). -/

namespace Sys2Proof.Machine

/-- `start = off mod SR` (40_oscillator.md R121, 20_memory.md R65; `SR = 0`, which no instance has: log 14). -/
def oscStart (p : Params) (off : Nat) : Nat := off % p.sr

/-- `OscRender(v, n, off)`: adds `TBL[TSEL][start + k]` into `SCR[k]` (40_oscillator.md R121). No table lies in the
`SCR` window, so each entry is the one before the command (log 15). -/
def oscRender (p : Params) (vc : Voice) (n off : Nat) (m : Memory) : Except Fault Memory :=
  updateWords scrBase
    (fun k x =>
      match needWord m (tblAddr vc.tsel.toNat (oscStart p off + k)) with
      | .error e => .error e
      | .ok t => .ok (fadd x t))
    0 n m

/-- The checks of `OSC`, in order (40_oscillator.md R122). -/
def oscCheck (v n : Nat) (s : State) : Except Code Voice :=
  match voiceOperand s v with
  | .error c => .error c
  | .ok vc =>
    match lengthOperand s n with
    | .error c => .error c
    | .ok _ =>
      match offsetOperand s.offarg n with
      | .error c => .error c
      | .ok _ => .ok vc

/-- The writes of `OSC`: `SCR[0 .. n-1]` (40_oscillator.md R122). -/
def oscEffect (n : Nat) (s : State) (vc : Voice) : Except Fault State :=
  match oscRender s.params vc n s.offarg.toNat s.mem with
  | .error e => .error e
  | .ok m => .ok (setMem m s)

/-- `OSC v, n` (40_oscillator.md R122). -/
def execOsc (v n : Nat) (s : State) : Host.Outcome State Fault Refusal :=
  runCommand (oscCheck v n s) (oscEffect n s) s

end Sys2Proof.Machine
end

