-- ==== Sys2Proof/Machine/Pipeline.lean ====
section
/-! DEFINITION. The voice pipeline: `VOL` and `PROD` (43_voice.md). -/

namespace Sys2Proof.Machine

/-- `VolApply(v, n)`: with `VOL = 1.0` the buffer is not touched at all (43_voice.md R160). -/
def volApply (vc : Voice) (n : Nat) (m : Memory) : Except Fault Memory :=
  if fne vc.vol fOne then updateWords scrBase (fun _ x => .ok (fmul x vc.vol)) 0 n m else .ok m

/-- The checks of `VOL`, in order (43_voice.md R160). -/
def volCheck (v n : Nat) (s : State) : Except Code Voice :=
  match voiceOperand s v with
  | .error c => .error c
  | .ok vc =>
    match lengthOperand s n with
    | .error c => .error c
    | .ok _ => .ok vc

/-- The writes of `VOL`: `SCR[0 .. n-1]` when the volume is not 1.0 (43_voice.md R160). -/
def volEffect (n : Nat) (s : State) (vc : Voice) : Except Fault State :=
  match volApply vc n s.mem with
  | .error e => .error e
  | .ok m => .ok (setMem m s)

/-- `VOL v, n` (43_voice.md R160). -/
def execVol (v n : Nat) (s : State) : Host.Outcome State Fault Refusal :=
  runCommand (volCheck v n s) (volEffect n s) s

/-- Steps 5 and 6 of `Produce`: the offset advances unless the envelope is Done, and `FIN` is set when it is
(43_voice.md R164, R165). -/
def finishProduce (n : Nat) (vc : Voice) : Voice :=
  match vc.state with
  | .attack => { vc with offset := vc.offset + BitVec.ofNat 32 n }
  | .decay => { vc with offset := vc.offset + BitVec.ofNat 32 n }
  | .release => { vc with offset := vc.offset + BitVec.ofNat 32 n }
  | .done => { vc with fin := true }

/-- Step 3 of `Produce` (43_voice.md R163): skipped without a distortion. -/
def distStep (vc : Voice) (n : Nat) (m : Memory) : Except Fault Memory :=
  if vc.distEn then distApply vc n m else .ok m

/-- `Produce(v, n)`: zero, oscillator, envelope, distortion, volume, then offset and `FIN` (43_voice.md R163 to R165).
The returned state is the new voice's `STATE`. -/
def produce (p : Params) (n : Nat) (vc : Voice) (m : Memory) : Except Fault (Voice × Memory) :=
  match oscRender p vc n vc.offset.toNat (fillWords scrBase fZero 0 n m) with
  | .error e => .error e
  | .ok m1 =>
    match envApply vc.offset.toNat 0 n vc m1 with
    | .error e => .error e
    | .ok (vc', m2) =>
      match distStep vc' n m2 with
      | .error e => .error e
      | .ok m3 =>
        match volApply vc' n m3 with
        | .error e => .error e
        | .ok m4 => .ok (finishProduce n vc', m4)

/-- The checks of `PROD`, in order (43_voice.md R161, R162). -/
def prodCheck (v n : Nat) (s : State) : Except Code Voice :=
  match voiceOperand s v with
  | .error c => .error c
  | .ok vc =>
    match lengthOperand s n with
    | .error c => .error c
    | .ok _ =>
      match offsetOperand vc.offset n with
      | .error c => .error c
      | .ok _ => .ok vc

/-- The writes of `PROD`: `SCR[0 .. n-1]`, the voice, `G.RSTATE` (43_voice.md R161). -/
def prodEffect (v n : Nat) (s : State) (vc : Voice) : Except Fault State :=
  match produce s.params n vc s.mem with
  | .error e => .error e
  | .ok (vc', m) => .ok (setRstate vc'.state (setVoice v vc' (setMem m s)))

/-- `PROD v, n` (43_voice.md R161). -/
def execProd (v n : Nat) (s : State) : Host.Outcome State Fault Refusal :=
  runCommand (prodCheck v n s) (prodEffect v n s) s

end Sys2Proof.Machine
end

