-- ==== Sys2Proof/Machine/Mixer.lean ====
section
/-! DEFINITION. The voice pool and the mix combiner: `ENQ` and `FILL` (44_mixer.md). -/

namespace Sys2Proof.Machine

/-- The least slot with `VALID = 0` (44_mixer.md R173). -/
def freeSlot (s : State) : Option Nat :=
  (List.range s.params.nvoice).find? (fun v => !isLive s.params.nvoice s.voices v)

/-- Check 2 of `ENQ`: the bank is in range and sealed (44_mixer.md R172). -/
def enqTableOk (s : State) : Bool :=
  decide ((ctlTsel s.pCtl).toNat < s.params.ntable) && isSealed s.sealFlags (ctlTsel s.pCtl).toNat

/-- Check 3 of `ENQ`: durations and sustain (44_mixer.md R172). -/
def enqTimesOk (s : State) : Bool :=
  isFiniteNonneg s.pAttack && isFiniteNonneg s.pDecay && isFiniteNonneg s.pSustain && isFiniteNonneg s.pRelease

/-- Check 5 of `ENQ`, only with a distortion: crunch and drive (44_mixer.md R172). -/
def enqDistOk (s : State) : Bool :=
  if ctlDistEn s.pCtl then (!isnan s.pCrunch && !fgt s.pCrunch fOne) && isFiniteNonneg s.pDrive else true

/-- The checks of `ENQ`, in order; they give the slot to allocate (44_mixer.md R172). -/
def enqCheck (s : State) : Except Code Nat :=
  match require (ctlReservedClear s.pCtl) .param with
  | .error c => .error c
  | .ok _ =>
    match require (enqTableOk s) .table with
    | .error c => .error c
    | .ok _ =>
      match require (enqTimesOk s) .param with
      | .error c => .error c
      | .ok _ =>
        match require (isFinite s.pVolume) .param with
        | .error c => .error c
        | .ok _ =>
          match require (enqDistOk s) .param with
          | .error c => .error c
          | .ok _ =>
            match freeSlot s with
            | some v => .ok v
            | none => .error .full

/-- The voice built from the staging registers (44_mixer.md R173). -/
def newVoice (s : State) : Voice :=
  { valid := true
    fin := false
    distEn := ctlDistEn s.pCtl
    state := .attack
    tsel := ctlTsel s.pCtl
    offset := 0#32
    start := 0#32
    aslope := attackSlope s.params s.pAttack
    dslope := fallSlope s.params s.pDecay s.pSustain
    sush := s.pSustain
    rslope := fallSlope s.params s.pRelease s.pSustain
    dexp := if ctlDistEn s.pCtl then distExponent s.pCrunch else fOne
    ddrive := if ctlDistEn s.pCtl then s.pDrive else fOne
    vol := s.pVolume }

/-- The writes of `ENQ`: the allocated slot and `G.RSLOT` (44_mixer.md R173). -/
def enqEffect (s : State) (v : Nat) : Except Fault State := .ok (setRslot v (setVoice v (newVoice s) s))

/-- `ENQ` (44_mixer.md R171). -/
def execEnq (s : State) : Host.Outcome State Fault Refusal := runCommand (enqCheck s) (enqEffect s) s

/-- Some valid voice would run past `2^32` (44_mixer.md R174). -/
def fillOverflows (s : State) (n : Nat) : Bool :=
  (List.range s.params.nvoice).any (fun v =>
    match liveVoice s.params.nvoice s.voices v with
    | some vc => decide (2 ^ 32 ≤ vc.offset.toNat + n)
    | none => false)

/-- The checks of `FILL`, in order (44_mixer.md R174). -/
def fillCheck (n : Nat) (s : State) : Except Code Unit :=
  match lengthOperand s n with
  | .error c => .error c
  | .ok _ => require (!fillOverflows s n) .offOvf

/-- `OUT[k] <- fadd(OUT[k], SCR[k])` for every `k < n` (44_mixer.md R176). -/
def addToOut (n : Nat) (m : Memory) : Except Fault Memory :=
  updateWords outBase
    (fun k x =>
      match needWord m (scrBase + k) with
      | .error e => .error e
      | .ok y => .ok (fadd x y))
    0 n m

/-- FILL step 3 for slot `v`: nothing for a slot that is not valid (44_mixer.md R176). -/
def fillVoice (p : Params) (n v : Nat) (a : List Voice × Memory) : Except Fault (List Voice × Memory) :=
  match liveVoice p.nvoice a.1 v with
  | none => .ok a
  | some vc =>
    match produce p n vc a.2 with
    | .error e => .error e
    | .ok (vc', m) =>
      match addToOut n m with
      | .error e => .error e
      | .ok m' => .ok (a.1.set v vc', m')

/-- The reciprocal `r` of FILL step 5 (44_mixer.md R178). -/
def mixScale (cnt : Nat) : Word := fdiv fOne (u2f cnt)

/-- `OUT[k] <- fmul(OUT[k], r)` for every `k < n` (44_mixer.md R178). -/
def scaleOut (r : Word) (n : Nat) (m : Memory) : Except Fault Memory :=
  updateWords outBase (fun _ x => .ok (fmul x r)) 0 n m

/-- FILL steps 3 to 5 on zeroed output, with `cnt` valid voices (44_mixer.md R176 to R178). -/
def fillMix (n cnt : Nat) (s : State) : Except Fault State :=
  match forEach (fillVoice s.params n) 0 s.params.nvoice (s.voices, s.mem) with
  | .error e => .error e
  | .ok (vs, m) =>
    match scaleOut (mixScale cnt) n m with
    | .error e => .error e
    | .ok m' => .ok (setVoices (removeFinished vs) (setMem m' s))

/-- The writes of `FILL`, steps 1 to 5; with no valid voice it stops after step 2 (44_mixer.md R175 to R178). -/
def fillEffect (n : Nat) (s : State) (_ : Unit) : Except Fault State :=
  let cnt := countLive s.params.nvoice s.voices
  let s1 := setRcount cnt (setMem (fillWords outBase fZero 0 n s.mem) s)
  if cnt = 0 then .ok s1 else fillMix n cnt s1

/-- `FILL n` (44_mixer.md R174). -/
def execFill (n : Nat) (s : State) : Host.Outcome State Fault Refusal :=
  runCommand (fillCheck n s) (fillEffect n s) s

end Sys2Proof.Machine
end

