-- ==== Sys2Proof/Machine/Seal.lean ====
section
/-! DEFINITION. `TSEAL` (45_host_access.md R185). -/

namespace Sys2Proof.Machine

/-- The checks of `TSEAL`, in order: the bank is in range and not yet sealed (45_host_access.md R185). -/
def tsealCheck (b : Nat) (s : State) : Except Code Unit :=
  match require (decide (b < s.params.ntable)) .table with
  | .error c => .error c
  | .ok _ => require (!isSealed s.sealFlags b) .table

/-- The write of `TSEAL`: `TSEAL[b] <- 1` (45_host_access.md R185). -/
def tsealEffect (b : Nat) (s : State) (_ : Unit) : Except Fault State := .ok (sealBank b s)

/-- `TSEAL b` (45_host_access.md R185). -/
def execTseal (b : Nat) (s : State) : Host.Outcome State Fault Refusal :=
  runCommand (tsealCheck b s) (tsealEffect b s) s

end Sys2Proof.Machine
end

