-- ==== Sys2Proof/Machine/Dispatch.lean ====
section
/-! DEFINITION. One arm per command: its meaning. -/

namespace Sys2Proof.Machine

/-- Stages 2 and 3 of a command (30_encoding.md R100). -/
def exec (i : Instr) (s : State) : Host.Outcome State Fault Refusal :=
  match i with
  | .osc v n => Sys2Proof.Machine.execOsc v n s
  | .env v n => Sys2Proof.Machine.execEnv v n s
  | .dist v n => Sys2Proof.Machine.execDist v n s
  | .vol v n => Sys2Proof.Machine.execVol v n s
  | .prod v n => Sys2Proof.Machine.execProd v n s
  | .enq => Sys2Proof.Machine.execEnq s
  | .fill n => Sys2Proof.Machine.execFill n s
  | .tseal b => Sys2Proof.Machine.execTseal b s

end Sys2Proof.Machine
end

