-- ==== Sys2Proof/Machine/Bus.lean ====
section
/-! DEFINITION. The bus accesses `WR` and `RD` (45_host_access.md R186, R187), a byte-addressed bus (20_memory.md R62,
R63) and the reset input (70_reset_and_hazards.md R230). -/

namespace Sys2Proof.Machine

/-- A write to `CMD`: decode, then the command; a word that is no command is refused with E_ILLEGAL before any state is
read (30_encoding.md R100, R106). -/
def commandWrite (data : Word) (s : State) : Host.Outcome State Fault Refusal :=
  match decode data with
  | .error _ => .next (refuse .illegal s)
  | .ok i => exec i s

/-- A write to a global register (45_host_access.md R186): a register the host may write takes all 32 bits, nothing is
checked; a read-only one is refused with E_ADDR. -/
def writeGlobal (r : GlobalReg) (data : Word) (s : State) : Host.Outcome State Fault Refusal :=
  match r with
  | .cmd => commandWrite data s
  | .offarg => .next { s with offarg := data }
  | .pCtl => .next { s with pCtl := data }
  | .pAttack => .next { s with pAttack := data }
  | .pDecay => .next { s with pDecay := data }
  | .pSustain => .next { s with pSustain := data }
  | .pRelease => .next { s with pRelease := data }
  | .pVolume => .next { s with pVolume := data }
  | .pCrunch => .next { s with pCrunch := data }
  | .pDrive => .next { s with pDrive := data }
  | .err => .next (refuse .addr s)
  | .last => .next (refuse .addr s)
  | .rstate => .next (refuse .addr s)
  | .rslot => .next (refuse .addr s)
  | .rcount => .next (refuse .addr s)
  | .nactive => .next (refuse .addr s)
  | .tsealed => .next (refuse .addr s)
  | .capSr => .next (refuse .addr s)
  | .capNv => .next (refuse .addr s)
  | .capNt => .next (refuse .addr s)

/-- `WR addr, data` by its target, on a state whose `rdata` is already none (45_host_access.md R186). -/
def writeTarget (t : Target) (data : Word) (s : State) : Host.Outcome State Fault Refusal :=
  match t with
  | .global r => writeGlobal r data s
  | .scr k => .next (setMem (writeWord s.mem (scrBase + k) data) s)
  | .tbl b i =>
    if isSealed s.sealFlags b then .next (refuse .tSealed s)
    else .next (setMem (writeWord s.mem (tblAddr b i) data) s)
  | .voice _ _ => .next (refuse .addr s)
  | .out _ => .next (refuse .addr s)
  | .unmapped => .next (refuse .addr s)

/-- `WR addr, data` (45_host_access.md R186). A write returns no value. -/
def busWrite (addr data : Word) (s : State) : Host.Outcome State Fault Refusal :=
  writeTarget (target s.params addr) data (setRdata none s)

/-- The value of a global register, with 0 in the bits that read 0 (10_state.md R21 to R27). -/
def globalValue (r : GlobalReg) (s : State) : Word :=
  match r with
  | .cmd => 0#32
  | .err => s.err.setWidth 32
  | .last => s.last.setWidth 32
  | .rstate => s.rstate.setWidth 32
  | .rslot => s.rslot.setWidth 32
  | .rcount => s.rcount.setWidth 32
  | .nactive => BitVec.ofNat 32 (countLive s.params.nvoice s.voices)
  | .tsealed => sealBitmap s.params.ntable s.sealFlags
  | .capSr => BitVec.ofNat 32 s.params.sr
  | .capNv => BitVec.ofNat 32 s.params.nvoice
  | .capNt => BitVec.ofNat 32 s.params.ntable
  | .offarg => s.offarg
  | .pCtl => s.pCtl
  | .pAttack => s.pAttack
  | .pDecay => s.pDecay
  | .pSustain => s.pSustain
  | .pRelease => s.pRelease
  | .pVolume => s.pVolume
  | .pCrunch => s.pCrunch
  | .pDrive => s.pDrive

/-- `V_CTL` of a valid slot: bit 0 `VALID`, 1 `FIN`, 2 `DIST_EN`, 5:4 `STATE`, 12:8 `TSEL` (10_state.md R29). -/
def voiceControl (vc : Voice) : Word :=
  BitVec.ofNat 32 (vc.valid.toNat + 2 * vc.fin.toNat + 4 * vc.distEn.toNat + 16 * vc.state.tag.toNat
    + 256 * vc.tsel.toNat)

/-- The value of a register of a valid slot (10_state.md R29). -/
def voiceValue (r : VoiceReg) (vc : Voice) : Word :=
  match r with
  | .ctl => voiceControl vc
  | .offset => vc.offset
  | .start => vc.start
  | .aslope => vc.aslope
  | .dslope => vc.dslope
  | .sush => vc.sush
  | .rslope => vc.rslope
  | .dexp => vc.dexp
  | .ddrive => vc.ddrive
  | .vol => vc.vol

/-- `V_CTL` of a slot that is not valid: bit 0 is 0 and every other bit is free (10_state.md R29; log 6). -/
def invalidControl (s : State) : Word := Config.freeVoiceControl s.freeIx &&& 0xFFFFFFFE#32

/-- A read of a register of a slot that is not valid (10_state.md R29, 93_implementation_defined.md U7; log 6). -/
def readInvalid (r : VoiceReg) (v : Nat) (s : State) : Host.Outcome State Fault Refusal :=
  match r with
  | .ctl => .next { setRdata (some (invalidControl s)) s with freeIx := s.freeIx + 1 }
  | .offset => .fault (.invalidSlotRegister v)
  | .start => .fault (.invalidSlotRegister v)
  | .aslope => .fault (.invalidSlotRegister v)
  | .dslope => .fault (.invalidSlotRegister v)
  | .sush => .fault (.invalidSlotRegister v)
  | .rslope => .fault (.invalidSlotRegister v)
  | .dexp => .fault (.invalidSlotRegister v)
  | .ddrive => .fault (.invalidSlotRegister v)
  | .vol => .fault (.invalidSlotRegister v)

/-- A read of a memory word (45_host_access.md R187, 93_implementation_defined.md U4; log 4). -/
def readMemory (a : Nat) (s : State) : Host.Outcome State Fault Refusal :=
  match needWord s.mem a with
  | .error e => .fault e
  | .ok w => .next (setRdata (some w) s)

/-- An access refused with E_ADDR that returns 0 (20_memory.md R63, R76). -/
def refusedRead (s : State) : State := setRdata (some 0#32) (refuse .addr s)

/-- `RD addr` by its target (45_host_access.md R187). -/
def readTarget (t : Target) (s : State) : Host.Outcome State Fault Refusal :=
  match t with
  | .global r => .next (setRdata (some (globalValue r s)) s)
  | .voice v r =>
    match liveVoice s.params.nvoice s.voices v with
    | some vc => .next (setRdata (some (voiceValue r vc)) s)
    | none => readInvalid r v s
  | .scr k => readMemory (scrBase + k) s
  | .out k => readMemory (outBase + k) s
  | .tbl b i => readMemory (tblAddr b i) s
  | .unmapped => .next (refusedRead s)

/-- `RD addr` (45_host_access.md R187). -/
def busRead (addr : Word) (s : State) : Host.Outcome State Fault Refusal := readTarget (target s.params addr) s

/-- A byte address at which an aligned word stands (20_memory.md R62, R63; log 11). -/
def isAligned (byteAddr : BitVec 34) : Bool := decide (byteAddr.toNat % 4 = 0)

/-- The word address of an aligned byte address: the byte address is `4*a` (20_memory.md R62). -/
def wordAddr (byteAddr : BitVec 34) : Word := BitVec.ofNat 32 (byteAddr.toNat / 4)

/-- A write on a byte-addressed bus: only four bytes at an aligned address are an access, the first byte holding bits
7:0; any other is refused with E_ADDR (20_memory.md R62, R63). -/
def byteBusWrite (byteAddr : BitVec 34) (data : List Byte) (s : State) : Host.Outcome State Fault Refusal :=
  match data with
  | [b0, b1, b2, b3] =>
    if isAligned byteAddr then busWrite (wordAddr byteAddr) (wordOfBytes b0 b1 b2 b3) s
    else .next (refuse .addr (setRdata none s))
  | _ => .next (refuse .addr (setRdata none s))

/-- A read on a byte-addressed bus: only four bytes at an aligned address are an access; any other is refused with
E_ADDR and returns 0 (20_memory.md R62, R63). -/
def byteBusRead (byteAddr : BitVec 34) (width : Nat) (s : State) : Host.Outcome State Fault Refusal :=
  if width = 4 ∧ isAligned byteAddr = true then busRead (wordAddr byteAddr) s else .next (refusedRead s)

/-- The reset input: the reset state of the same instance; what the host does next and the count of free values drawn
are the model's own and stay (70_reset_and_hazards.md R230; log 13). -/
def hardwareReset (s : State) : State :=
  { State.resetWith s.params with pending := s.pending, freeIx := s.freeIx }

/-- One host action, served to its end (00_scope.md R17). -/
def serve (a : HostAction) (s : State) : Host.Outcome State Fault Refusal :=
  match a with
  | .write addr data => busWrite addr data s
  | .read addr => busRead addr s
  | .writeBytes byteAddr data => byteBusWrite byteAddr data s
  | .readBytes byteAddr width => byteBusRead byteAddr width s
  | .reset => .next (hardwareReset s)

/-- The host's next action taken from the pending list. -/
def takeAction (rest : List HostAction) (s : State) : State := { s with pending := rest }

/-- The pending list with a write of a command word in front. -/
def pushCommand (w : Word) (s : State) : State := { s with pending := .write cmdAddr w :: s.pending }

/-- One step: the host's oldest pending action; with none pending nothing happens (00_scope.md R17; log 2). -/
def nextAction (s : State) : Host.Outcome State Fault Refusal :=
  match s.pending with
  | [] => .next s
  | a :: rest => serve a (takeAction rest s)

end Sys2Proof.Machine
end

