-- ==== Sys2Proof/Machine/Step.lean ====
section
/-! DEFINITION. The step: one host action (00_scope.md R17). -/

namespace Sys2Proof.Machine

/-- The spec's `step : State -> HostAccess -> State x Option Word`: the access is the oldest of `pending`, the optional
read value goes to `rdata` (00_scope.md R17; log 2). -/
def step (s : State) : Host.Outcome State Fault Refusal := nextAction s

/-- `s` with a write of the command word `w` to `CMD` as the host's next action (log 3). -/
def State.withFetchWord (s : State) (nbits w : Nat) : State := pushCommand (BitVec.ofNat 32 (w % 2 ^ nbits)) s

end Sys2Proof.Machine
end

