-- ==== Sys2Proof/Safety.lean ====
section
/-! DEFINITION. The terms claims are stated in: what stays outside a window, which words are written, the phase of an
envelope along a buffer, the sample a voice produces, the binary32 nearest to a value, the first reason for a refusal,
and the invariant of the block. -/

namespace Sys2Proof.Machine

/-! ### Memory -/

/-- Byte address `x` is outside the words `lo .. lo+n-1`. -/
abbrev outsideWords (lo n x : Nat) : Prop := x < 4 * lo ∨ 4 * (lo + n) ≤ x

/-- Every byte outside the words `lo .. lo+n-1` reads as before. -/
def sameOutside (lo n : Nat) (m m' : Memory) : Prop := ∀ x, outsideWords lo n x → readByte m' x = readByte m x

/-- Each of the words `lo .. lo+n-1` has been written since reset. -/
abbrev written (m : Memory) (lo n : Nat) : Prop := ∀ k, k < n → (readWord m (lo + k)).isSome = true

/-- The table entries an oscillator render of `n` samples at offset `off` reads (40_oscillator.md R121). -/
abbrev tableWritten (p : Params) (vc : Voice) (n off : Nat) (m : Memory) : Prop :=
  ∀ k, k < n → (readTbl m vc.tsel.toNat (oscStart p off + k)).isSome = true

/-- Word address `a` lies in the `SCR` window (20_memory.md R73). -/
abbrev scrWord (p : Params) (a : Nat) : Prop := scrBase ≤ a ∧ a < scrBase + p.sr

/-- Word address `a` lies in the `OUT` window (20_memory.md R74). -/
abbrev outWord (p : Params) (a : Nat) : Prop := outBase ≤ a ∧ a < outBase + p.sr

/-- Word address `a` lies in the `TBL[b]` window of some bank `b < NTABLE` (20_memory.md R75). -/
abbrev tblWord (p : Params) (a : Nat) : Prop :=
  tblBase ≤ a ∧ (a - tblBase) / tblStride < p.ntable ∧ (a - tblBase) % tblStride < 2 * p.sr

/-- Word address `a` lies in the `SCR`, the `OUT` or a `TBL` window of the map (20_memory.md R70). -/
abbrev inWindow (p : Params) (a : Nat) : Prop := scrWord p a ∨ outWord p a ∨ tblWord p a

/-- Word address `a` is a mapped global register (20_memory.md R71). -/
abbrev globalWord (a : Nat) : Prop := a < 0x0C ∨ (0x10 ≤ a ∧ a < 0x18)

/-- Word address `a` is a mapped register of a slot `v < NVOICE` (20_memory.md R72). -/
abbrev voiceWord (p : Params) (a : Nat) : Prop :=
  voiceBase ≤ a ∧ a < voiceBase + 16 * p.nvoice ∧ (a - voiceBase) % 16 < 10

/-- Bank `b` is periodic in `SR` (20_memory.md R87). -/
abbrev periodicBank (p : Params) (m : Memory) (b : Nat) : Prop :=
  ∀ j, j < p.sr → readTbl m b (j + p.sr) = readTbl m b j

/-! ### Voices -/

/-- Slot `v` holds the valid voice `vc` (30_encoding.md R103). -/
abbrev holdsVoice (s : State) (v : Nat) (vc : Voice) : Prop := liveVoice s.params.nvoice s.voices v = some vc

/-- The voice before sample `k` of a buffer whose first sample has index `off` (41_envelope.md R139). -/
def envTrace (off : Nat) (vc : Voice) : Nat → Voice
  | 0 => vc
  | k + 1 => envAdvance (envTrace off vc k) (off + k)

/-- The sample after the distortion step and the volume step of `Produce` (43_voice.md R163 steps 3 and 4). -/
def shapeSample (vc : Voice) (y : Word) : Word :=
  if fne vc.vol fOne then fmul (if vc.distEn then distSample vc y else y) vc.vol
  else if vc.distEn then distSample vc y else y

/-- Sample `k` of `Produce` for a table entry `t`: oscillator into a zeroed buffer, envelope, distortion, volume
(43_voice.md R163). -/
def voiceSample (vc : Voice) (k : Nat) (t : Word) : Word :=
  shapeSample vc (envOutput (envTrace vc.offset.toNat vc k) (vc.offset.toNat + k) (fadd fZero t))

/-- The voice `Produce` of `n` samples leaves (43_voice.md R163 to R165). -/
def producedVoice (n : Nat) (vc : Voice) : Voice := finishProduce n (envTrace vc.offset.toNat vc n)

/-- The table entry sample `k` of `Produce` reads; `0` stands only where nothing has been written
(40_oscillator.md R121). -/
def tableEntry (p : Params) (m : Memory) (vc : Voice) (k : Nat) : Word :=
  (readTbl m vc.tsel.toNat (oscStart p vc.offset.toNat + k)).getD 0#32

/-- The sum of sample `k` of the valid voices of slots `0 .. v-1`, added in ascending slot order from `+0.0`
(44_mixer.md R175, R176). -/
def mixSum (s : State) (k : Nat) : Nat → Word
  | 0 => fZero
  | v + 1 =>
    match liveVoice s.params.nvoice s.voices v with
    | none => mixSum s k v
    | some vc => fadd (mixSum s k v) (voiceSample vc k (tableEntry s.params s.mem vc k))

/-- A slot after FILL step 3: a valid voice has produced `n` samples (44_mixer.md R176). -/
def afterRender (n : Nat) (vc : Voice) : Voice := if vc.valid then producedVoice n vc else vc

/-- In Decay and Release the phase began before the running offset (10_state.md R35). -/
abbrev contiguous (vc : Voice) : Prop := vc.state = .decay ∨ vc.state = .release → vc.start.toNat < vc.offset.toNat

/-- A slope: not NaN and sign clear, that is `+inf` or finite and `>= +0.0` (10_state.md R35). -/
abbrev slopeOk (w : Word) : Prop := isnan w = false ∧ fsign w = false

/-- What holds of every valid slot (10_state.md R35). -/
abbrev voiceOk (p : Params) (flags : List Bool) (vc : Voice) : Prop :=
  vc.tsel.toNat < p.ntable ∧ isSealed flags vc.tsel.toNat = true ∧
    isFinite vc.sush = true ∧ fge vc.sush fZero = true ∧ isFinite vc.vol = true ∧ isFinite vc.ddrive = true ∧
    slopeOk vc.aslope ∧ slopeOk vc.dslope ∧ slopeOk vc.rslope ∧
    (vc.distEn = true → vc.dexp.toNat ≤ 0x3F7D70A4) ∧ (vc.distEn = false → vc.dexp = fOne) ∧
    (vc.fin = true → vc.state = .done)

/-! ### Numbers -/

/-- The distance of two naturals. -/
abbrev gap (x y : Nat) : Nat := (x - y) + (y - x)

/-- `bits` are bits 30:0 of the binary32 nearest to the exact value `num / den` units of `2^-149`: no finite pattern is
nearer, of two equally near ones it is the even one, and it is infinity from half a step above the largest finite
value on (00_scope.md R11; PRESUMED, log 10). -/
def isNearest (num den bits : Nat) : Prop :=
  (num < (2 ^ 25 - 1) * 2 ^ 252 * den ∧ bits < 0x7F800000 ∧ ∀ b, b < 0x7F800000 →
      gap (magOfBits bits * den) num ≤ gap (magOfBits b * den) num ∧
        (gap (magOfBits bits * den) num = gap (magOfBits b * den) num → b = bits ∨ bits % 2 = 0)) ∨
    ((2 ^ 25 - 1) * 2 ^ 252 * den ≤ num ∧ bits = 0x7F800000)

/-- The value of a pattern that is not NaN, in units of `2^-149`, infinity standing above every finite value. -/
def orderValue (w : Word) : Int :=
  if isinf w then (if fsign w then -(2 ^ 250 * 2 ^ 27) else 2 ^ 250 * 2 ^ 27) else fint w

/-- `i` is the least index below `n` that satisfies `P`, or any index from `n` on where no index below `n` does. -/
def firstBelow (n : Nat) (P : Nat → Prop) (i : Nat) : Prop := (i < n → P i) ∧ ∀ j, j < n → j < i → ¬ P j

/-! ### Commands and runs -/

/-- A word of no command (30_encoding.md R105). -/
abbrev illegalWord (w : Word) : Prop :=
  w.extractLsb' 28 4 = 0x0#4 ∨ 0x9#4 ≤ w.extractLsb' 28 4 ∨
    (w.extractLsb' 28 4 = 0x6#4 ∧ w.extractLsb' 0 28 ≠ 0#28) ∨
    (w.extractLsb' 28 4 = 0x7#4 ∧ w.extractLsb' 22 6 ≠ 0#6) ∨
    (w.extractLsb' 28 4 = 0x8#4 ∧ w.extractLsb' 0 22 ≠ 0#22)

/-- A condition on the voice of a valid slot; false of a slot that is not valid. -/
def ofSlot (s : State) (v : Nat) (f : Voice → Bool) : Bool :=
  match liveVoice s.params.nvoice s.voices v with
  | some vc => f vc
  | none => false

/-- Why a command may be refused, in the order of 60_exceptions.md R205, each reason with its code. -/
def refusalReasons (s : State) : Instr → List (Bool × Code)
  | .osc v n => [(!ofSlot s v fun _ => true, .voice), (decide (s.params.sr < n), .len),
      (decide (2 ^ 32 ≤ s.offarg.toNat + n), .offOvf)]
  | .env v n => [(!ofSlot s v fun _ => true, .voice), (decide (s.params.sr < n), .len),
      (decide (2 ^ 32 ≤ s.offarg.toNat + n), .offOvf),
      (ofSlot s v fun vc =>
        (decide (vc.state = .decay) || decide (vc.state = .release)) && decide (s.offarg < vc.start), .offSeq)]
  | .dist v n => [(!ofSlot s v fun _ => true, .voice), (decide (s.params.sr < n), .len),
      (ofSlot s v fun vc => !vc.distEn, .noDist)]
  | .vol v n => [(!ofSlot s v fun _ => true, .voice), (decide (s.params.sr < n), .len)]
  | .prod v n => [(!ofSlot s v fun _ => true, .voice), (decide (s.params.sr < n), .len),
      (ofSlot s v fun vc => decide (2 ^ 32 ≤ vc.offset.toNat + n), .offOvf)]
  | .enq => [(decide (s.pCtl &&& 0xFFFFFEE0#32 ≠ 0#32), .param),
      (decide (s.params.ntable ≤ (s.pCtl.extractLsb' 0 5).toNat) ||
        !s.sealFlags.getD (s.pCtl.extractLsb' 0 5).toNat false, .table),
      ([s.pAttack, s.pDecay, s.pSustain, s.pRelease].any fun x => isnan x || isinf x || !fge x fZero, .param),
      (isnan s.pVolume || isinf s.pVolume, .param),
      (s.pCtl.getLsbD 8 && (isnan s.pCrunch || fgt s.pCrunch fOne || isnan s.pDrive || isinf s.pDrive ||
        !fge s.pDrive fZero), .param),
      ((List.range s.params.nvoice).all fun v => ofSlot s v fun _ => true, .full)]
  | .fill n => [(decide (s.params.sr < n), .len),
      ((List.range s.params.nvoice).any fun v => ofSlot s v fun vc => decide (2 ^ 32 ≤ vc.offset.toNat + n), .offOvf)]
  | .tseal b => [(decide (s.params.ntable ≤ b), .table), (s.sealFlags.getD b false, .table)]

/-- The code of the first reason that applies, if one does (60_exceptions.md R205). -/
def firstReason (s : State) (i : Instr) : Option Code :=
  ((refusalReasons s i).find? fun r => r.1).map fun r => r.2

/-- The lists of slots and seal flags have the lengths the parameters give them (10_state.md R20). -/
abbrev shaped (s : State) : Prop := s.voices.length = s.params.nvoice ∧ s.sealFlags.length = s.params.ntable

/-- The invariant of the block: legal parameters and list lengths, memory in canonical form and inside its windows,
every valid slot as 10_state.md R35 says, codes of 60_exceptions.md R204 only, `G.LAST` 0 while `G.ERR` is 0, a slot and
a count in range. -/
abbrev blockInv (s : State) : Prop :=
  s.params.legal = true ∧ shaped s ∧ Memory.wf s.mem = true ∧ (∀ c ∈ s.mem, inWindow s.params (c.1 / 4)) ∧
    (∀ vc ∈ s.voices, vc.valid = true → voiceOk s.params s.sealFlags vc) ∧
    s.err.toNat ≤ 0x0B ∧ s.last.toNat ≤ 0x0B ∧ (s.err = okByte → s.last = okByte) ∧
    s.rslot.toNat < s.params.nvoice ∧ s.rcount.toNat ≤ s.params.nvoice

/-- The values 10_state.md R43 gives the state of an instance with parameters `p` after reset: no valid slot, no sealed
bank, no word of a memory written, every result and staging register zero. -/
def isResetState (p : Params) (s : State) : Prop :=
  s.params = p ∧ s.voices.length = p.nvoice ∧ (∀ vc ∈ s.voices, vc.valid = false) ∧
    s.sealFlags = List.replicate p.ntable false ∧ (∀ x, readByte s.mem x = none) ∧
    s.err = 0#8 ∧ s.last = 0#8 ∧ s.rstate = 0#2 ∧ s.rslot = 0#6 ∧ s.rcount = 0#7 ∧ s.offarg = 0#32 ∧
    s.pCtl = 0#32 ∧ s.pAttack = 0#32 ∧ s.pDecay = 0#32 ∧ s.pSustain = 0#32 ∧ s.pRelease = 0#32 ∧
    s.pVolume = 0#32 ∧ s.pCrunch = 0#32 ∧ s.pDrive = 0#32

/-- The word a host action writes to `CMD`, if it writes one: by a write of the word port, or by four aligned bytes on a
byte-addressed bus (10_state.md R25, 20_memory.md R62). -/
def wordToCmd (p : Params) (a : HostAction) : Option Word :=
  match a with
  | .write addr data => if target p addr = .global .cmd then some data else none
  | .writeBytes byteAddr [b0, b1, b2, b3] =>
    if isAligned byteAddr = true ∧ target p (wordAddr byteAddr) = .global .cmd then some (wordOfBytes b0 b1 b2 b3)
    else none
  | .writeBytes _ _ => none
  | .read _ => none
  | .readBytes _ _ => none
  | .reset => none

/-- The command a bus write of `data` at word address `addr` issues, if it is a legal word written to `CMD`
(30_encoding.md R100). -/
def commandAt (p : Params) (addr data : Word) : Option Instr :=
  if target p addr = .global .cmd then
    match decode data with
    | .ok i => some i
    | .error _ => none
  else none

/-- The command a host action issues, if it issues one. -/
def commandOf (p : Params) (a : HostAction) : Option Instr :=
  match a with
  | .write addr data => commandAt p addr data
  | .writeBytes byteAddr [b0, b1, b2, b3] =>
    if isAligned byteAddr then commandAt p (wordAddr byteAddr) (wordOfBytes b0 b1 b2 b3) else none
  | .writeBytes _ _ => none
  | .read _ => none
  | .readBytes _ _ => none
  | .reset => none

/-- `s` is about to run the command `i`: the host's next action issues it. -/
def nextCommand (s : State) : Option Instr :=
  match s.pending with
  | [] => none
  | a :: _ => commandOf s.params a

/-- The nine registers the host writes freely, replaced by those of `g` (10_state.md R21, R23). -/
def withStaging (g s : State) : State :=
  { s with pCtl := g.pCtl, pAttack := g.pAttack, pDecay := g.pDecay, pSustain := g.pSustain, pRelease := g.pRelease,
           pVolume := g.pVolume, pCrunch := g.pCrunch, pDrive := g.pDrive, offarg := g.offarg }

/-- The outcome with its next state, if it has one, changed by `f`. -/
def mapNext (f : State → State) : Host.Outcome State Fault Refusal → Host.Outcome State Fault Refusal
  | .next s => .next (f s)
  | .fault e => .fault e
  | .refused r => .refused r

/-- The host's next action is not the reset input. -/
def noReset (s : State) : Prop :=
  match s.pending with
  | [] => True
  | a :: _ => a ≠ .reset

end Sys2Proof.Machine
end

