-- ==== Sys2Proof/Certificates/Slice0/Obligations.lean ====
section
/-! DEFINITION. The statements about the block, one per rule or group of rules of spec/. Every statement ranges over
every state, every legal or arbitrary parameter value and every value of the free values. -/

open Sys2Proof Sys2Proof.Machine

/-! ### Encoding (30_encoding.md) -/

/-- R101, R102, R104: no bit of a command is lost, the word of a well-formed command decodes to it. -/
def Obligations.DecodeAfterEncode : Prop :=
  ∀ i : Instr, i.wellFormed = true → decode (encode i) = .ok i

/-- R104, R105: a word that decodes is the word of a well-formed command, so each command has one word. -/
def Obligations.EncodeAfterDecode : Prop :=
  ∀ (w : Word) (i : Instr), decode w = .ok i → i.wellFormed = true ∧ encode i = w

/-- R101, R102, R104: each row of the opcode map, with its mask, its match and its fields. -/
def Obligations.RowsOfTheOpcodeMap : Prop :=
  ∀ w : Word,
    (w &&& 0xF0000000#32 = 0x10000000#32 →
      decode w = .ok (.osc (w.extractLsb' 22 6).toNat (w.extractLsb' 0 22).toNat)) ∧
    (w &&& 0xF0000000#32 = 0x20000000#32 →
      decode w = .ok (.env (w.extractLsb' 22 6).toNat (w.extractLsb' 0 22).toNat)) ∧
    (w &&& 0xF0000000#32 = 0x30000000#32 →
      decode w = .ok (.dist (w.extractLsb' 22 6).toNat (w.extractLsb' 0 22).toNat)) ∧
    (w &&& 0xF0000000#32 = 0x40000000#32 →
      decode w = .ok (.vol (w.extractLsb' 22 6).toNat (w.extractLsb' 0 22).toNat)) ∧
    (w &&& 0xF0000000#32 = 0x50000000#32 →
      decode w = .ok (.prod (w.extractLsb' 22 6).toNat (w.extractLsb' 0 22).toNat)) ∧
    (w &&& 0xFFFFFFFF#32 = 0x60000000#32 → decode w = .ok .enq) ∧
    (w &&& 0xFFC00000#32 = 0x70000000#32 → decode w = .ok (.fill (w.extractLsb' 0 22).toNat)) ∧
    (w &&& 0xF03FFFFF#32 = 0x80000000#32 → decode w = .ok (.tseal (w.extractLsb' 22 6).toNat))

/-- R105: exactly the listed words are illegal, and writing one to `CMD` is refused with E_ILLEGAL. -/
def Obligations.IllegalWordsAreRefused : Prop :=
  illegalWord 0x00000000#32 ∧ illegalWord 0xFFFFFFFF#32 ∧
    ∀ w : Word,
      (¬ illegalWord w → ∃ i, decode w = .ok i) ∧
      (illegalWord w → ∀ (s : State) (rest : List HostAction), s.pending = .write cmdAddr w :: rest →
        step s = .next (refuse .illegal { s with pending := rest, rdata := none }))

/-- R109, which the spec derives from R102 and R104: the worked encodings, written out from the spec. -/
def Obligations.WorkedEncodings : Prop :=
  decode 0x10000004#32 = .ok (.osc 0 4) ∧ decode 0x20C00064#32 = .ok (.env 3 100) ∧
    decode 0x30400008#32 = .ok (.dist 1 8) ∧ decode 0x40000008#32 = .ok (.vol 0 8) ∧
    decode 0x5080AC44#32 = .ok (.prod 2 44100) ∧ decode 0x60000000#32 = .ok .enq ∧
    decode 0x70000004#32 = .ok (.fill 4) ∧ decode 0x7000AC44#32 = .ok (.fill 44100) ∧
    decode 0x81400000#32 = .ok (.tseal 5)

/-- R17, R100: a step serves the host's next action; a legal word written to `CMD` runs the command it decodes to.
The pending list, the empty `rdata` of a write and `withFetchWord` are the model's own (log 2, log 3). -/
def Obligations.StepRunsTheCommand : Prop :=
  ∀ s : State,
    (s.pending = [] → step s = .next s) ∧
    (∀ a rest, s.pending = a :: rest → step s = serve a { s with pending := rest }) ∧
    (∀ w i rest, s.pending = .write cmdAddr w :: rest → decode w = .ok i →
      step s = exec i { s with pending := rest, rdata := none }) ∧
    ∀ (w : Word) (i : Instr), decode w = .ok i →
      step (s.withFetchWord 32 w.toNat) = exec i { s with rdata := none }

/-! ### Numbers (00_scope.md section 6) -/

/-- R11: the four operations on finite operands round the exact result once, to nearest with ties to even, subnormals
kept; what they give for zeros, infinities and NaN; every NaN result is the canonical one. The sign of an exactly zero
sum or difference, the threshold from which a result is an infinity, and the results for infinite operands are the IEEE
rules (PRESUMED, log 10). -/
def Obligations.ArithmeticRoundsOnce : Prop :=
  ∀ a b : Word,
    (isnan a = false → isinf a = false → isnan b = false → isinf b = false →
      (fint a + fint b ≠ 0 → ∃ bits, isNearest (fint a + fint b).natAbs 1 bits ∧
        fadd a b = packSign (decide (fint a + fint b < 0)) bits) ∧
      (fint a + fint b = 0 → fadd a b = if fsign a && fsign b then fNegZero else fZero) ∧
      (fint a - fint b ≠ 0 → ∃ bits, isNearest (fint a - fint b).natAbs 1 bits ∧
        fsub a b = packSign (decide (fint a - fint b < 0)) bits) ∧
      (fint a - fint b = 0 → fsub a b = if fsign a && !fsign b then fNegZero else fZero) ∧
      (∃ bits, isNearest (fmag a * fmag b) (2 ^ 149) bits ∧ fmul a b = packSign (fsign a != fsign b) bits) ∧
      (iszero b = false → ∃ bits, isNearest (fmag a * 2 ^ 149) (fmag b) bits ∧
        fdiv a b = packSign (fsign a != fsign b) bits)) ∧
    (isinf a = true → isinf b = true → fsign a = fsign b → fsub a b = fNaN) ∧
    (isinf a = true → isnan b = false → (isinf b = true → fsign a ≠ fsign b) → fsub a b = a) ∧
    (isnan a = false → isinf a = false → isinf b = true → fsub a b = packSign (!fsign b) 0x7F800000) ∧
    (isnan a = false → iszero a = false → iszero b = true → fdiv a b = packSign (fsign a != fsign b) 0x7F800000) ∧
    (iszero a = true → iszero b = true → fdiv a b = fNaN) ∧
    (isinf a = true → isinf b = true → fdiv a b = fNaN) ∧
    (isinf a = true → isnan b = false → isinf b = false → fdiv a b = packSign (fsign a != fsign b) 0x7F800000) ∧
    (isnan a = false → isinf a = false → isinf b = true → fdiv a b = packSign (fsign a != fsign b) 0) ∧
    (iszero a = true → isinf b = true → fmul a b = fNaN ∧ fmul b a = fNaN) ∧
    (isinf a = true → isnan b = false → iszero b = false →
      fmul a b = packSign (fsign a != fsign b) 0x7F800000 ∧ fmul b a = packSign (fsign b != fsign a) 0x7F800000) ∧
    (isinf a = true → isinf b = true → fsign a ≠ fsign b → fadd a b = fNaN) ∧
    (isinf a = true → isnan b = false → (isinf b = true → fsign a = fsign b) → fadd a b = a ∧ fadd b a = a) ∧
    (isnan a = true ∨ isnan b = true →
      fadd a b = fNaN ∧ fsub a b = fNaN ∧ fmul a b = fNaN ∧ fdiv a b = fNaN) ∧
    (isnan (fadd a b) = true → fadd a b = fNaN) ∧ (isnan (fsub a b) = true → fsub a b = fNaN) ∧
    (isnan (fmul a b) = true → fmul a b = fNaN) ∧ (isnan (fdiv a b) = true → fdiv a b = fNaN)

/-- R10, R12: the classes by the fields of the pattern, the comparisons by the values, all false on a NaN, and the two
bit operations. -/
def Obligations.ComparisonsFollowTheValues : Prop :=
  ∀ a b : Word,
    (isnan a = true ↔ a.extractLsb' 23 8 = 0xFF#8 ∧ a.extractLsb' 0 23 ≠ 0#23) ∧
    (isinf a = true ↔ a.extractLsb' 23 8 = 0xFF#8 ∧ a.extractLsb' 0 23 = 0#23) ∧
    (iszero a = true ↔ a.extractLsb' 0 31 = 0#31) ∧ (isposinf a = true ↔ a = 0x7F800000#32) ∧
    fabs a = a &&& 0x7FFFFFFF#32 ∧ copysign a b = (a &&& 0x7FFFFFFF#32) ||| (b &&& 0x80000000#32) ∧
    (fge a b = true ↔ isnan a = false ∧ isnan b = false ∧ orderValue b ≤ orderValue a) ∧
    (fle a b = true ↔ isnan a = false ∧ isnan b = false ∧ orderValue a ≤ orderValue b) ∧
    (flt a b = true ↔ isnan a = false ∧ isnan b = false ∧ orderValue a < orderValue b) ∧
    (fgt a b = true ↔ isnan a = false ∧ isnan b = false ∧ orderValue b < orderValue a) ∧
    (feq a b = true ↔ isnan a = false ∧ isnan b = false ∧ orderValue a = orderValue b) ∧
    (fne a b = true ↔ feq a b = false)

/-- R13: an integer is converted to the nearest binary32, exactly up to `2^24`. -/
def Obligations.IntegerConversionIsNearest : Prop :=
  u2f 0 = fZero ∧
    ∀ n : Nat, n < 2 ^ 32 →
      (∃ bits, isNearest (n * 2 ^ 149) 1 bits ∧ bits < 0x7F800000 ∧ u2f n = packSign false bits) ∧
      (n ≤ 2 ^ 24 → fint (u2f n) = (n : Int) * 2 ^ 149)

/-- R16: the named properties of `POW`, on the arguments the block calls it with, whatever the free value is. -/
def Obligations.PowerHasTheNamedProperties : Prop :=
  ∀ a e : Word, isnan a = false → fgt a fZero = true → e.toNat ≤ 0x3F7D70A4 →
    isnan (fpow a e) = false ∧ fge (fpow a e) fZero = true ∧ fpow a fZero = fOne ∧ fpow fOne e = fOne ∧
      (fgt e fZero = true → fpow fInf e = fInf)

/-! ### Refusals of commands (60_exceptions.md) -/

/-- R205, which the spec derives from the check lists of the commands, R206, R103: a command is refused for the first
reason that applies, with that code; with none it is not refused, and when it completes `G.LAST` is 0 and `G.ERR` is
as before. -/
def Obligations.RefusedForTheFirstReason : Prop :=
  ∀ (i : Instr) (s : State),
    (∀ c, firstReason s i = some c → exec i s = .next (refuse c s)) ∧
    (firstReason s i = none → ∀ t, exec i s = .next t → t.last = 0x00#8 ∧ t.err = s.err)

/-- R9, R200, R203: a command that ends with a code in `G.LAST` has changed `G.LAST`, and `G.ERR` where that was 0, and
nothing else. -/
def Obligations.RefusalWritesOnlyItsCode : Prop :=
  ∀ (i : Instr) (s t : State), exec i s = .next t → t.last ≠ 0x00#8 →
    t = { s with last := t.last, err := if s.err = 0x00#8 then t.last else s.err }

/-- R206, R65, 93_implementation_defined.md U4: past its checks a command cannot fail; the model stops only where the
command needs a word of a mapped window that nothing has written since reset. That `PROD` and `FILL` complete at an
offset before `START` too is the model's choice (DESIGN CHOICE, log 9). -/
def Obligations.OnlyUnwrittenWordsStop : Prop :=
  ∀ (i : Instr) (s : State), blockInv s →
    (∃ t, exec i s = .next t) ∨
      ∃ a, exec i s = .fault (.unwrittenWord a) ∧ readWord s.mem a = none ∧ inWindow s.params a

/-! ### Oscillator (40_oscillator.md) -/

/-- R121, R122: `OSC` checks in order, then adds `TBL[TSEL][off mod SR + k]` into `SCR[k]` for `k < n` and writes
nothing else but `G.LAST`. -/
def Obligations.OscAddsTheTable : Prop :=
  ∀ (s : State) (v n : Nat),
    (liveVoice s.params.nvoice s.voices v = none → exec (.osc v n) s = .next (refuse .voice s)) ∧
    ∀ vc, holdsVoice s v vc →
      (s.params.sr < n → exec (.osc v n) s = .next (refuse .len s)) ∧
      (n ≤ s.params.sr → 2 ^ 32 ≤ s.offarg.toNat + n → exec (.osc v n) s = .next (refuse .offOvf s)) ∧
      (n ≤ s.params.sr → s.offarg.toNat + n < 2 ^ 32 → written s.mem scrBase n →
        tableWritten s.params vc n s.offarg.toNat s.mem →
        ∃ m, exec (.osc v n) s = .next { s with mem := m, last := 0x00#8 } ∧
          (∀ k x y, k < n → readScr s.mem k = some x →
            readTbl s.mem vc.tsel.toNat (s.offarg.toNat % s.params.sr + k) = some y → readScr m k = some (fadd x y)) ∧
          sameOutside scrBase n s.mem m)

/-- R124, which the spec derives from R121: rendering `N` and then `M` samples gives the samples of rendering `N + M`,
when the second start does not wrap, or when the bank is periodic in `SR`. The second call works on the part of `SCR`
the first did not reach, moved to the front. -/
def Obligations.OscillatorSplits : Prop :=
  ∀ (s : State) (v N M : Nat) (vc : Voice) (m2 : Memory),
    s.params.legal = true → holdsVoice s v vc → N + M ≤ s.params.sr → s.offarg.toNat + (N + M) < 2 ^ 32 →
    written s.mem scrBase (N + M) → tableWritten s.params vc (N + M) s.offarg.toNat s.mem →
    (s.offarg.toNat % s.params.sr + N < s.params.sr ∨ periodicBank s.params s.mem vc.tsel.toNat) →
    (∀ k, k < M → readScr m2 k = readScr s.mem (N + k)) →
    (∀ j, j < 2 * s.params.sr → readTbl m2 vc.tsel.toNat j = readTbl s.mem vc.tsel.toNat j) →
    ∃ t t1 t2, exec (.osc v (N + M)) s = .next t ∧ exec (.osc v N) s = .next t1 ∧
      exec (.osc v M) { t1 with offarg := s.offarg + BitVec.ofNat 32 N, mem := m2 } = .next t2 ∧
      (∀ k, k < N → readScr t1.mem k = readScr t.mem k) ∧ ∀ k, k < M → readScr t2.mem k = readScr t.mem (N + k)

/-! ### Envelope (41_envelope.md) -/

/-- R133, R139: `ENV` checks in order, then takes the samples one by one, each by the phase as it then is, and writes
`SCR[0 .. n-1]`, `STATE`, `START`, `G.RSTATE`, `G.LAST` only. A sample the envelope forces to `+0.0` needs no input
(DEDUCED, log 12). -/
def Obligations.EnvMultipliesByTheGain : Prop :=
  ∀ (s : State) (v n : Nat),
    (liveVoice s.params.nvoice s.voices v = none → exec (.env v n) s = .next (refuse .voice s)) ∧
    ∀ vc, holdsVoice s v vc →
      (s.params.sr < n → exec (.env v n) s = .next (refuse .len s)) ∧
      (n ≤ s.params.sr → 2 ^ 32 ≤ s.offarg.toNat + n → exec (.env v n) s = .next (refuse .offOvf s)) ∧
      (n ≤ s.params.sr → s.offarg.toNat + n < 2 ^ 32 → vc.state = .decay ∨ vc.state = .release →
        s.offarg < vc.start → exec (.env v n) s = .next (refuse .offSeq s)) ∧
      (n ≤ s.params.sr → s.offarg.toNat + n < 2 ^ 32 → (vc.state = .decay ∨ vc.state = .release → vc.start ≤ s.offarg) →
        (∀ k, k < n → (envTrace s.offarg.toNat vc k).state = .done ∨ (readScr s.mem k).isSome = true) →
        ∃ m, exec (.env v n) s = .next { s with
            mem := m, voices := s.voices.set v (envTrace s.offarg.toNat vc n),
            rstate := (envTrace s.offarg.toNat vc n).state.tag, last := 0x00#8 } ∧
          (∀ k, k < n → (envTrace s.offarg.toNat vc k).state = .done → readScr m k = some fZero) ∧
          (∀ k x, k < n → readScr s.mem k = some x →
            readScr m k = some (envOutput (envTrace s.offarg.toNat vc k) (s.offarg.toNat + k) x)) ∧
          sameOutside scrBase n s.mem m)

/-- R134, R138: one Attack sample at absolute index `i`. -/
def Obligations.AttackSample : Prop :=
  ∀ (s : State) (v : Nat) (vc : Voice) (x p g : Word) (vc' : Voice),
    holdsVoice s v vc → vc.state = .attack → 1 ≤ s.params.sr → s.offarg.toNat + 1 < 2 ^ 32 →
    readScr s.mem 0 = some x →
    p = (if isposinf vc.aslope then fInf else fmul (u2f s.offarg.toNat) vc.aslope) →
    g = (if isposinf p then fOne else p) →
    vc' = (if fge g fOne then
        (if iszero vc.sush then { vc with state := .done } else { vc with state := .decay, start := s.offarg })
      else vc) →
    ∃ m, exec (.env v 1) s = .next { s with
        mem := m, voices := s.voices.set v vc', rstate := vc'.state.tag, last := 0x00#8 } ∧
      readScr m 0 = some (fmul x g) ∧ sameOutside scrBase 1 s.mem m

/-- R135: one Decay sample at absolute index `i`. -/
def Obligations.DecaySample : Prop :=
  ∀ (s : State) (v : Nat) (vc : Voice) (x p g : Word) (vc' : Voice),
    holdsVoice s v vc → vc.state = .decay → 1 ≤ s.params.sr → s.offarg.toNat + 1 < 2 ^ 32 → vc.start ≤ s.offarg →
    readScr s.mem 0 = some x →
    p = (if isposinf vc.dslope then fInf else fmul (u2f (s.offarg.toNat - vc.start.toNat)) vc.dslope) →
    g = (if isposinf p then vc.sush else fsub fOne p) →
    vc' = (if fle g vc.sush then { vc with state := .release, start := s.offarg } else vc) →
    ∃ m, exec (.env v 1) s = .next { s with
        mem := m, voices := s.voices.set v vc', rstate := vc'.state.tag, last := 0x00#8 } ∧
      readScr m 0 = some (fmul x g) ∧ sameOutside scrBase 1 s.mem m

/-- R136: one Release sample at absolute index `i`. -/
def Obligations.ReleaseSample : Prop :=
  ∀ (s : State) (v : Nat) (vc : Voice) (x p g : Word) (vc' : Voice),
    holdsVoice s v vc → vc.state = .release → 1 ≤ s.params.sr → s.offarg.toNat + 1 < 2 ^ 32 → vc.start ≤ s.offarg →
    readScr s.mem 0 = some x →
    p = (if isposinf vc.rslope then fInf else fmul (u2f (s.offarg.toNat - vc.start.toNat)) vc.rslope) →
    g = (if isposinf p then fZero else fsub vc.sush p) →
    vc' = (if fle g fZero then { vc with state := .done } else vc) →
    ∃ m, exec (.env v 1) s = .next { s with
        mem := m, voices := s.voices.set v vc', rstate := vc'.state.tag, last := 0x00#8 } ∧
      readScr m 0 = some (fmul x g) ∧ sameOutside scrBase 1 s.mem m

/-- R137: in Done every sample is the constant `+0.0`, whatever the input, and the voice stays as it is. That a word of
`SCR` that holds no value is no obstacle is the model's reading (DEDUCED, log 12). -/
def Obligations.DoneSamplesAreZero : Prop :=
  ∀ (s : State) (v n : Nat) (vc : Voice),
    holdsVoice s v vc → vc.state = .done → n ≤ s.params.sr → s.offarg.toNat + n < 2 ^ 32 →
    ∃ m, exec (.env v n) s = .next { s with mem := m, rstate := 3#2, last := 0x00#8 } ∧
      (∀ k, k < n → readScr m k = some 0x00000000#32) ∧ sameOutside scrBase n s.mem m

/-- R144, which the spec derives from R139: `ENV` of `N` and then of `M` samples leaves the samples, the `STATE` and
the `START` of `ENV` of `N + M`. The second call works on the part of `SCR` the first did not reach, moved to the
front. -/
def Obligations.EnvelopeSplits : Prop :=
  ∀ (s : State) (v N M : Nat) (vc : Voice) (m2 : Memory),
    holdsVoice s v vc → N + M ≤ s.params.sr → s.offarg.toNat + (N + M) < 2 ^ 32 →
    (vc.state = .decay ∨ vc.state = .release → vc.start ≤ s.offarg) → written s.mem scrBase (N + M) →
    (∀ k, k < M → readScr m2 k = readScr s.mem (N + k)) →
    ∃ t t1 t2, exec (.env v (N + M)) s = .next t ∧ exec (.env v N) s = .next t1 ∧
      exec (.env v M) { t1 with offarg := s.offarg + BitVec.ofNat 32 N, mem := m2 } = .next t2 ∧
      (∀ k, k < N → readScr t1.mem k = readScr t.mem k) ∧
      (∀ k, k < M → readScr t2.mem k = readScr t.mem (N + k)) ∧ t2.voices = t.voices ∧ t2.rstate = t.rstate

/-- R32, R141 (the latter derived by the spec): no step takes a voice back to an earlier phase, Done is terminal; and
one sample takes the phase on by at most one, or from Attack to Done when the sustain height is zero. -/
def Obligations.PhaseNeverRegresses : Prop :=
  (∀ (s t : State) (v : Nat) (vc vc' : Voice), s.params.legal = true → shaped s → step s = .next t → noReset s →
    holdsVoice s v vc → holdsVoice t v vc' →
    vc.state.tag ≤ vc'.state.tag ∧ (vc.state = .done → vc'.state = .done)) ∧
  ∀ (s t : State) (v : Nat) (vc vc' : Voice), exec (.env v 1) s = .next t → holdsVoice s v vc → holdsVoice t v vc' →
    vc'.state = vc.state ∨ vc'.state.tag = vc.state.tag + 1#2 ∨
      (vc.state = .attack ∧ vc'.state = .done ∧ iszero vc.sush = true)

/-- R142, which the spec derives from R132 and R134 to R136: a zero duration gives an infinite slope, and a phase with
an infinite slope ends at the first sample it evaluates, whatever its index, with gain 1.0, `SUSH` or `+0.0`. -/
def Obligations.InstantPhases : Prop :=
  (∀ (p : Params) (a r : Word), p.legal = true → iszero a = true → isnan r = false → isinf r = false →
    attackSlope p a = fInf ∧ fallSlope p a r = fInf ∧ fallSlope p r a = fInf) ∧
  ∀ (s : State) (v : Nat) (vc : Voice) (x : Word),
    holdsVoice s v vc → 1 ≤ s.params.sr → s.offarg.toNat + 1 < 2 ^ 32 → readScr s.mem 0 = some x → isnan x = false →
    (vc.state = .attack → vc.aslope = fInf → ∃ t vc', exec (.env v 1) s = .next t ∧ readScr t.mem 0 = some x ∧
      holdsVoice t v vc' ∧ vc'.state = if iszero vc.sush then .done else .decay) ∧
    (vc.state = .decay → vc.start ≤ s.offarg → vc.dslope = fInf → isnan vc.sush = false →
      ∃ t vc', exec (.env v 1) s = .next t ∧ readScr t.mem 0 = some (fmul x vc.sush) ∧
        holdsVoice t v vc' ∧ vc'.state = .release) ∧
    (vc.state = .release → vc.start ≤ s.offarg → vc.rslope = fInf →
      ∃ t vc', exec (.env v 1) s = .next t ∧ readScr t.mem 0 = some (fmul x fZero) ∧
        holdsVoice t v vc' ∧ vc'.state = .done)

/-- R143, which the spec derives from R134 to R137: the shape of the first `n` samples of an envelope taken from offset
0: the attack gain up to the completion sample `iA`, the decay gain up to `iD`, the release gain up to `iR`, then
zeros; and the phase after `n` samples. A phase that does not complete within the `n` samples, or never, has its index
at `n` or above. The gains are those of R134 to R136, so that products that reach infinity are covered too. -/
def Obligations.WholeEnvelopeShape : Prop :=
  ∀ (s : State) (v n : Nat) (vc : Voice) (iA iD iR : Nat) (pA pD pR gA gD gR : Nat → Word),
    holdsVoice s v vc → vc.state = .attack → iszero vc.sush = false → s.offarg = 0#32 → n ≤ s.params.sr →
    n < 2 ^ 32 → written s.mem scrBase n →
    (∀ i, pA i = if isposinf vc.aslope then fInf else fmul (u2f i) vc.aslope) →
    (∀ i, gA i = if isposinf (pA i) then fOne else pA i) →
    (∀ i, pD i = if isposinf vc.dslope then fInf else fmul (u2f (i - iA)) vc.dslope) →
    (∀ i, gD i = if isposinf (pD i) then vc.sush else fsub fOne (pD i)) →
    (∀ i, pR i = if isposinf vc.rslope then fInf else fmul (u2f (i - iD)) vc.rslope) →
    (∀ i, gR i = if isposinf (pR i) then fZero else fsub vc.sush (pR i)) →
    firstBelow n (fun i => fge (gA i) fOne = true) iA →
    firstBelow n (fun i => iA < i ∧ fle (gD i) vc.sush = true) iD →
    firstBelow n (fun i => iD < i ∧ fle (gR i) fZero = true) iR →
    ∃ t, exec (.env v n) s = .next t ∧
      (∀ k x, k < n → readScr s.mem k = some x → readScr t.mem k = some
        (if k ≤ iA then fmul x (gA k) else if k ≤ iD then fmul x (gD k) else if k ≤ iR then fmul x (gR k) else fZero)) ∧
      t.rstate = if n ≤ iA then 0#2 else if n ≤ iD then 1#2 else if n ≤ iR then 2#2 else 3#2

/-- R207, which the spec derives: with input samples in `[-1, 1]` and a voice that meets R35 every sample `ENV` leaves
is finite. -/
def Obligations.EnvelopeOutputIsFinite : Prop :=
  ∀ (s t : State) (v n : Nat) (vc : Voice),
    holdsVoice s v vc → voiceOk s.params s.sealFlags vc →
    (∀ k x, k < n → readScr s.mem k = some x → fle (fabs x) fOne = true) →
    exec (.env v n) s = .next t → t.last = 0x00#8 →
    ∀ k y, k < n → readScr t.mem k = some y → isFinite y = true

/-! ### Distortion (42_distortion.md) -/

/-- R152, R153: `DIST` checks in order, then shapes `SCR[0 .. n-1]` and writes nothing else but `G.LAST`. -/
def Obligations.DistShapesTheBuffer : Prop :=
  ∀ (s : State) (v n : Nat),
    (liveVoice s.params.nvoice s.voices v = none → exec (.dist v n) s = .next (refuse .voice s)) ∧
    ∀ vc, holdsVoice s v vc →
      (s.params.sr < n → exec (.dist v n) s = .next (refuse .len s)) ∧
      (n ≤ s.params.sr → vc.distEn = false → exec (.dist v n) s = .next (refuse .noDist s)) ∧
      (n ≤ s.params.sr → vc.distEn = true → written s.mem scrBase n →
        ∃ m, exec (.dist v n) s = .next { s with mem := m, last := 0x00#8 } ∧
          (∀ k x y, k < n → readScr s.mem k = some x → y = fmul x vc.ddrive →
            readScr m k = some (if isnan y then 0x7FC00000#32 else if iszero y then y
              else copysign (fpow (fabs y) vc.dexp) y)) ∧
          sameOutside scrBase n s.mem m)

/-- R154, R156, which the spec derives from R153 and R16: a zero stays a zero; a finite sample with a zero drive
becomes a zero; with exponent `+0.0`, or with a product of magnitude 1.0, the result is 1.0 with the sign of the
product. -/
def Obligations.ZerosAndTheHardClip : Prop :=
  ∀ (s : State) (v : Nat) (vc : Voice) (x : Word),
    holdsVoice s v vc → 1 ≤ s.params.sr → vc.distEn = true → isFinite vc.ddrive = true → readScr s.mem 0 = some x →
    ∃ m y, exec (.dist v 1) s = .next { s with mem := m, last := 0x00#8 } ∧ readScr m 0 = some y ∧
      (iszero x = true → iszero y = true) ∧
      (isFinite x = true → iszero vc.ddrive = true → iszero y = true) ∧
      (isnan (fmul x vc.ddrive) = false → iszero (fmul x vc.ddrive) = false → vc.dexp = fZero →
        y = copysign fOne (fmul x vc.ddrive)) ∧
      (fabs (fmul x vc.ddrive) = fOne → y = copysign fOne (fmul x vc.ddrive))

/-- R155, which the spec derives from R153: the distortion of `-x` is that of `x` with the sign turned over, for every
`x` that is not NaN; where the product is NaN both are the canonical NaN. -/
def Obligations.DistortionIsOdd : Prop :=
  ∀ (s : State) (v : Nat) (vc : Voice) (x : Word) (m : Memory),
    holdsVoice s v vc → 1 ≤ s.params.sr → vc.distEn = true → isnan x = false → readScr s.mem 0 = some x →
    readScr m 0 = some (x ^^^ 0x80000000#32) →
    ∃ t t' y y', exec (.dist v 1) s = .next t ∧ exec (.dist v 1) { s with mem := m } = .next t' ∧
      readScr t.mem 0 = some y ∧ readScr t'.mem 0 = some y' ∧ fabs y' = fabs y ∧
      (isnan y = false → y' = y ^^^ 0x80000000#32)

/-! ### Volume and the voice pipeline (43_voice.md) -/

/-- R160: `VOL` checks in order, then scales `SCR[0 .. n-1]`, or touches nothing when the volume is 1.0, not even
words that hold no value (DEDUCED, log 12). -/
def Obligations.VolScalesTheBuffer : Prop :=
  ∀ (s : State) (v n : Nat),
    (liveVoice s.params.nvoice s.voices v = none → exec (.vol v n) s = .next (refuse .voice s)) ∧
    ∀ vc, holdsVoice s v vc →
      (s.params.sr < n → exec (.vol v n) s = .next (refuse .len s)) ∧
      (n ≤ s.params.sr → feq vc.vol fOne = true → exec (.vol v n) s = .next { s with last := 0x00#8 }) ∧
      (n ≤ s.params.sr → fne vc.vol fOne = true → written s.mem scrBase n →
        ∃ m, exec (.vol v n) s = .next { s with mem := m, last := 0x00#8 } ∧
          (∀ k x, k < n → readScr s.mem k = some x → readScr m k = some (fmul x vc.vol)) ∧
          sameOutside scrBase n s.mem m)

/-- R161 to R165: `PROD` checks in order, then leaves in `SCR[0 .. n-1]` the voice's next samples and in the slot the
voice with its phase moved on: the offset advanced without wrap, or, in Done, frozen and the voice finished. Of a voice
in Decay or Release with `START` above `OFFSET` the spec states no ramp index; the samples and phases then rest on a
free value (DESIGN CHOICE, log 9). -/
def Obligations.ProdProducesTheVoice : Prop :=
  ∀ (s : State) (v n : Nat),
    (liveVoice s.params.nvoice s.voices v = none → exec (.prod v n) s = .next (refuse .voice s)) ∧
    ∀ vc, holdsVoice s v vc →
      (s.params.sr < n → exec (.prod v n) s = .next (refuse .len s)) ∧
      (n ≤ s.params.sr → 2 ^ 32 ≤ vc.offset.toNat + n → exec (.prod v n) s = .next (refuse .offOvf s)) ∧
      (s.params.legal = true → n ≤ s.params.sr → vc.offset.toNat + n < 2 ^ 32 →
        tableWritten s.params vc n vc.offset.toNat s.mem →
        ∀ e vc', e = envTrace vc.offset.toNat vc n →
        vc' = (if e.state = .done then { e with fin := true } else { e with offset := vc.offset + BitVec.ofNat 32 n }) →
        (vc.offset + BitVec.ofNat 32 n).toNat = vc.offset.toNat + n ∧
        ∃ m, exec (.prod v n) s = .next { s with
            mem := m, voices := s.voices.set v vc', rstate := vc'.state.tag, last := 0x00#8 } ∧
          (∀ k y, k < n → readTbl s.mem vc.tsel.toNat (vc.offset.toNat % s.params.sr + k) = some y →
            readScr m k = some (voiceSample vc k y)) ∧
          sameOutside scrBase n s.mem m)

/-- R163, R164, R165: `PROD` does what the unit commands do one after the other: `SCR` zeroed, `OSC` and `ENV` at the
voice's own offset, `DIST` where the voice has one, `VOL`; then the offset or the finished flag. With `START` above
`OFFSET` the unit `ENV` refuses (R133), so there is no such chain to compare with. -/
def Obligations.ProdIsTheChainOfUnits : Prop :=
  ∀ (s s1 s2 s3 s4 : State) (v n : Nat) (vc e : Voice) (m0 : Memory),
    s.params.legal = true → holdsVoice s v vc → n ≤ s.params.sr → vc.offset.toNat + n < 2 ^ 32 →
    (vc.state = .decay ∨ vc.state = .release → vc.start ≤ vc.offset) →
    tableWritten s.params vc n vc.offset.toNat s.mem →
    (∀ k, k < n → readScr m0 k = some fZero) → sameOutside scrBase n s.mem m0 →
    exec (.osc v n) { s with mem := m0, offarg := vc.offset } = .next s1 → exec (.env v n) s1 = .next s2 →
    (if vc.distEn then exec (.dist v n) s2 = .next s3 else s3 = s2) → exec (.vol v n) s3 = .next s4 →
    holdsVoice s4 v e →
    ∃ t, exec (.prod v n) s = .next t ∧ (∀ x, readByte t.mem x = readByte s4.mem x) ∧ t.rstate = s4.rstate ∧
      t.voices = s.voices.set v
        (if e.state = .done then { e with fin := true } else { e with offset := vc.offset + BitVec.ofNat 32 n })

/-- R166, which the spec derives from R137, R154 and R163: `PROD` of a voice already Done leaves zeros. -/
def Obligations.DoneVoiceIsSilent : Prop :=
  ∀ (s : State) (v n : Nat) (vc : Voice),
    s.params.legal = true → holdsVoice s v vc → vc.state = .done → isFinite vc.ddrive = true → isFinite vc.vol = true →
    n ≤ s.params.sr → vc.offset.toNat + n < 2 ^ 32 → tableWritten s.params vc n vc.offset.toNat s.mem →
    ∃ m, exec (.prod v n) s = .next { s with
        mem := m, voices := s.voices.set v { vc with fin := true }, rstate := 3#2, last := 0x00#8 } ∧
      (∀ k, k < n → ∃ y, readScr m k = some y ∧ iszero y = true ∧
        (vc.distEn = false → y = if fne vc.vol fOne then fmul fZero vc.vol else fZero)) ∧
      sameOutside scrBase n s.mem m

/-- R167, which the spec derives from R163 to R165: with a bank periodic in `SR`, `PROD` of `N` and then of `M`
samples gives the samples, the `STATE`, the `START` and the `FIN` of `PROD` of `N + M`; the offset too unless the
envelope reaches Done, when it stays where the call that reached Done began. Without periodicity the same holds of a
split whose second start does not wrap. A ramp index before `START` is a free value, the same in both (log 9). -/
def Obligations.ProdSplits : Prop :=
  ∀ (s : State) (v N M : Nat) (vc : Voice),
    s.params.legal = true → holdsVoice s v vc → N + M ≤ s.params.sr → vc.offset.toNat + (N + M) < 2 ^ 32 →
    tableWritten s.params vc (N + M) vc.offset.toNat s.mem →
    (vc.offset.toNat % s.params.sr + N < s.params.sr ∨ periodicBank s.params s.mem vc.tsel.toNat) →
    ∃ t t1 t2 e e1 e2, exec (.prod v (N + M)) s = .next t ∧ exec (.prod v N) s = .next t1 ∧
      exec (.prod v M) t1 = .next t2 ∧ holdsVoice t v e ∧ holdsVoice t1 v e1 ∧ holdsVoice t2 v e2 ∧
      (∀ k, k < N → readScr t1.mem k = readScr t.mem k) ∧ (∀ k, k < M → readScr t2.mem k = readScr t.mem (N + k)) ∧
      t2.rstate = t.rstate ∧ e2 = { e with offset := e2.offset } ∧
      (e.state ≠ .done → e.offset.toNat = vc.offset.toNat + (N + M) ∧ e2.offset = e.offset) ∧
      (e.state = .done → e.offset = vc.offset ∧
        e2.offset.toNat = if e1.state = .done then vc.offset.toNat else vc.offset.toNat + N)

/-! ### Voice pool and mix (44_mixer.md) -/

/-- R171, R172, R173 with R132 and R151: the whole of `ENQ`: its checks in order, the slot it takes, every field of the
new voice, and nothing else changed. -/
def Obligations.EnqBuildsTheVoice : Prop :=
  ∀ (s : State) (tsel : BitVec 5) (dist : Bool) (inv : Word → Word),
    tsel = s.pCtl.extractLsb' 0 5 → dist = s.pCtl.getLsbD 8 →
    (∀ p, inv p = if iszero p then fInf else fdiv fOne p) →
    exec .enq s =
      if s.pCtl &&& 0xFFFFFEE0#32 ≠ 0#32 then .next (refuse .param s)
      else if s.params.ntable ≤ tsel.toNat ∨ s.sealFlags.getD tsel.toNat false = false then .next (refuse .table s)
      else if ∃ x ∈ [s.pAttack, s.pDecay, s.pSustain, s.pRelease],
          isnan x = true ∨ isinf x = true ∨ fge x fZero = false then .next (refuse .param s)
      else if isnan s.pVolume = true ∨ isinf s.pVolume = true then .next (refuse .param s)
      else if dist = true ∧ (isnan s.pCrunch = true ∨ fgt s.pCrunch fOne = true ∨ isnan s.pDrive = true ∨
          isinf s.pDrive = true ∨ fge s.pDrive fZero = false) then .next (refuse .param s)
      else
        match (List.range s.params.nvoice).find? fun v => (liveVoice s.params.nvoice s.voices v).isNone with
        | none => .next (refuse .full s)
        | some v => .next { s with
            voices := s.voices.set v {
              valid := true, fin := false, distEn := dist, state := .attack, tsel := tsel, offset := 0#32, start := 0#32,
              aslope := inv (fmul s.pAttack (u2f s.params.sr)),
              dslope := inv (fmul (fmul s.pDecay s.pSustain) (u2f s.params.sr)), sush := s.pSustain,
              rslope := inv (fmul (fmul s.pRelease s.pSustain) (u2f s.params.sr)),
              dexp := if dist then fsub fOne (if fgt s.pCrunch fC001 then s.pCrunch else fC001) else fOne,
              ddrive := if dist then s.pDrive else fOne, vol := s.pVolume },
            rslot := BitVec.ofNat 6 v, last := 0x00#8 }

/-- R174 to R178: `FILL` checks, zeroes, counts, renders and adds every valid voice in ascending order, removes the
finished ones and scales by the reciprocal of the count; outside `SCR[0 .. n-1]` and `OUT[0 .. n-1]` no byte changes.
Of a valid voice in Decay or Release with `START` above `OFFSET` the spec states no ramp index; its samples and phases
then rest on a free value (DESIGN CHOICE, log 9). -/
def Obligations.FillMixesTheVoices : Prop :=
  ∀ (s : State) (n cnt : Nat), s.params.legal = true → shaped s →
    cnt = (List.range s.params.nvoice).countP (fun v => (liveVoice s.params.nvoice s.voices v).isSome) →
    (s.params.sr < n → exec (.fill n) s = .next (refuse .len s)) ∧
    (n ≤ s.params.sr → (∃ vc ∈ s.voices, vc.valid = true ∧ 2 ^ 32 ≤ vc.offset.toNat + n) →
      exec (.fill n) s = .next (refuse .offOvf s)) ∧
    (n ≤ s.params.sr → (∀ vc ∈ s.voices, vc.valid = true → vc.offset.toNat + n < 2 ^ 32) →
      (∀ vc ∈ s.voices, vc.valid = true → tableWritten s.params vc n vc.offset.toNat s.mem) →
      ∃ m, exec (.fill n) s = .next { s with
          mem := m, rcount := BitVec.ofNat 7 cnt, last := 0x00#8,
          voices := s.voices.map fun vc =>
            if vc.valid then { producedVoice n vc with valid := !(producedVoice n vc).fin } else vc } ∧
        (∀ k, k < n → readOut m k = some
          (if cnt = 0 then fZero else fmul (mixSum s k s.params.nvoice) (fdiv fOne (u2f cnt)))) ∧
        ∀ x, outsideWords scrBase n x → outsideWords outBase n x → readByte m x = readByte s.mem x)

/-- R179, which the spec derives from R175: with no valid voice `FILL` writes zeros to `OUT[0 .. n-1]`, 0 to
`G.RCOUNT` and `G.LAST`, and nothing else. -/
def Obligations.FillOfNoVoiceIsSilence : Prop :=
  ∀ (s : State) (n : Nat), (∀ vc ∈ s.voices, vc.valid = false) → n ≤ s.params.sr →
    ∃ m, exec (.fill n) s = .next { s with mem := m, rcount := 0#7, last := 0x00#8 } ∧
      (∀ k, k < n → readOut m k = some 0x00000000#32) ∧ sameOutside outBase n s.mem m

/-- R180, which the spec derives from R175 to R178: with exactly one valid voice, `OUT` equals what `PROD` leaves in
`SCR`, bit for bit but that `-0.0` becomes `+0.0` and a NaN the canonical one. A ramp index before `START` is a free
value, the same in both (log 9). -/
def Obligations.FillOfOneVoiceIsTheVoice : Prop :=
  ∀ (s : State) (v n : Nat) (vc : Voice), s.params.legal = true → shaped s → holdsVoice s v vc →
    (∀ u, u < s.params.nvoice → u ≠ v → liveVoice s.params.nvoice s.voices u = none) → n ≤ s.params.sr →
    vc.offset.toNat + n < 2 ^ 32 → tableWritten s.params vc n vc.offset.toNat s.mem →
    ∃ t t', exec (.fill n) s = .next t ∧ exec (.prod v n) s = .next t' ∧
      ∀ k, k < n → ∃ y, readScr t'.mem k = some y ∧ readOut t.mem k = some (fmul (fadd fZero y) fOne) ∧
        (isnan y = false → y ≠ fNegZero → readOut t.mem k = some y) ∧ (y = fNegZero → readOut t.mem k = some fZero)

/-- R181, which the spec derives from R175 to R178: two equal voices give `(+0.0 + y + y) * 0.5`, which is the one
voice's sample `y` unless `2y` overflows (`-0.0` becomes `+0.0`). A ramp index before `START` is a free value, the same
in both (log 9). -/
def Obligations.FillOfTwoEqualVoices : Prop :=
  ∀ (s : State) (u v n : Nat) (vc : Voice), s.params.legal = true → shaped s → u ≠ v → holdsVoice s u vc →
    holdsVoice s v vc →
    (∀ w, w < s.params.nvoice → w ≠ u → w ≠ v → liveVoice s.params.nvoice s.voices w = none) → n ≤ s.params.sr →
    vc.offset.toNat + n < 2 ^ 32 → tableWritten s.params vc n vc.offset.toNat s.mem →
    ∃ t t', exec (.fill n) s = .next t ∧ exec (.prod v n) s = .next t' ∧
      ∀ k, k < n → ∃ y, readScr t'.mem k = some y ∧
        readOut t.mem k = some (fmul (fadd (fadd fZero y) y) 0x3F000000#32) ∧
        (isFinite y = true → isFinite (fadd y y) = true → y ≠ fNegZero → readOut t.mem k = some y) ∧
        (y = fNegZero → readOut t.mem k = some fZero)

/-- R183, R41, which the spec derives from R176: after `FILL`, `SCR[0 .. n-1]` is the buffer `PROD` would leave for
the valid voice with the highest index; with no valid voice `SCR` is unchanged. A ramp index before `START` is a free
value, the same in both (log 9). -/
def Obligations.ScratchAfterFill : Prop :=
  ∀ (s t : State) (n : Nat), s.params.legal = true → shaped s → exec (.fill n) s = .next t → t.last = 0x00#8 →
    (∀ v vc, holdsVoice s v vc →
      (∀ u, v < u → u < s.params.nvoice → liveVoice s.params.nvoice s.voices u = none) →
      ∃ t', exec (.prod v n) s = .next t' ∧ ∀ k, k < n → readScr t.mem k = readScr t'.mem k) ∧
    ((∀ vc ∈ s.voices, vc.valid = false) → ∀ k, k < s.params.sr → readScr t.mem k = readScr s.mem k)

/-! ### Sealing and the bus (45_host_access.md, 20_memory.md) -/

/-- R185: `TSEAL` checks in order, then seals the bank and writes nothing else but `G.LAST`. -/
def Obligations.TsealSealsTheBank : Prop :=
  ∀ (s : State) (b : Nat),
    (s.params.ntable ≤ b → exec (.tseal b) s = .next (refuse .table s)) ∧
    (s.sealFlags.getD b false = true → exec (.tseal b) s = .next (refuse .table s)) ∧
    (b < s.params.ntable → s.sealFlags.getD b false = false →
      exec (.tseal b) s = .next { s with sealFlags := s.sealFlags.set b true, last := 0x00#8 } ∧
      (shaped s → ∀ c, (s.sealFlags.set b true).getD c false = (decide (c = b) || s.sealFlags.getD c false)))

/-- R186, R76, R71 to R75: what `WR addr, data` does, by its target. -/
def Obligations.BusWritesByTarget : Prop :=
  ∀ (s s0 : State) (addr data : Word) (rest : List HostAction),
    s.params.legal = true → s.pending = .write addr data :: rest → s0 = { s with pending := rest, rdata := none } →
    (addr = 0x00#32 → step s = match decode data with
      | .ok i => exec i s0
      | .error _ => .next (refuse .illegal s0)) ∧
    (addr = 0x0B#32 → step s = .next { s0 with offarg := data }) ∧
    (addr = 0x10#32 → step s = .next { s0 with pCtl := data }) ∧
    (addr = 0x11#32 → step s = .next { s0 with pAttack := data }) ∧
    (addr = 0x12#32 → step s = .next { s0 with pDecay := data }) ∧
    (addr = 0x13#32 → step s = .next { s0 with pSustain := data }) ∧
    (addr = 0x14#32 → step s = .next { s0 with pRelease := data }) ∧
    (addr = 0x15#32 → step s = .next { s0 with pVolume := data }) ∧
    (addr = 0x16#32 → step s = .next { s0 with pCrunch := data }) ∧
    (addr = 0x17#32 → step s = .next { s0 with pDrive := data }) ∧
    (∀ k, k < s.params.sr → addr.toNat = 0x00100000 + k →
      ∃ m, step s = .next { s0 with mem := m } ∧ readScr m k = some data ∧ sameOutside (0x00100000 + k) 1 s.mem m) ∧
    (∀ b i, b < s.params.ntable → i < 2 * s.params.sr → addr.toNat = 0x04000000 + b * 0x00200000 + i →
      (s.sealFlags.getD b false = true → step s = .next (refuse .tSealed s0)) ∧
      (s.sealFlags.getD b false = false →
        ∃ m, step s = .next { s0 with mem := m } ∧ readTbl m b i = some data ∧
          sameOutside (0x04000000 + b * 0x00200000 + i) 1 s.mem m)) ∧
    (addr ≠ 0x00#32 → addr ≠ 0x0B#32 → ¬ (0x10#32 ≤ addr ∧ addr ≤ 0x17#32) → ¬ scrWord s.params addr.toNat →
      ¬ tblWord s.params addr.toNat → step s = .next (refuse .addr s0))

/-- R25 to R27, R21 to R23, R187: what `RD` returns for each global register; nothing else changes. -/
def Obligations.ReadsOfGlobalRegisters : Prop :=
  ∀ (s : State) (addr : Word) (rest : List HostAction) (ret : Word → Host.Outcome State Fault Refusal),
    s.params.legal = true → s.pending = .read addr :: rest →
    (∀ w, ret w = .next { s with pending := rest, rdata := some w }) →
    (addr = 0x00#32 → step s = ret 0#32) ∧
    (addr = 0x01#32 → step s = ret (s.err.setWidth 32)) ∧ (addr = 0x02#32 → step s = ret (s.last.setWidth 32)) ∧
    (addr = 0x03#32 → step s = ret (s.rstate.setWidth 32)) ∧ (addr = 0x04#32 → step s = ret (s.rslot.setWidth 32)) ∧
    (addr = 0x05#32 → step s = ret (s.rcount.setWidth 32)) ∧
    (addr = 0x06#32 → step s = ret (BitVec.ofNat 32 ((List.range s.params.nvoice).countP fun v =>
      (liveVoice s.params.nvoice s.voices v).isSome))) ∧
    (addr = 0x07#32 → ∃ w, step s = ret w ∧
      ∀ b, b < 32 → w.getLsbD b = (decide (b < s.params.ntable) && s.sealFlags.getD b false)) ∧
    (addr = 0x08#32 → ∃ w, step s = ret w ∧ w.toNat = s.params.sr) ∧
    (addr = 0x09#32 → ∃ w, step s = ret w ∧ w.toNat = s.params.nvoice) ∧
    (addr = 0x0A#32 → ∃ w, step s = ret w ∧ w.toNat = s.params.ntable) ∧
    (addr = 0x0B#32 → step s = ret s.offarg) ∧ (addr = 0x10#32 → step s = ret s.pCtl) ∧
    (addr = 0x11#32 → step s = ret s.pAttack) ∧ (addr = 0x12#32 → step s = ret s.pDecay) ∧
    (addr = 0x13#32 → step s = ret s.pSustain) ∧ (addr = 0x14#32 → step s = ret s.pRelease) ∧
    (addr = 0x15#32 → step s = ret s.pVolume) ∧ (addr = 0x16#32 → step s = ret s.pCrunch) ∧
    (addr = 0x17#32 → step s = ret s.pDrive)

/-- R28, R29, R72: what `RD` returns for the ten registers of a slot. Of a slot that is not valid only bit 0 of `V_CTL`
has a value; the model gives the other bits of `V_CTL` a free value and stops on the other registers (DESIGN CHOICE,
log 6). -/
def Obligations.ReadsOfVoiceRegisters : Prop :=
  ∀ (s : State) (addr : Word) (rest : List HostAction) (v : Nat) (ret : Word → Host.Outcome State Fault Refusal),
    s.params.legal = true → s.pending = .read addr :: rest → v < s.params.nvoice →
    (∀ w, ret w = .next { s with pending := rest, rdata := some w }) →
    (∀ vc, holdsVoice s v vc →
      (addr.toNat = 0x1000 + 16 * v → ∃ w, step s = ret w ∧
        w.getLsbD 0 = vc.valid ∧ w.getLsbD 1 = vc.fin ∧ w.getLsbD 2 = vc.distEn ∧ w.getLsbD 3 = false ∧
        w.extractLsb' 4 2 = vc.state.tag ∧ w.extractLsb' 6 2 = 0#2 ∧ w.extractLsb' 8 5 = vc.tsel ∧
        w.extractLsb' 13 19 = 0#19) ∧
      (addr.toNat = 0x1000 + 16 * v + 1 → step s = ret vc.offset) ∧
      (addr.toNat = 0x1000 + 16 * v + 2 → step s = ret vc.start) ∧
      (addr.toNat = 0x1000 + 16 * v + 3 → step s = ret vc.aslope) ∧
      (addr.toNat = 0x1000 + 16 * v + 4 → step s = ret vc.dslope) ∧
      (addr.toNat = 0x1000 + 16 * v + 5 → step s = ret vc.sush) ∧
      (addr.toNat = 0x1000 + 16 * v + 6 → step s = ret vc.rslope) ∧
      (addr.toNat = 0x1000 + 16 * v + 7 → step s = ret vc.dexp) ∧
      (addr.toNat = 0x1000 + 16 * v + 8 → step s = ret vc.ddrive) ∧
      (addr.toNat = 0x1000 + 16 * v + 9 → step s = ret vc.vol)) ∧
    (liveVoice s.params.nvoice s.voices v = none →
      (addr.toNat = 0x1000 + 16 * v → ∃ w, w.getLsbD 0 = false ∧
        step s = .next { s with pending := rest, rdata := some w, freeIx := s.freeIx + 1 }) ∧
      (0x1000 + 16 * v < addr.toNat → addr.toNat < 0x1000 + 16 * v + 10 → step s = .fault (.invalidSlotRegister v)))

/-- R187, R76, R73 to R75, 93_implementation_defined.md U4: what `RD` returns for a word of a memory, a stop for a word
nothing has written; an unmapped address is refused with E_ADDR and returns 0. -/
def Obligations.ReadsOfMemoryAndUnmapped : Prop :=
  ∀ (s : State) (addr : Word) (rest : List HostAction), s.params.legal = true → s.pending = .read addr :: rest →
    (inWindow s.params addr.toNat → ∀ w, readWord s.mem addr.toNat = some w →
      step s = .next { s with pending := rest, rdata := some w }) ∧
    (inWindow s.params addr.toNat → readWord s.mem addr.toNat = none →
      step s = .fault (.unwrittenWord addr.toNat)) ∧
    (¬ inWindow s.params addr.toNat → ¬ globalWord addr.toNat → ¬ voiceWord s.params addr.toNat →
      step s = .next { refuse .addr { s with pending := rest } with rdata := some 0#32 })

/-- R62, R63: on a byte-addressed bus four bytes at byte address `4*a` are the access of word address `a`, the lowest
byte holding bits 7:0; any other width or alignment is refused with E_ADDR, a read then returning 0. -/
def Obligations.ByteBusAccesses : Prop :=
  (∀ (m : Memory) (a j : Nat) (w : Word), j < 4 →
    readByte (writeWord m a w) (4 * a + j) = some (w.extractLsb' (8 * j) 8)) ∧
  ∀ (s : State) (ba : BitVec 34) (rest : List HostAction),
    (∀ b0 b1 b2 b3, s.pending = .writeBytes ba [b0, b1, b2, b3] :: rest → ba.toNat % 4 = 0 →
      step s = step { s with pending := .write (ba.extractLsb' 2 32) (b3 ++ b2 ++ b1 ++ b0) :: rest }) ∧
    (∀ data, s.pending = .writeBytes ba data :: rest → data.length ≠ 4 ∨ ba.toNat % 4 ≠ 0 →
      step s = .next (refuse .addr { s with pending := rest, rdata := none })) ∧
    (s.pending = .readBytes ba 4 :: rest → ba.toNat % 4 = 0 →
      step s = step { s with pending := .read (ba.extractLsb' 2 32) :: rest }) ∧
    (∀ width, s.pending = .readBytes ba width :: rest → width ≠ 4 ∨ ba.toNat % 4 ≠ 0 →
      step s = .next { refuse .addr { s with pending := rest } with rdata := some 0#32 })

/-- R64: a read changes no state of the block but, when it is refused, `G.LAST` and `G.ERR`. The pending list, `rdata`
and the count of free values are the model's own (log 2, log 6). -/
def Obligations.ReadsHaveNoSideEffect : Prop :=
  ∀ (s t : State) (a : HostAction) (rest : List HostAction), s.pending = a :: rest →
    (∃ addr, a = .read addr) ∨ (∃ ba width, a = .readBytes ba width) → step s = .next t →
    t = { s with pending := rest, rdata := t.rdata, freeIx := t.freeIx } ∨
      t = { refuse .addr { s with pending := rest } with rdata := some 0#32 }

/-! ### Rules of the whole block -/

/-- R201: every write to `CMD`, on the word port or on a byte-addressed bus, sets `G.LAST`: to E_ILLEGAL for a word that
is no command, to the code of the command's first failing check, and else to 0; every other access leaves it, or sets
it to the code of its refusal, E_ADDR or E_TSEALED. -/
def Obligations.LastReportsTheAccess : Prop :=
  ∀ (s t : State) (a : HostAction) (rest : List HostAction), s.pending = a :: rest → a ≠ .reset → step s = .next t →
    (∀ w, wordToCmd s.params a = some w →
      (illegalWord w → t = refuse .illegal { s with pending := rest, rdata := none }) ∧
      ∀ i, decode w = .ok i →
        (∀ c, firstReason s i = some c → t = refuse c { s with pending := rest, rdata := none }) ∧
        (firstReason s i = none → t.last = 0x00#8 ∧ t.err = s.err)) ∧
    (wordToCmd s.params a = none → (t.last = s.last ∧ t.err = s.err) ∨
      ∃ c, (c = .addr ∨ c = .tSealed) ∧ t = refuse c { s with pending := rest, rdata := t.rdata })

/-- R202: `G.ERR` takes the first refusal's code and then stays until reset; while it is 0 nothing has been refused. -/
def Obligations.ErrIsSticky : Prop :=
  ∀ s t : State, step s = .next t → noReset s →
    (s.err ≠ 0x00#8 → t.err = s.err) ∧
    (s.err = 0x00#8 → t.err = 0x00#8 ∨ (t.err = t.last ∧ t.err ≠ 0x00#8)) ∧
    (t.err = 0x00#8 → s.err = 0x00#8 ∧ (t.last = 0x00#8 ∨ t.last = s.last))

/-- R30, R31: only an executed `ENQ` makes a slot valid, and that slot is the one in `G.RSLOT`; only `FILL` makes a slot
invalid, one whose voice is Done; `FIN` is 0 in a new voice, is set only by `PROD` in Done, and is never cleared. -/
def Obligations.ValidAndFinished : Prop :=
  ∀ (s t : State) (v : Nat), s.params.legal = true → shaped s → step s = .next t → noReset s →
    (∀ vc', liveVoice s.params.nvoice s.voices v = none → holdsVoice t v vc' →
      nextCommand s = some .enq ∧ t.rslot.toNat = v ∧ vc'.fin = false ∧ vc'.state = .attack) ∧
    (∀ vc, holdsVoice s v vc → liveVoice t.params.nvoice t.voices v = none →
      ∃ n, nextCommand s = some (.fill n) ∧ ((producedVoice n vc).state = .done ∨ vc.fin = true)) ∧
    (∀ vc vc', holdsVoice s v vc → holdsVoice t v vc' →
      (vc.fin = true → vc'.fin = true) ∧
      (vc.fin = false → vc'.fin = true → vc'.state = .done ∧ ∃ n, nextCommand s = some (.prod v n)))

/-- R34: the slopes, the sustain height, the distortion, the volume and the bank of a voice never change while its slot
stays valid. -/
def Obligations.VoiceConstantsNeverChange : Prop :=
  ∀ (s t : State) (v : Nat) (vc vc' : Voice), s.params.legal = true → shaped s → step s = .next t → noReset s →
    holdsVoice s v vc → holdsVoice t v vc' →
    vc'.aslope = vc.aslope ∧ vc'.dslope = vc.dslope ∧ vc'.sush = vc.sush ∧ vc'.rslope = vc.rslope ∧
      vc'.dexp = vc.dexp ∧ vc'.ddrive = vc.ddrive ∧ vc'.vol = vc.vol ∧ vc'.tsel = vc.tsel ∧ vc'.distEn = vc.distEn

/-- R37, R66: a sealed bank stays sealed and none of its bytes changes, until reset; only `TSEAL b` seals bank `b`. -/
def Obligations.SealedBanksNeverChange : Prop :=
  ∀ (s t : State) (b : Nat), s.params.legal = true → shaped s → step s = .next t → noReset s →
    b < s.params.ntable →
    (s.sealFlags.getD b false = true → t.sealFlags.getD b false = true ∧
      ∀ x, 4 * tblAddr b 0 ≤ x → x < 4 * (tblAddr b 0 + 2 * s.params.sr) → readByte t.mem x = readByte s.mem x) ∧
    (s.sealFlags.getD b false = false → t.sealFlags.getD b false = true → nextCommand s = some (.tseal b))

/-- R61, R36, R39: which memory each command writes: none a table, only `FILL` the output, `ENQ` and `TSEAL` none, and
a command of length `n` nothing of a buffer beyond its first `n` words. -/
def Obligations.MemoryReachOfCommands : Prop :=
  ∀ (i : Instr) (s t : State), s.params.legal = true → shaped s → exec i s = .next t →
    (∀ x, 4 * tblBase ≤ x → readByte t.mem x = readByte s.mem x) ∧
    ((∀ n, i ≠ .fill n) → ∀ x, 4 * outBase ≤ x → readByte t.mem x = readByte s.mem x) ∧
    (i = .enq ∨ (∃ b, i = .tseal b) → t.mem = s.mem) ∧
    (∀ v n, i = .osc v n ∨ i = .env v n ∨ i = .dist v n ∨ i = .vol v n ∨ i = .prod v n →
      sameOutside scrBase n s.mem t.mem) ∧
    ∀ n, i = .fill n → ∀ x, outsideWords scrBase n x → outsideWords outBase n x → readByte t.mem x = readByte s.mem x

/-- R21, R23, R61: the staging registers reach no command but `ENQ`, and `G.OFFARG` none but `OSC` and `ENV`: changing
what a command does not read changes nothing of what it does. -/
def Obligations.StagingReachesOnlyItsReaders : Prop :=
  ∀ (i : Instr) (s g : State),
    (i ≠ .enq → g.offarg = s.offarg → exec i (withStaging g s) = mapNext (withStaging g) (exec i s)) ∧
    ((∀ v n, i ≠ .osc v n ∧ i ≠ .env v n) → g = { s with offarg := g.offarg } →
      exec i (withStaging g s) = mapNext (withStaging g) (exec i s))

/-- R21, R23, R26, R28, R37: which commands write which registers. -/
def Obligations.WritersOfTheRegisters : Prop :=
  ∀ (i : Instr) (s t : State), exec i s = .next t →
    t = { withStaging s t with
          params := s.params, pending := s.pending, rdata := s.rdata, freeIx := s.freeIx } ∧
    (t.rstate ≠ s.rstate → ∃ v n, i = .env v n ∨ i = .prod v n) ∧ (t.rslot ≠ s.rslot → i = .enq) ∧
    (t.rcount ≠ s.rcount → ∃ n, i = .fill n) ∧ (t.sealFlags ≠ s.sealFlags → ∃ b, i = .tseal b) ∧
    (t.voices ≠ s.voices → i = .enq ∨ (∃ v n, i = .env v n ∨ i = .prod v n) ∨ ∃ n, i = .fill n)

/-- R35, which the spec derives, R204 and the canonical form of memory: every step keeps the invariant of the block. -/
def Obligations.BlockInvariantIsKept : Prop :=
  ∀ s t : State, blockInv s → step s = .next t → blockInv t

/-- R43: the invariant holds after reset, for every legal choice of the parameters. -/
def Obligations.BlockInvariantAtReset : Prop :=
  blockInv State.reset ∧ ∀ p : Params, p.legal = true → blockInv (State.resetWith p)

/-- R35, last sentence, which the spec derives: as long as the unit `ENV` is not used, a voice in Decay or Release
began that phase before its running offset. -/
def Obligations.PhasesBeginBeforeTheOffset : Prop :=
  ∀ s t : State, s.params.legal = true → shaped s → (∀ vc ∈ s.voices, vc.valid = true → contiguous vc) →
    step s = .next t → (∀ v n, nextCommand s ≠ some (.env v n)) → ∀ vc ∈ t.voices, vc.valid = true → contiguous vc

/-- R43, R230: the state after reset, and the reset input, which any state answers with the reset state of the same
instance. The pending list and the count of free values are the model's own and stay (log 13). -/
def Obligations.ResetState : Prop :=
  isResetState { sr := 44100, nvoice := 8, ntable := 8 } State.reset ∧
    ∀ (s : State) (rest : List HostAction), s.pending = .reset :: rest →
      ∃ t, step s = .next t ∧ isResetState s.params t ∧ t.pending = rest ∧ t.freeIx = s.freeIx
end

