-- ==== Sys2Proof/Laws/Memory.lean ====
section
/-! SUPPORT. Laws of bytes, words and the canonical form of memory. -/

namespace Sys2Proof.Machine

theorem readByte_writeByte_same (m : Memory) (x : Nat) (b : Byte) : readByte (writeByte m x b) x = some b := by
  induction m with
  | nil => simp [writeByte, readByte]
  | cons c t ih =>
    obtain ⟨a, c⟩ := c
    unfold writeByte
    split
    · simp [readByte]
    · split
      · simp [readByte]
      · have : a ≠ x := fun h => by simp_all
        simp [readByte, this, ih]

theorem readByte_writeByte_other (m : Memory) {x y : Nat} (b : Byte) (h : y ≠ x) :
    readByte (writeByte m x b) y = readByte m y := by
  have hne : x ≠ y := fun e => h e.symm
  induction m with
  | nil => simp [writeByte, readByte, hne]
  | cons c t ih =>
    obtain ⟨a, c⟩ := c
    unfold writeByte
    split
    · simp [readByte, hne]
    · split
      · rename_i e
        subst e
        simp [readByte, hne]
      · simp [readByte, ih]

theorem risingFrom_writeByte {lo : Nat} {m : Memory} {x : Nat} (b : Byte) (hm : risingFrom lo m = true) (hx : lo ≤ x) :
    risingFrom lo (writeByte m x b) = true := by
  induction m generalizing lo with
  | nil => simp [writeByte, risingFrom, hx]
  | cons c t ih =>
    obtain ⟨a, c⟩ := c
    simp only [risingFrom, Bool.and_eq_true, decide_eq_true_eq] at hm
    unfold writeByte
    split
    · simp only [risingFrom, Bool.and_eq_true, decide_eq_true_eq]
      exact ⟨hx, by omega, hm.2⟩
    · split
      · rename_i e
        subst e
        simp [risingFrom, hm.1, hm.2]
      · simp only [risingFrom, Bool.and_eq_true, decide_eq_true_eq]
        exact ⟨hm.1, ih hm.2 (by omega)⟩

/-- Since an unlisted byte has no value, the canonical form is the order of the addresses. -/
theorem wf_eq_risingFrom (m : Memory) : Memory.wf m = risingFrom 0 m := by
  simp [Memory.wf, unwrittenByte]

theorem wf_nil : Memory.wf [] = true := rfl

theorem wf_writeByte {m : Memory} (x : Nat) (b : Byte) (h : Memory.wf m = true) :
    Memory.wf (writeByte m x b) = true := by
  rw [wf_eq_risingFrom] at h ⊢
  exact risingFrom_writeByte b h (Nat.zero_le x)

theorem wf_writeWord {m : Memory} (a : Nat) (w : Word) (h : Memory.wf m = true) :
    Memory.wf (writeWord m a w) = true :=
  wf_writeByte _ _ (wf_writeByte _ _ (wf_writeByte _ _ (wf_writeByte _ _ h)))

/-- The four bytes of a word give it back. -/
theorem wordOfBytes_byteOf (w : Word) : wordOfBytes (byteOf w 0) (byteOf w 1) (byteOf w 2) (byteOf w 3) = w := by
  apply BitVec.eq_of_getLsbD_eq
  intro i hi
  simp only [wordOfBytes, byteOf, BitVec.getLsbD_append, BitVec.getLsbD_setWidth, BitVec.getLsbD_ushiftRight]
  have e1 : 8 ≤ i → 8 * 1 + (i - 8) = i := by omega
  have e2 : 16 ≤ i → 8 * 2 + (i - (8 + 8)) = i := by omega
  have e3 : 24 ≤ i → 8 * 3 + (i - (8 + (8 + 8))) = i := by omega
  split
  · split
    · split
      · rename_i h
        simp [h]
      · rw [e1 (by omega), decide_eq_true (by omega), Bool.true_and]
    · rw [e2 (by omega), decide_eq_true (by omega), Bool.true_and]
  · rw [e3 (by omega), decide_eq_true (by omega), Bool.true_and]

theorem readByte_writeWord_other (m : Memory) {a x : Nat} (w : Word) (h : x < 4 * a ∨ 4 * a + 4 ≤ x) :
    readByte (writeWord m a w) x = readByte m x := by
  unfold writeWord
  rw [readByte_writeByte_other _ _ (by omega), readByte_writeByte_other _ _ (by omega),
    readByte_writeByte_other _ _ (by omega), readByte_writeByte_other _ _ (by omega)]

theorem readByte_writeWord_mem (m : Memory) (a : Nat) (w : Word) :
    readByte (writeWord m a w) (4 * a) = some (byteOf w 0) ∧ readByte (writeWord m a w) (4 * a + 1) = some (byteOf w
      1) ∧
      readByte (writeWord m a w) (4 * a + 2) = some (byteOf w 2) ∧
      readByte (writeWord m a w) (4 * a + 3) = some (byteOf w 3) := by
  unfold writeWord
  refine ⟨?_, ?_, ?_, readByte_writeByte_same _ _ _⟩
  · rw [readByte_writeByte_other _ _ (by omega), readByte_writeByte_other _ _ (by omega),
      readByte_writeByte_other _ _ (by omega), readByte_writeByte_same]
  · rw [readByte_writeByte_other _ _ (by omega), readByte_writeByte_other _ _ (by omega), readByte_writeByte_same]
  · rw [readByte_writeByte_other _ _ (by omega), readByte_writeByte_same]

/-- Read after write, the same word. -/
theorem readWord_writeWord_same (m : Memory) (a : Nat) (w : Word) : readWord (writeWord m a w) a = some w := by
  obtain ⟨h0, h1, h2, h3⟩ := readByte_writeWord_mem m a w
  simp [readWord, h0, h1, h2, h3, wordOfBytes_byteOf]

/-- Read after write, another word. -/
theorem readWord_writeWord_other (m : Memory) {a a' : Nat} (w : Word) (h : a' ≠ a) :
    readWord (writeWord m a w) a' = readWord m a' := by
  unfold readWord
  rw [readByte_writeWord_other m w (by omega), readByte_writeWord_other m w (by omega),
    readByte_writeWord_other m w (by omega), readByte_writeWord_other m w (by omega)]

/-- A word whose four bytes read alike reads alike. -/
theorem readWord_congr {m m' : Memory} {a : Nat} (h : ∀ x, 4 * a ≤ x → x < 4 * a + 4 → readByte m' x = readByte m x) :
    readWord m' a = readWord m a := by
  unfold readWord
  rw [h _ (by omega) (by omega), h _ (by omega) (by omega), h _ (by omega) (by omega), h _ (by omega) (by omega)]

theorem needWord_eq_ok {m : Memory} {a : Nat} {w : Word} : needWord m a = .ok w ↔ readWord m a = some w := by
  unfold needWord
  cases readWord m a <;> simp

theorem needWord_eq_error {m : Memory} {a : Nat} {e : Fault} :
    needWord m a = .error e ↔ readWord m a = none ∧ e = .unwrittenWord a := by
  unfold needWord
  cases readWord m a <;> simp [eq_comm]

theorem readByte_of_below {lo : Nat} {m : Memory} (h : risingFrom lo m = true) {x : Nat} (hx : x < lo) :
    readByte m x = none := by
  induction m generalizing lo with
  | nil => rfl
  | cons c t ih =>
    obtain ⟨a, c⟩ := c
    simp only [risingFrom, Bool.and_eq_true, decide_eq_true_eq] at h
    have : a ≠ x := by omega
    simp [readByte, this, ih h.2 (by omega)]

theorem eq_of_readByte_from {lo : Nat} {m m' : Memory} (hm : risingFrom lo m = true) (hm' : risingFrom lo m' = true)
    (h : ∀ x, readByte m x = readByte m' x) : m = m' := by
  induction m generalizing lo m' with
  | nil =>
    cases m' with
    | nil => rfl
    | cons c t => have := h c.1; simp [readByte, unwrittenByte] at this
  | cons c t ih =>
    obtain ⟨a, b⟩ := c
    cases m' with
    | nil => have := h a; simp [readByte, unwrittenByte] at this
    | cons c' t' =>
      obtain ⟨a', b'⟩ := c'
      simp only [risingFrom, Bool.and_eq_true, decide_eq_true_eq] at hm hm'
      have haa : a = a' := by
        rcases Nat.lt_trichotomy a a' with hlt | heq | hgt
        · have := h a
          rw [readByte_of_below (lo := a') (m := (a', b') :: t') (by simp [risingFrom, hm'.2]) hlt] at this
          simp [readByte] at this
        · exact heq
        · have := h a'
          rw [readByte_of_below (lo := a) (m := (a, b) :: t) (by simp [risingFrom, hm.2]) hgt] at this
          simp [readByte] at this
      subst haa
      have hb : b = b' := by have := h a; simpa [readByte] using this
      subst hb
      congr 1
      refine ih hm.2 hm'.2 fun x => ?_
      rcases Nat.lt_trichotomy x a with hx | hx | hx
      · rw [readByte_of_below hm.2 (by omega), readByte_of_below hm'.2 (by omega)]
      · subst hx
        rw [readByte_of_below hm.2 (by omega), readByte_of_below hm'.2 (by omega)]
      · have := h x
        have hne : a ≠ x := by omega
        simpa [readByte, hne] using this

/-- Memories in canonical form that read alike at every byte are equal. -/
theorem eq_of_readByte {m m' : Memory} (hm : Memory.wf m = true) (hm' : Memory.wf m' = true)
    (h : ∀ x, readByte m x = readByte m' x) : m = m' := by
  rw [wf_eq_risingFrom] at hm hm'
  exact eq_of_readByte_from hm hm' h

/-- The bytes of a word put together from bytes (20_memory.md R62). -/
theorem byteOf_wordOfBytes (b0 b1 b2 b3 : Byte) : byteOf (wordOfBytes b0 b1 b2 b3) 0 = b0 ∧
    byteOf (wordOfBytes b0 b1 b2 b3) 1 = b1 ∧ byteOf (wordOfBytes b0 b1 b2 b3) 2 = b2 ∧
    byteOf (wordOfBytes b0 b1 b2 b3) 3 = b3 := by
  refine ⟨?_, ?_, ?_, ?_⟩ <;>
  · apply BitVec.eq_of_getLsbD_eq
    intro i hi
    simp only [byteOf, wordOfBytes, BitVec.getLsbD_setWidth, BitVec.getLsbD_ushiftRight, BitVec.getLsbD_append]
    interval_cases i <;> simp

/-- A word that has been written gives its four bytes (20_memory.md R62). -/
theorem readByte_of_readWord {m : Memory} {a : Nat} {w : Word} (h : readWord m a = some w) {j : Nat} (hj : j < 4) :
    readByte m (4 * a + j) = some (byteOf w j) := by
  unfold readWord at h
  split at h
  · rename_i b0 b1 b2 b3 h0 h1 h2 h3
    obtain ⟨e0, e1, e2, e3⟩ := byteOf_wordOfBytes b0 b1 b2 b3
    cases h
    interval_cases j
    · rw [e0]; exact h0
    · rw [e1, h1]
    · rw [e2, h2]
    · rw [e3, h3]
  · cases h

end Sys2Proof.Machine
end

