-- ==== Sys2Proof/Laws/Buffer.lean ====
section
/-! SUPPORT. What the shared loops over a buffer do: `fillWords`, `updateWords`, `forEach`. -/

namespace Sys2Proof.Machine

theorem fillWords_wf (base : Nat) (w : Word) {m : Memory} (k c : Nat) (h : Memory.wf m = true) :
    Memory.wf (fillWords base w k c m) = true := by
  induction c generalizing k m with
  | zero => exact h
  | succ c ih => exact ih (k + 1) (wf_writeWord _ _ h)

theorem fillWords_frame (base : Nat) (w : Word) (m : Memory) (k c : Nat) {x : Nat}
    (h : outsideWords (base + k) c x) : readByte (fillWords base w k c m) x = readByte m x := by
  unfold outsideWords at h
  induction c generalizing k m with
  | zero => rfl
  | succ c ih => rw [fillWords, ih _ (k + 1) (by omega), readByte_writeWord_other _ _ (by omega)]

theorem fillWords_readWord_other (base : Nat) (w : Word) (m : Memory) (k c : Nat) {a : Nat}
    (h : a < base + k ∨ base + k + c ≤ a) : readWord (fillWords base w k c m) a = readWord m a :=
  readWord_congr fun _ _ _ => fillWords_frame base w m k c (by unfold outsideWords; omega)

theorem fillWords_readWord (base : Nat) (w : Word) (m : Memory) (k c : Nat) {j : Nat} (h1 : k ≤ j) (h2 : j < k + c) :
    readWord (fillWords base w k c m) (base + j) = some w := by
  induction c generalizing k m with
  | zero => omega
  | succ c ih =>
    rw [fillWords]
    rcases Nat.eq_or_lt_of_le h1 with rfl | hlt
    · rw [fillWords_readWord_other _ _ _ _ _ (by omega), readWord_writeWord_same]
    · exact ih _ (k + 1) hlt (by omega)

/-- Everything a completed `updateWords` does. -/
theorem updateWords_ok {base : Nat} {f : Nat → Word → Except Fault Word} {k c : Nat} {m m' : Memory}
    (h : updateWords base f k c m = .ok m') :
    (∀ j, k ≤ j → j < k + c → ∃ x y, readWord m (base + j) = some x ∧ f j x = .ok y ∧
        readWord m' (base + j) = some y) ∧
      (∀ x, outsideWords (base + k) c x → readByte m' x = readByte m x) ∧
      (Memory.wf m = true → Memory.wf m' = true) := by
  unfold outsideWords
  induction c generalizing k m with
  | zero =>
    simp only [updateWords, Except.ok.injEq] at h
    subst h
    exact ⟨fun j _ _ => by omega, fun _ _ => rfl, id⟩
  | succ c ih =>
    unfold updateWords at h
    split at h
    · cases h
    · rename_i x hx
      split at h
      · cases h
      · rename_i y hy
        rw [needWord_eq_ok] at hx
        obtain ⟨h1, h2, h3⟩ := ih h
        refine ⟨fun j hj hj' => ?_, fun a ha => ?_, fun hw => h3 (wf_writeWord _ _ hw)⟩
        · rcases Nat.eq_or_lt_of_le hj with rfl | hlt
          · refine ⟨x, y, hx, hy, ?_⟩
            rw [readWord_congr (m := writeWord m (base + k) y) fun a ha ha' => h2 a (by omega), readWord_writeWord_same]
          · obtain ⟨x', y', e1, e2, e3⟩ := h1 j hlt (by omega)
            exact ⟨x', y', by rwa [readWord_writeWord_other _ _ (by omega)] at e1, e2, e3⟩
        · rw [h2 a (by omega), readByte_writeWord_other _ _ (by omega)]

/-- `updateWords` completes when every word it needs has a value and every new value exists. -/
theorem updateWords_completes {base : Nat} {f : Nat → Word → Except Fault Word} (k c : Nat) (m : Memory)
    (h : ∀ j, k ≤ j → j < k + c → ∃ x y, readWord m (base + j) = some x ∧ f j x = .ok y) :
    ∃ m', updateWords base f k c m = .ok m' := by
  induction c generalizing k m with
  | zero => exact ⟨m, rfl⟩
  | succ c ih =>
    obtain ⟨x, y, hx, hy⟩ := h k (Nat.le_refl k) (by omega)
    obtain ⟨m', hm'⟩ := ih (k + 1) (writeWord m (base + k) y) fun j hj hj' => by
      obtain ⟨x', y', e1, e2⟩ := h j (by omega) (by omega)
      exact ⟨x', y', by rwa [readWord_writeWord_other _ _ (by omega)], e2⟩
    exact ⟨m', by simp [updateWords, needWord_eq_ok.2 hx, hy, hm']⟩

/-- The induction over `forEach`, once: what holds before and is kept by each completed round holds after. -/
theorem forEach_induct {α : Type} {body : Nat → α → Except Fault α} (P : Nat → α → Prop) {v c : Nat} {a a' : α}
    (h : forEach body v c a = .ok a') (h0 : P v a)
    (hstep : ∀ i b b', v ≤ i → i < v + c → P i b → body i b = .ok b' → P (i + 1) b') : P (v + c) a' := by
  induction c generalizing v a with
  | zero =>
    simp only [forEach, Except.ok.injEq] at h
    exact h ▸ h0
  | succ c ih =>
    unfold forEach at h
    split at h
    · cases h
    · rename_i b hb
      have := ih h (hstep v a b (Nat.le_refl v) (by omega) h0 hb)
        fun i x x' hi hi' => hstep i x x' (by omega) (by omega)
      rwa [show v + (c + 1) = v + 1 + c by omega]

/-- `forEach` completes when each round does, from every state the rounds before can reach. -/
theorem forEach_completes {α : Type} {body : Nat → α → Except Fault α} (P : Nat → α → Prop) (v c : Nat) (a : α)
    (h0 : P v a) (hstep : ∀ i b, v ≤ i → i < v + c → P i b → ∃ b', body i b = .ok b' ∧ P (i + 1) b') :
    ∃ a', forEach body v c a = .ok a' ∧ P (v + c) a' := by
  induction c generalizing v a with
  | zero => exact ⟨a, rfl, h0⟩
  | succ c ih =>
    obtain ⟨b, hb, hP⟩ := hstep v a (Nat.le_refl v) (by omega) h0
    obtain ⟨a', e, hP'⟩ := ih (v + 1) b hP fun i x hi hi' => hstep i x (by omega) (by omega)
    exact ⟨a', by simp [forEach, hb, e], by rwa [show v + (c + 1) = v + 1 + c by omega]⟩

end Sys2Proof.Machine
end

