-- ==== Sys2Proof/Laws/Envelope.lean ====
section
/-! SUPPORT. What one envelope sample and the loop of `EnvApply` do (41_envelope.md R134 to R139). -/

namespace Sys2Proof.Machine

/-- One sample changes `STATE` and `START` only. -/
theorem envAdvance_fields (vc : Voice) (i : Nat) :
    ∃ ph st, envAdvance vc i = { vc with state := ph, start := st } := by
  unfold envAdvance
  split <;> (try split) <;> (try split) <;> exact ⟨_, _, rfl⟩

/-- Everything the per-sample transition can do (41_envelope.md R134 to R138). -/
theorem envAdvance_cases (vc : Voice) (i : Nat) :
    envAdvance vc i = vc ∨
      (vc.state = .attack ∧ fge (attackGain vc i) fOne = true ∧ iszero vc.sush = true ∧
        envAdvance vc i = { vc with state := .done }) ∨
      (vc.state = .attack ∧ fge (attackGain vc i) fOne = true ∧ iszero vc.sush = false ∧
        envAdvance vc i = { vc with state := .decay, start := BitVec.ofNat 32 i }) ∨
      (vc.state = .decay ∧ fle (decayGain vc i) vc.sush = true ∧
        envAdvance vc i = { vc with state := .release, start := BitVec.ofNat 32 i }) ∨
      (vc.state = .release ∧ fle (releaseGain vc i) fZero = true ∧ envAdvance vc i = { vc with state := .done }) := by
  unfold envAdvance
  cases h : vc.state <;> simp only
  · by_cases h1 : fge (attackGain vc i) fOne <;> by_cases h2 : iszero vc.sush <;> simp [h1, h2]
  · by_cases h1 : fle (decayGain vc i) vc.sush <;> simp [h1]
  · by_cases h1 : fle (releaseGain vc i) fZero <;> simp [h1]
  · exact .inl trivial

theorem envTrace_fields (off : Nat) (vc : Voice) (k : Nat) :
    ∃ ph st, envTrace off vc k = { vc with state := ph, start := st } := by
  induction k with
  | zero => exact ⟨_, _, rfl⟩
  | succ k ih =>
    obtain ⟨ph, st, h⟩ := ih
    obtain ⟨ph', st', h'⟩ := envAdvance_fields (envTrace off vc k) (off + k)
    exact ⟨ph', st', by rw [envTrace, h', h]⟩

@[simp] theorem envTrace_valid (off : Nat) (vc : Voice) (k : Nat) : (envTrace off vc k).valid = vc.valid := by
  obtain ⟨_, _, h⟩ := envTrace_fields off vc k; rw [h]
@[simp] theorem envTrace_fin (off : Nat) (vc : Voice) (k : Nat) : (envTrace off vc k).fin = vc.fin := by
  obtain ⟨_, _, h⟩ := envTrace_fields off vc k; rw [h]
@[simp] theorem envTrace_distEn (off : Nat) (vc : Voice) (k : Nat) : (envTrace off vc k).distEn = vc.distEn := by
  obtain ⟨_, _, h⟩ := envTrace_fields off vc k; rw [h]
@[simp] theorem envTrace_tsel (off : Nat) (vc : Voice) (k : Nat) : (envTrace off vc k).tsel = vc.tsel := by
  obtain ⟨_, _, h⟩ := envTrace_fields off vc k; rw [h]
@[simp] theorem envTrace_offset (off : Nat) (vc : Voice) (k : Nat) : (envTrace off vc k).offset = vc.offset := by
  obtain ⟨_, _, h⟩ := envTrace_fields off vc k; rw [h]
@[simp] theorem envTrace_aslope (off : Nat) (vc : Voice) (k : Nat) : (envTrace off vc k).aslope = vc.aslope := by
  obtain ⟨_, _, h⟩ := envTrace_fields off vc k; rw [h]
@[simp] theorem envTrace_dslope (off : Nat) (vc : Voice) (k : Nat) : (envTrace off vc k).dslope = vc.dslope := by
  obtain ⟨_, _, h⟩ := envTrace_fields off vc k; rw [h]
@[simp] theorem envTrace_sush (off : Nat) (vc : Voice) (k : Nat) : (envTrace off vc k).sush = vc.sush := by
  obtain ⟨_, _, h⟩ := envTrace_fields off vc k; rw [h]
@[simp] theorem envTrace_rslope (off : Nat) (vc : Voice) (k : Nat) : (envTrace off vc k).rslope = vc.rslope := by
  obtain ⟨_, _, h⟩ := envTrace_fields off vc k; rw [h]
@[simp] theorem envTrace_dexp (off : Nat) (vc : Voice) (k : Nat) : (envTrace off vc k).dexp = vc.dexp := by
  obtain ⟨_, _, h⟩ := envTrace_fields off vc k; rw [h]
@[simp] theorem envTrace_ddrive (off : Nat) (vc : Voice) (k : Nat) : (envTrace off vc k).ddrive = vc.ddrive := by
  obtain ⟨_, _, h⟩ := envTrace_fields off vc k; rw [h]
@[simp] theorem envTrace_vol (off : Nat) (vc : Voice) (k : Nat) : (envTrace off vc k).vol = vc.vol := by
  obtain ⟨_, _, h⟩ := envTrace_fields off vc k; rw [h]

/-- The phases along a buffer taken in two parts. -/
theorem envTrace_split (off : Nat) (vc : Voice) (n k : Nat) :
    envTrace off vc (n + k) = envTrace (off + n) (envTrace off vc n) k := by
  induction k with
  | zero => rfl
  | succ k ih => rw [← Nat.add_assoc, envTrace, ih, envTrace, Nat.add_assoc]

theorem envTrace_head (off : Nat) (vc : Voice) (k : Nat) :
    envTrace off vc (k + 1) = envTrace (off + 1) (envAdvance vc off) k := by
  rw [Nat.add_comm k 1, envTrace_split]
  rfl

/-- Done is terminal (41_envelope.md R137). -/
theorem envTrace_done (off : Nat) {vc : Voice} (h : vc.state = .done) (k : Nat) : envTrace off vc k = vc := by
  induction k with
  | zero => rfl
  | succ k ih => rw [envTrace, ih, envAdvance, h]

theorem envOutput_done {vc : Voice} (h : vc.state = .done) (i : Nat) (x : Word) : envOutput vc i x = fZero := by
  rw [envOutput, h]

theorem envSample_done {vc : Voice} (h : vc.state = .done) (i : Nat) (m : Memory) (k : Nat) :
    envSample vc i m k = .ok fZero := by
  rw [envSample, h]

theorem envSample_of_read {vc : Voice} {i : Nat} {m : Memory} {k : Nat} {x : Word}
    (h : readWord m (scrBase + k) = some x) : envSample vc i m k = .ok (envOutput vc i x) := by
  cases hs : vc.state <;> simp [envSample, envOutput, hs, needWord_eq_ok.2 h]

/-- A completed sample is the output of the input sample, or, in Done, `+0.0` whatever the input. -/
theorem envSample_ok {vc : Voice} {i : Nat} {m : Memory} {k : Nat} {y : Word} (h : envSample vc i m k = .ok y) :
    (vc.state = .done ∧ y = fZero) ∨ ∃ x, readWord m (scrBase + k) = some x ∧ y = envOutput vc i x := by
  cases hr : readWord m (scrBase + k) with
  | some x => exact .inr ⟨x, rfl, by rw [envSample_of_read hr] at h; exact (Except.ok.inj h).symm⟩
  | none =>
    have he := needWord_eq_error.2 ⟨hr, rfl⟩
    cases hs : vc.state <;> simp [envSample, hs, he] at h ⊢
    exact h.symm

theorem envSample_congr {vc : Voice} {i : Nat} {m m' : Memory} {k : Nat}
    (h : readWord m' (scrBase + k) = readWord m (scrBase + k)) : envSample vc i m' k = envSample vc i m k := by
  unfold envSample needWord
  rw [h]

/-- Everything a completed `EnvApply` does, the loop from sample `k` on. -/
theorem envApply_ok {off k c : Nat} {vc vc' : Voice} {m m' : Memory} (h : envApply off k c vc m = .ok (vc', m')) :
    vc' = envTrace (off + k) vc c ∧
      (∀ j, j < c → ∃ y, envSample (envTrace (off + k) vc j) (off + k + j) m (k + j) = .ok y ∧
        readWord m' (scrBase + (k + j)) = some y) ∧
      sameOutside (scrBase + k) c m m' ∧ (Memory.wf m = true → Memory.wf m' = true) := by
  unfold sameOutside outsideWords
  induction c generalizing k vc m with
  | zero =>
    simp only [envApply, Except.ok.injEq, Prod.mk.injEq] at h
    obtain ⟨rfl, rfl⟩ := h
    exact ⟨rfl, fun j hj => by omega, fun _ _ => rfl, id⟩
  | succ c ih =>
    unfold envApply at h
    split at h
    · cases h
    · rename_i y hy
      obtain ⟨h1, h2, h3, h4⟩ := ih h
      refine ⟨?_, fun j hj => ?_, fun a ha => ?_, fun hw => h4 (wf_writeWord _ _ hw)⟩
      · rw [h1, envTrace_head, Nat.add_assoc]
      · cases j with
        | zero =>
          refine ⟨y, hy, ?_⟩
          rw [readWord_congr (m := writeWord m (scrBase + k) y) fun a ha ha' => h3 a (by omega)]
          exact readWord_writeWord_same _ _ _
        | succ j =>
          obtain ⟨y', e1, e2⟩ := h2 j (by omega)
          refine ⟨y', ?_, by rwa [show k + (j + 1) = k + 1 + j by omega]⟩
          rw [envSample_congr (readWord_writeWord_other _ _ (by omega))] at e1
          rw [envTrace_head]
          rwa [show k + (j + 1) = k + 1 + j by omega, show off + k + (j + 1) = off + (k + 1) + j by omega,
            show off + k + 1 = off + (k + 1) by omega]
      · rw [h3 a (by omega), readByte_writeWord_other _ _ (by omega)]

/-- `EnvApply` completes when every sample it needs has a value. -/
theorem envApply_completes (off k c : Nat) (vc : Voice) (m : Memory)
    (h : ∀ j, j < c → (envTrace (off + k) vc j).state = .done ∨ ∃ x, readWord m (scrBase + (k + j)) = some x) :
    ∃ r, envApply off k c vc m = .ok r := by
  induction c generalizing k vc m with
  | zero => exact ⟨_, rfl⟩
  | succ c ih =>
    have hy : ∃ y, envSample vc (off + k) m k = .ok y := by
      rcases h 0 (by omega) with hd | ⟨x, hx⟩
      · exact ⟨_, envSample_done hd _ _ _⟩
      · exact ⟨_, envSample_of_read hx⟩
    obtain ⟨y, hy⟩ := hy
    obtain ⟨r, hr⟩ := ih (k + 1) (envAdvance vc (off + k)) (writeWord m (scrBase + k) y) fun j hj => by
      rcases h (j + 1) (by omega) with hd | ⟨x, hx⟩
      · rw [envTrace_head] at hd
        exact .inl hd
      · refine .inr ⟨x, ?_⟩
        rwa [readWord_writeWord_other _ _ (by omega), show k + 1 + j = k + (j + 1) by omega]
    exact ⟨r, by simp [envApply, hy, hr]⟩

end Sys2Proof.Machine
end

