-- ==== Sys2Proof/Laws/Pipeline.lean ====
section
/-! SUPPORT. What the oscillator, the distortion, the volume and `Produce` do (40_oscillator.md R121, 42_distortion.md
R153, 43_voice.md R160, R163 to R165). -/

namespace Sys2Proof.Machine

theorem tblBase_le_tblAddr (b i : Nat) : tblBase ≤ tblAddr b i := by
  unfold tblAddr
  omega

/-- Writes to `SCR[0 .. n-1]` leave every table entry alone. -/
theorem readTbl_of_sameOutside {lo n : Nat} {m m' : Memory} (h : sameOutside lo n m m') (hn : lo + n ≤ tblBase)
    (b i : Nat) : readTbl m' b i = readTbl m b i := by
  have := tblBase_le_tblAddr b i
  exact readWord_congr fun x hx _ => h x (by unfold outsideWords; omega)

theorem sameOutside_refl (lo n : Nat) (m : Memory) : sameOutside lo n m m := fun _ _ => rfl

theorem sameOutside_trans {lo n : Nat} {m m' m'' : Memory} (h : sameOutside lo n m m') (h' : sameOutside lo n m' m'') :
    sameOutside lo n m m'' := fun x hx => by rw [h' x hx, h x hx]

/-- Everything a completed `OscRender` does (40_oscillator.md R121). -/
theorem oscRender_ok {p : Params} {vc : Voice} {n off : Nat} {m m' : Memory} (h : oscRender p vc n off m = .ok m') :
    (∀ k, k < n → ∃ x t, readScr m k = some x ∧ readTbl m vc.tsel.toNat (oscStart p off + k) = some t ∧
        readScr m' k = some (fadd x t)) ∧
      sameOutside scrBase n m m' ∧ (Memory.wf m = true → Memory.wf m' = true) := by
  obtain ⟨h1, h2, h3⟩ := updateWords_ok h
  refine ⟨fun k hk => ?_, h2, h3⟩
  obtain ⟨x, y, e1, e2, e3⟩ := h1 k (Nat.zero_le k) (by omega)
  split at e2
  · cases e2
  · rename_i t ht
    cases e2
    exact ⟨x, t, e1, needWord_eq_ok.1 ht, e3⟩

theorem oscRender_completes {p : Params} {vc : Voice} {n off : Nat} {m : Memory} (hs : written m scrBase n)
    (ht : tableWritten p vc n off m) : ∃ m', oscRender p vc n off m = .ok m' := by
  refine updateWords_completes _ _ _ fun j _ hj => ?_
  obtain ⟨x, hx⟩ := Option.isSome_iff_exists.1 (hs j (by omega))
  obtain ⟨t, ht⟩ := Option.isSome_iff_exists.1 (ht j (by omega))
  exact ⟨x, fadd x t, hx, by simp only [needWord_eq_ok.2 ht]⟩

/-- Everything a completed loop `SCR[k] <- g SCR[k]` does. -/
theorem mapScr_ok {g : Word → Word} {n : Nat} {m m' : Memory}
    (h : updateWords scrBase (fun _ x => .ok (g x)) 0 n m = .ok m') :
    (∀ k, k < n → ∃ x, readScr m k = some x ∧ readScr m' k = some (g x)) ∧
      sameOutside scrBase n m m' ∧ (Memory.wf m = true → Memory.wf m' = true) := by
  obtain ⟨h1, h2, h3⟩ := updateWords_ok h
  refine ⟨fun k hk => ?_, h2, h3⟩
  obtain ⟨x, y, e1, e2, e3⟩ := h1 k (Nat.zero_le k) (by omega)
  cases e2
  exact ⟨x, e1, e3⟩

theorem mapScr_completes (g : Word → Word) {n : Nat} {m : Memory} (hs : written m scrBase n) :
    ∃ m', updateWords scrBase (fun _ x => .ok (g x)) 0 n m = .ok m' := by
  refine updateWords_completes _ _ _ fun j _ hj => ?_
  obtain ⟨x, hx⟩ := Option.isSome_iff_exists.1 (hs j (by omega))
  exact ⟨x, g x, hx, rfl⟩

/-- The volume step for one sample (43_voice.md R160). -/
def volSample (vc : Voice) (x : Word) : Word := if fne vc.vol fOne then fmul x vc.vol else x

/-- The distortion step for one sample (43_voice.md R163 step 3). -/
def distStepSample (vc : Voice) (x : Word) : Word := if vc.distEn then distSample vc x else x

theorem shapeSample_eq (vc : Voice) (y : Word) : shapeSample vc y = volSample vc (distStepSample vc y) := rfl

/-- Everything a completed `VolApply` does on words that are written (43_voice.md R160). -/
theorem volApply_ok {vc : Voice} {n : Nat} {m m' : Memory} (h : volApply vc n m = .ok m') :
    (∀ k x, k < n → readScr m k = some x → readScr m' k = some (volSample vc x)) ∧
      sameOutside scrBase n m m' ∧ (Memory.wf m = true → Memory.wf m' = true) := by
  unfold volApply at h
  unfold volSample
  split at h
  · rename_i hv
    obtain ⟨h1, h2, h3⟩ := mapScr_ok h
    refine ⟨fun k x hk hx => ?_, h2, h3⟩
    obtain ⟨x', e1, e2⟩ := h1 k hk
    rw [e1] at hx
    cases hx
    rw [e2, if_pos hv]
  · rename_i hv
    cases h
    exact ⟨fun k x _ hx => by rw [if_neg hv, hx], sameOutside_refl _ _ _, id⟩

theorem volApply_completes (vc : Voice) {n : Nat} {m : Memory} (hs : written m scrBase n) :
    ∃ m', volApply vc n m = .ok m' := by
  unfold volApply
  split
  · exact mapScr_completes _ hs
  · exact ⟨m, rfl⟩

/-- Everything a completed distortion step does on words that are written (43_voice.md R163 step 3). -/
theorem distStep_ok {vc : Voice} {n : Nat} {m m' : Memory} (h : distStep vc n m = .ok m') :
    (∀ k x, k < n → readScr m k = some x → readScr m' k = some (distStepSample vc x)) ∧
      sameOutside scrBase n m m' ∧ (Memory.wf m = true → Memory.wf m' = true) := by
  unfold distStep at h
  unfold distStepSample
  split at h
  · rename_i hv
    obtain ⟨h1, h2, h3⟩ := mapScr_ok h
    refine ⟨fun k x hk hx => ?_, h2, h3⟩
    obtain ⟨x', e1, e2⟩ := h1 k hk
    rw [e1] at hx
    cases hx
    rw [e2, if_pos hv]
  · rename_i hv
    cases h
    exact ⟨fun k x _ hx => by rw [if_neg hv, hx], sameOutside_refl _ _ _, id⟩

theorem distStep_completes (vc : Voice) {n : Nat} {m : Memory} (hs : written m scrBase n) :
    ∃ m', distStep vc n m = .ok m' := by
  unfold distStep
  split
  · exact mapScr_completes _ hs
  · exact ⟨m, rfl⟩

theorem volSample_envTrace (off : Nat) (vc : Voice) (k : Nat) (x : Word) :
    volSample (envTrace off vc k) x = volSample vc x := by simp [volSample]

theorem distStepSample_envTrace (off : Nat) (vc : Voice) (k : Nat) (x : Word) :
    distStepSample (envTrace off vc k) x = distStepSample vc x := by simp [distStepSample, distSample]

/-- Everything a completed `Produce` does (43_voice.md R163 to R165). -/
theorem produce_ok {p : Params} {n : Nat} {vc vc' : Voice} {m m' : Memory} (h : produce p n vc m = .ok (vc', m'))
    (hn : scrBase + n ≤ tblBase) :
    vc' = producedVoice n vc ∧
      (∀ k, k < n → ∃ t, readTbl m vc.tsel.toNat (oscStart p vc.offset.toNat + k) = some t ∧
        readScr m' k = some (voiceSample vc k t)) ∧
      sameOutside scrBase n m m' ∧ (Memory.wf m = true → Memory.wf m' = true) := by
  unfold produce at h
  split at h
  · cases h
  rename_i m1 h1
  split at h
  · cases h
  rename_i vc2 m2 h2
  split at h
  · cases h
  rename_i m3 h3
  split at h
  · cases h
  rename_i m4 h4
  simp only [Except.ok.injEq, Prod.mk.injEq] at h
  obtain ⟨rfl, rfl⟩ := h
  obtain ⟨o1, o2, o3⟩ := oscRender_ok h1
  obtain ⟨e1, e2, e3, e4⟩ := envApply_ok h2
  obtain ⟨d1, d2, d3⟩ := distStep_ok h3
  obtain ⟨v1, v2, v3⟩ := volApply_ok h4
  simp only [Nat.add_zero, Nat.zero_add] at e1 e2 e3
  have z : sameOutside scrBase n m (fillWords scrBase fZero 0 n m) :=
    fun x hx => fillWords_frame scrBase fZero m 0 n (by simpa using hx)
  subst e1
  refine ⟨rfl, fun k hk => ?_, ?_, fun hw => v3 (d3 (e4 (o3 (fillWords_wf _ _ _ _ hw))))⟩
  · obtain ⟨x, t, ox, ot, oy⟩ := o1 k hk
    rw [readTbl_of_sameOutside z hn] at ot
    refine ⟨t, ot, ?_⟩
    have hx : x = fZero := by
      have := fillWords_readWord scrBase fZero m 0 n (Nat.zero_le k) (by omega : k < 0 + n)
      rw [readScr] at ox
      rw [this] at ox
      exact (Option.some.inj ox).symm
    subst hx
    obtain ⟨y, ey, er⟩ := e2 k hk
    have hy : y = envOutput (envTrace vc.offset.toNat vc k) (vc.offset.toNat + k) (fadd fZero t) := by
      rcases envSample_ok ey with ⟨hd, rfl⟩ | ⟨x', hx', rfl⟩
      · rw [envOutput_done hd]
      · rw [readScr] at oy
        rw [oy] at hx'
        rw [Option.some.inj hx']
    have := v1 k _ hk (d1 k y hk er)
    rw [this, hy, volSample_envTrace, distStepSample_envTrace]
    rfl
  · exact sameOutside_trans z (sameOutside_trans o2 (sameOutside_trans e3 (sameOutside_trans d2 v2)))

/-- `Produce` completes when the table entries it reads are written (43_voice.md R163, 60_exceptions.md R206). -/
theorem produce_completes {p : Params} {n : Nat} {vc : Voice} {m : Memory} (hn : scrBase + n ≤ tblBase)
    (ht : tableWritten p vc n vc.offset.toNat m) : ∃ r, produce p n vc m = .ok r := by
  have z : sameOutside scrBase n m (fillWords scrBase fZero 0 n m) :=
    fun x hx => fillWords_frame scrBase fZero m 0 n (by simpa using hx)
  have hz : written (fillWords scrBase fZero 0 n m) scrBase n :=
    fun k hk => by rw [fillWords_readWord scrBase fZero m 0 n (Nat.zero_le k) (by omega)]; rfl
  obtain ⟨m1, h1⟩ := oscRender_completes hz fun k hk => by rw [readTbl_of_sameOutside z hn]; exact ht k hk
  have w1 : written m1 scrBase n := fun k hk => by
    obtain ⟨x, t, _, _, e⟩ := (oscRender_ok h1).1 k hk
    exact Option.isSome_iff_exists.2 ⟨_, e⟩
  obtain ⟨⟨vc2, m2⟩, h2⟩ := envApply_completes vc.offset.toNat 0 n vc m1 fun j hj =>
    .inr (Option.isSome_iff_exists.1 (by simpa using w1 j hj))
  have w2 : written m2 scrBase n := fun k hk => by
    obtain ⟨y, _, e⟩ := (envApply_ok h2).2.1 k hk
    exact Option.isSome_iff_exists.2 ⟨y, by simpa using e⟩
  obtain ⟨m3, h3⟩ := distStep_completes vc2 w2
  have w3 : written m3 scrBase n := fun k hk => by
    obtain ⟨x, hx⟩ := Option.isSome_iff_exists.1 (w2 k hk)
    exact Option.isSome_iff_exists.2 ⟨_, (distStep_ok h3).1 k x hk hx⟩
  obtain ⟨m4, h4⟩ := volApply_completes vc2 w3
  exact ⟨(finishProduce n vc2, m4), by simp [produce, h1, h2, h3, h4]⟩

end Sys2Proof.Machine
end

