-- ==== Sys2Proof/Laws/Mixer.lean ====
section
/-! SUPPORT. What ENQ's allocation and FILL's steps do (44_mixer.md R173 to R178). -/

namespace Sys2Proof.Machine

theorem liveVoice_eq_some {nv : Nat} {vs : List Voice} {v : Nat} {vc : Voice} :
    liveVoice nv vs v = some vc ↔ v < nv ∧ vs[v]? = some vc ∧ vc.valid = true := by
  unfold liveVoice
  split
  · rename_i h
    split
    · rename_i x hx
      split
      · rename_i hv
        constructor
        · rintro ⟨⟩
          exact ⟨h, hx, hv⟩
        · rintro ⟨_, h2, _⟩
          rw [hx] at h2
          exact h2
      · rename_i hv
        constructor
        · intro h'
          cases h'
        · rintro ⟨_, h2, h3⟩
          rw [hx] at h2
          cases h2
          exact absurd h3 hv
    · rename_i hx
      simp [hx]
  · rename_i h
    simp [h]

theorem liveVoice_congr {nv : Nat} {vs vs' : List Voice} {v : Nat} (h : vs'[v]? = vs[v]?) :
    liveVoice nv vs' v = liveVoice nv vs v := by
  unfold liveVoice
  rw [h]

theorem liveVoice_set_other {nv : Nat} {vs : List Voice} {v w : Nat} (vc : Voice) (h : w ≠ v) :
    liveVoice nv (vs.set v vc) w = liveVoice nv vs w :=
  liveVoice_congr (by rw [List.getElem?_set_ne (Ne.symm h)])

theorem getElem?_set_of_live {nv : Nat} {vs : List Voice} {v : Nat} {vc : Voice} (h : liveVoice nv vs v = some vc)
    (vc' : Voice) : (vs.set v vc')[v]? = some vc' := by
  obtain ⟨_, h2, _⟩ := liveVoice_eq_some.1 h
  rw [List.getElem?_set_self (by
    have := List.getElem?_eq_some_iff.1 h2
    exact this.1)]

theorem liveVoice_set_self {nv : Nat} {vs : List Voice} {v : Nat} {vc : Voice} (h : liveVoice nv vs v = some vc)
    {vc' : Voice} (hv : vc'.valid = true) : liveVoice nv (vs.set v vc') v = some vc' :=
  liveVoice_eq_some.2 ⟨(liveVoice_eq_some.1 h).1, getElem?_set_of_live h vc', hv⟩

theorem producedVoice_valid (n : Nat) (vc : Voice) : (producedVoice n vc).valid = vc.valid := by
  unfold producedVoice finishProduce
  split <;> simp

/-- Everything a completed `addToOut` does (44_mixer.md R176). -/
theorem addToOut_ok {n : Nat} {m m' : Memory} (h : addToOut n m = .ok m') :
    (∀ k, k < n → ∃ x y, readOut m k = some x ∧ readScr m k = some y ∧ readOut m' k = some (fadd x y)) ∧
      sameOutside outBase n m m' ∧ (Memory.wf m = true → Memory.wf m' = true) := by
  obtain ⟨h1, h2, h3⟩ := updateWords_ok h
  refine ⟨fun k hk => ?_, h2, h3⟩
  obtain ⟨x, y, e1, e2, e3⟩ := h1 k (Nat.zero_le k) (by omega)
  split at e2
  · cases e2
  · rename_i t ht
    cases e2
    exact ⟨x, t, e1, needWord_eq_ok.1 ht, e3⟩

theorem addToOut_completes {n : Nat} {m : Memory} (ho : written m outBase n) (hs : written m scrBase n) :
    ∃ m', addToOut n m = .ok m' := by
  refine updateWords_completes _ _ _ fun j _ hj => ?_
  obtain ⟨x, hx⟩ := Option.isSome_iff_exists.1 (ho j (by omega))
  obtain ⟨y, hy⟩ := Option.isSome_iff_exists.1 (hs j (by omega))
  exact ⟨x, fadd x y, hx, by simp only [needWord_eq_ok.2 hy]⟩

/-- Everything a completed `scaleOut` does (44_mixer.md R178). -/
theorem scaleOut_ok {r : Word} {n : Nat} {m m' : Memory} (h : scaleOut r n m = .ok m') :
    (∀ k, k < n → ∃ x, readOut m k = some x ∧ readOut m' k = some (fmul x r)) ∧
      sameOutside outBase n m m' ∧ (Memory.wf m = true → Memory.wf m' = true) := by
  obtain ⟨h1, h2, h3⟩ := updateWords_ok h
  refine ⟨fun k hk => ?_, h2, h3⟩
  obtain ⟨x, y, e1, e2, e3⟩ := h1 k (Nat.zero_le k) (by omega)
  cases e2
  exact ⟨x, e1, e3⟩

theorem scaleOut_completes (r : Word) {n : Nat} {m : Memory} (ho : written m outBase n) :
    ∃ m', scaleOut r n m = .ok m' := by
  refine updateWords_completes _ _ _ fun j _ hj => ?_
  obtain ⟨x, hx⟩ := Option.isSome_iff_exists.1 (ho j (by omega))
  exact ⟨x, fmul x r, hx, rfl⟩

theorem readScr_of_sameOutside_out {n k : Nat} {m m' : Memory} (h : sameOutside outBase n m m')
    (hk : scrBase + k < outBase) :
    readScr m' k = readScr m k :=
  readWord_congr fun x _ hx => h x (by unfold outsideWords; omega)

theorem readOut_of_sameOutside_scr {n k : Nat} {m m' : Memory} (h : sameOutside scrBase n m m')
    (hn : scrBase + n ≤ outBase) :
    readOut m' k = readOut m k :=
  readWord_congr fun x hx _ => h x (by unfold outsideWords; omega)

/-- Outside the first `n` words of `SCR` and of `OUT` every byte reads as before. -/
def sameOutsideBuffers (n : Nat) (m m' : Memory) : Prop :=
  ∀ x, outsideWords scrBase n x → outsideWords outBase n x → readByte m' x = readByte m x

theorem readTbl_of_sameOutsideBuffers {n : Nat} {m m' : Memory} (h : sameOutsideBuffers n m m')
    (hs : scrBase + n ≤ tblBase) (ho : outBase + n ≤ tblBase) (b i : Nat) : readTbl m' b i = readTbl m b i := by
  have := tblBase_le_tblAddr b i
  exact readWord_congr fun x hx _ => h x (by unfold outsideWords; omega) (by unfold outsideWords; omega)

/-- What holds between two rounds of FILL step 3: the slots below `v` have produced, the others are untouched, `OUT` is
the sum so far, `SCR` is the latest valid slot's buffer (44_mixer.md R176, R183). -/
structure FillProgress (s : State) (n v : Nat) (a : List Voice × Memory) : Prop where
  slots : ∀ j, a.1[j]? = if j < v then (s.voices[j]?).map (afterRender n) else s.voices[j]?
  sums : ∀ k, k < n → readOut a.2 k = some (mixSum s k v)
  scratch : ∀ w vc, w < v → liveVoice s.params.nvoice s.voices w = some vc →
    (∀ u, w < u → u < v → liveVoice s.params.nvoice s.voices u = none) →
    ∀ k, k < n → readScr a.2 k = some (voiceSample vc k (tableEntry s.params s.mem vc k))
  frame : sameOutsideBuffers n s.mem a.2
  canon : Memory.wf s.mem = true → Memory.wf a.2 = true

theorem liveVoice_of_progress {s : State} {n v : Nat} {a : List Voice × Memory} (h : FillProgress s n v a) :
    liveVoice s.params.nvoice a.1 v = liveVoice s.params.nvoice s.voices v :=
  liveVoice_congr (by rw [h.slots v, if_neg (Nat.lt_irrefl v)])

/-- A slot that is not valid changes nothing (44_mixer.md R176). -/
theorem progress_skip {s : State} {n v : Nat} {a : List Voice × Memory} (h : FillProgress s n v a)
    (hv : v < s.params.nvoice) (hl : liveVoice s.params.nvoice s.voices v = none) : FillProgress s n (v + 1) a where
  slots j := by
    rw [h.slots j]
    by_cases hj : j = v
    · subst hj
      rw [if_neg (Nat.lt_irrefl j), if_pos (Nat.lt_succ_self j)]
      cases hx : s.voices[j]? with
      | none => rfl
      | some vc =>
        have : vc.valid = false := by
          cases hval : vc.valid with
          | false => rfl
          | true => rw [liveVoice_eq_some.2 ⟨hv, hx, hval⟩] at hl; cases hl
        simp [afterRender, this]
    · by_cases hlt : j < v
      · rw [if_pos hlt, if_pos (by omega)]
      · rw [if_neg hlt, if_neg (by omega)]
  sums k hk := by rw [h.sums k hk, mixSum, hl]
  scratch w vc hw hlive hnone k hk := by
    refine h.scratch w vc ?_ hlive (fun u hu hu' => hnone u hu (by omega)) k hk
    rcases Nat.lt_or_ge w v with hlt | hge
    · exact hlt
    · have : w = v := by omega
      subst this
      rw [hlive] at hl
      cases hl
  frame := h.frame
  canon := h.canon

/-- A valid slot is rendered and added (44_mixer.md R176). -/
theorem progress_render {s : State} {n v : Nat} {a : List Voice × Memory} (h : FillProgress s n v a) {vc vc' : Voice}
    (hs : scrBase + n ≤ outBase) (ho : outBase + n ≤ tblBase)
    (hl : liveVoice s.params.nvoice s.voices v = some vc) {m m' : Memory}
    (hp : produce s.params n vc a.2 = .ok (vc', m)) (ha : addToOut n m = .ok m') :
    FillProgress s n (v + 1) (a.1.set v vc', m') := by
  have hb : scrBase + n ≤ tblBase := by have : outBase ≤ tblBase := by decide
                                        omega
  obtain ⟨p1, p2, p3, p4⟩ := produce_ok hp hb
  obtain ⟨q1, q2, q3⟩ := addToOut_ok ha
  have hlive := liveVoice_of_progress h
  rw [hl] at hlive
  have scr : ∀ k, k < n → readScr m k = some (voiceSample vc k (tableEntry s.params s.mem vc k)) := fun k hk => by
    obtain ⟨t, e1, e2⟩ := p2 k hk
    rw [readTbl_of_sameOutsideBuffers h.frame hb ho] at e1
    rw [e2, tableEntry, e1]
    rfl
  exact {
    slots := fun j => by
      by_cases hj : j = v
      · subst hj
        obtain ⟨_, hx, hval⟩ := liveVoice_eq_some.1 hl
        rw [if_pos (Nat.lt_succ_self j), getElem?_set_of_live hlive, hx, p1]
        simp [afterRender, hval]
      · rw [List.getElem?_set_ne (Ne.symm hj), h.slots j]
        by_cases hlt : j < v
        · rw [if_pos hlt, if_pos (by omega)]
        · rw [if_neg hlt, if_neg (by omega)]
    sums := fun k hk => by
      obtain ⟨x, y, e1, e2, e3⟩ := q1 k hk
      rw [readOut_of_sameOutside_scr p3 hs, h.sums k hk] at e1
      rw [scr k hk] at e2
      rw [e3, ← Option.some.inj e1, ← Option.some.inj e2, mixSum, hl]
    scratch := fun w vcw hw hlw hnone k hk => by
      rcases Nat.lt_or_ge w v with hlt | hge
      · have := hnone v hlt (Nat.lt_succ_self v)
        rw [hl] at this
        cases this
      · have : w = v := by omega
        subst this
        rw [hl] at hlw
        cases hlw
        rw [readScr_of_sameOutside_out q2 (by omega), scr k hk]
    frame := fun x hx hx' => by rw [q2 x hx', p3 x hx, h.frame x hx hx']
    canon := fun hw => q3 (p4 (h.canon hw)) }

/-- One completed round of FILL step 3. -/
theorem fillVoice_progress {s : State} {n v : Nat} {a a' : List Voice × Memory} (hv : v < s.params.nvoice)
    (hs : scrBase + n ≤ outBase) (ho : outBase + n ≤ tblBase) (h : FillProgress s n v a)
    (hf : fillVoice s.params n v a = .ok a') : FillProgress s n (v + 1) a' := by
  unfold fillVoice at hf
  rw [liveVoice_of_progress h] at hf
  split at hf
  · rename_i hl
    cases hf
    exact progress_skip h hv hl
  · rename_i vc hl
    split at hf
    · cases hf
    · rename_i vc' m hp
      split at hf
      · cases hf
      · rename_i m' ha
        cases hf
        exact progress_render h hs ho hl hp ha

/-- A round of FILL step 3 completes when the voice's table entries are written. -/
theorem fillVoice_completes {s : State} {n v : Nat} {a : List Voice × Memory}
    (hs : scrBase + n ≤ outBase) (ho : outBase + n ≤ tblBase) (h : FillProgress s n v a)
    (ht : ∀ vc, holdsVoice s v vc → tableWritten s.params vc n vc.offset.toNat s.mem) :
    ∃ a', fillVoice s.params n v a = .ok a' := by
  have hb : scrBase + n ≤ tblBase := by have : outBase ≤ tblBase := by decide
                                        omega
  unfold fillVoice
  rw [liveVoice_of_progress h]
  cases hl : liveVoice s.params.nvoice s.voices v with
  | none => exact ⟨a, rfl⟩
  | some vc =>
    obtain ⟨⟨vc', m⟩, hp⟩ := produce_completes (p := s.params) (vc := vc) (m := a.2) hb fun k hk => by
      rw [readTbl_of_sameOutsideBuffers h.frame hb ho]
      exact ht vc hl k hk
    obtain ⟨_, p2, p3, _⟩ := produce_ok hp hb
    obtain ⟨m', ha⟩ := addToOut_completes (n := n) (m := m)
      (fun k hk => by
        have := readOut_of_sameOutside_scr (k := k) p3 hs
        rw [h.sums k hk] at this
        exact Option.isSome_iff_exists.2 ⟨_, this⟩)
      (fun k hk => by
        obtain ⟨t, _, e⟩ := p2 k hk
        exact Option.isSome_iff_exists.2 ⟨_, e⟩)
    exact ⟨(a.1.set v vc', m'), by simp [hp, ha]⟩

/-- Before FILL step 3: `OUT[0 .. n-1]` is zeroed (44_mixer.md R175). -/
theorem progress_start (s : State) (n : Nat) : FillProgress s n 0 (s.voices, fillWords outBase fZero 0 n s.mem) where
  slots j := by simp
  sums k hk := fillWords_readWord outBase fZero s.mem 0 n (Nat.zero_le k) (by omega)
  scratch w vc hw := by omega
  frame x _ hx := fillWords_frame outBase fZero s.mem 0 n (by simpa using hx)
  canon := fillWords_wf _ _ _ _

/-- The slots after FILL steps 3 and 4 (44_mixer.md R176, R177). -/
theorem slots_of_progress {s : State} {n : Nat} {a : List Voice × Memory} (hlen : s.voices.length = s.params.nvoice)
    (h : FillProgress s n s.params.nvoice a) : a.1 = s.voices.map (afterRender n) := by
  apply List.ext_getElem?
  intro j
  rw [h.slots j, List.getElem?_map]
  split
  · rfl
  · rw [List.getElem?_eq_none (by omega)]
    rfl

/-- `forEach (fillVoice ..)` over all slots of a state, started on zeroed output. -/
theorem fillLoop_ok {s : State} {n : Nat} {a : List Voice × Memory} (hs : scrBase + n ≤ outBase)
    (ho : outBase + n ≤ tblBase)
    (h : forEach (fillVoice s.params n) 0 s.params.nvoice (s.voices, fillWords outBase fZero 0 n s.mem) = .ok a) :
    FillProgress s n s.params.nvoice a := by
  have := forEach_induct (FillProgress s n) h (progress_start s n) fun i b b' _ hi hb hf =>
    fillVoice_progress (by omega) hs ho hb hf
  simpa using this

theorem fillLoop_completes {s : State} {n : Nat} (hs : scrBase + n ≤ outBase) (ho : outBase + n ≤ tblBase)
    (ht : ∀ v vc, holdsVoice s v vc → tableWritten s.params vc n vc.offset.toNat s.mem) :
    ∃ a, forEach (fillVoice s.params n) 0 s.params.nvoice (s.voices, fillWords outBase fZero 0 n s.mem) = .ok a := by
  obtain ⟨a, ha, _⟩ := forEach_completes (FillProgress s n) 0 s.params.nvoice
    (s.voices, fillWords outBase fZero 0 n s.mem) (progress_start s n) fun i b _ hi hb => by
      obtain ⟨b', hf⟩ := fillVoice_completes hs ho hb fun vc hvc => ht i vc hvc
      exact ⟨b', hf, fillVoice_progress (by omega) hs ho hb hf⟩
  exact ⟨a, ha⟩

end Sys2Proof.Machine
end

