-- ==== Sys2Proof/Laws/State.lean ====
section
/-! SUPPORT. One lemma per field of State and named update, true by definition. -/

namespace Sys2Proof.Machine

@[simp] theorem refuse_params (c : Code) (s : State) : (refuse c s).params = s.params := rfl
@[simp] theorem refuse_pCtl (c : Code) (s : State) : (refuse c s).pCtl = s.pCtl := rfl
@[simp] theorem refuse_pAttack (c : Code) (s : State) : (refuse c s).pAttack = s.pAttack := rfl
@[simp] theorem refuse_pDecay (c : Code) (s : State) : (refuse c s).pDecay = s.pDecay := rfl
@[simp] theorem refuse_pSustain (c : Code) (s : State) : (refuse c s).pSustain = s.pSustain := rfl
@[simp] theorem refuse_pRelease (c : Code) (s : State) : (refuse c s).pRelease = s.pRelease := rfl
@[simp] theorem refuse_pVolume (c : Code) (s : State) : (refuse c s).pVolume = s.pVolume := rfl
@[simp] theorem refuse_pCrunch (c : Code) (s : State) : (refuse c s).pCrunch = s.pCrunch := rfl
@[simp] theorem refuse_pDrive (c : Code) (s : State) : (refuse c s).pDrive = s.pDrive := rfl
@[simp] theorem refuse_offarg (c : Code) (s : State) : (refuse c s).offarg = s.offarg := rfl
@[simp] theorem refuse_err (c : Code) (s : State) : (refuse c s).err = if s.err = okByte then c.byte else s.err := rfl
@[simp] theorem refuse_last (c : Code) (s : State) : (refuse c s).last = c.byte := rfl
@[simp] theorem refuse_rstate (c : Code) (s : State) : (refuse c s).rstate = s.rstate := rfl
@[simp] theorem refuse_rslot (c : Code) (s : State) : (refuse c s).rslot = s.rslot := rfl
@[simp] theorem refuse_rcount (c : Code) (s : State) : (refuse c s).rcount = s.rcount := rfl
@[simp] theorem refuse_voices (c : Code) (s : State) : (refuse c s).voices = s.voices := rfl
@[simp] theorem refuse_sealFlags (c : Code) (s : State) : (refuse c s).sealFlags = s.sealFlags := rfl
@[simp] theorem refuse_mem (c : Code) (s : State) : (refuse c s).mem = s.mem := rfl
@[simp] theorem refuse_pending (c : Code) (s : State) : (refuse c s).pending = s.pending := rfl
@[simp] theorem refuse_rdata (c : Code) (s : State) : (refuse c s).rdata = s.rdata := rfl
@[simp] theorem refuse_freeIx (c : Code) (s : State) : (refuse c s).freeIx = s.freeIx := rfl

@[simp] theorem complete_params (s : State) : (complete s).params = s.params := rfl
@[simp] theorem complete_pCtl (s : State) : (complete s).pCtl = s.pCtl := rfl
@[simp] theorem complete_pAttack (s : State) : (complete s).pAttack = s.pAttack := rfl
@[simp] theorem complete_pDecay (s : State) : (complete s).pDecay = s.pDecay := rfl
@[simp] theorem complete_pSustain (s : State) : (complete s).pSustain = s.pSustain := rfl
@[simp] theorem complete_pRelease (s : State) : (complete s).pRelease = s.pRelease := rfl
@[simp] theorem complete_pVolume (s : State) : (complete s).pVolume = s.pVolume := rfl
@[simp] theorem complete_pCrunch (s : State) : (complete s).pCrunch = s.pCrunch := rfl
@[simp] theorem complete_pDrive (s : State) : (complete s).pDrive = s.pDrive := rfl
@[simp] theorem complete_offarg (s : State) : (complete s).offarg = s.offarg := rfl
@[simp] theorem complete_err (s : State) : (complete s).err = s.err := rfl
@[simp] theorem complete_last (s : State) : (complete s).last = okByte := rfl
@[simp] theorem complete_rstate (s : State) : (complete s).rstate = s.rstate := rfl
@[simp] theorem complete_rslot (s : State) : (complete s).rslot = s.rslot := rfl
@[simp] theorem complete_rcount (s : State) : (complete s).rcount = s.rcount := rfl
@[simp] theorem complete_voices (s : State) : (complete s).voices = s.voices := rfl
@[simp] theorem complete_sealFlags (s : State) : (complete s).sealFlags = s.sealFlags := rfl
@[simp] theorem complete_mem (s : State) : (complete s).mem = s.mem := rfl
@[simp] theorem complete_pending (s : State) : (complete s).pending = s.pending := rfl
@[simp] theorem complete_rdata (s : State) : (complete s).rdata = s.rdata := rfl
@[simp] theorem complete_freeIx (s : State) : (complete s).freeIx = s.freeIx := rfl

@[simp] theorem setMem_params (m : Memory) (s : State) : (setMem m s).params = s.params := rfl
@[simp] theorem setMem_pCtl (m : Memory) (s : State) : (setMem m s).pCtl = s.pCtl := rfl
@[simp] theorem setMem_pAttack (m : Memory) (s : State) : (setMem m s).pAttack = s.pAttack := rfl
@[simp] theorem setMem_pDecay (m : Memory) (s : State) : (setMem m s).pDecay = s.pDecay := rfl
@[simp] theorem setMem_pSustain (m : Memory) (s : State) : (setMem m s).pSustain = s.pSustain := rfl
@[simp] theorem setMem_pRelease (m : Memory) (s : State) : (setMem m s).pRelease = s.pRelease := rfl
@[simp] theorem setMem_pVolume (m : Memory) (s : State) : (setMem m s).pVolume = s.pVolume := rfl
@[simp] theorem setMem_pCrunch (m : Memory) (s : State) : (setMem m s).pCrunch = s.pCrunch := rfl
@[simp] theorem setMem_pDrive (m : Memory) (s : State) : (setMem m s).pDrive = s.pDrive := rfl
@[simp] theorem setMem_offarg (m : Memory) (s : State) : (setMem m s).offarg = s.offarg := rfl
@[simp] theorem setMem_err (m : Memory) (s : State) : (setMem m s).err = s.err := rfl
@[simp] theorem setMem_last (m : Memory) (s : State) : (setMem m s).last = s.last := rfl
@[simp] theorem setMem_rstate (m : Memory) (s : State) : (setMem m s).rstate = s.rstate := rfl
@[simp] theorem setMem_rslot (m : Memory) (s : State) : (setMem m s).rslot = s.rslot := rfl
@[simp] theorem setMem_rcount (m : Memory) (s : State) : (setMem m s).rcount = s.rcount := rfl
@[simp] theorem setMem_voices (m : Memory) (s : State) : (setMem m s).voices = s.voices := rfl
@[simp] theorem setMem_sealFlags (m : Memory) (s : State) : (setMem m s).sealFlags = s.sealFlags := rfl
@[simp] theorem setMem_mem (m : Memory) (s : State) : (setMem m s).mem = m := rfl
@[simp] theorem setMem_pending (m : Memory) (s : State) : (setMem m s).pending = s.pending := rfl
@[simp] theorem setMem_rdata (m : Memory) (s : State) : (setMem m s).rdata = s.rdata := rfl
@[simp] theorem setMem_freeIx (m : Memory) (s : State) : (setMem m s).freeIx = s.freeIx := rfl

@[simp] theorem setVoice_params (v : Nat) (vc : Voice) (s : State) : (setVoice v vc s).params = s.params := rfl
@[simp] theorem setVoice_pCtl (v : Nat) (vc : Voice) (s : State) : (setVoice v vc s).pCtl = s.pCtl := rfl
@[simp] theorem setVoice_pAttack (v : Nat) (vc : Voice) (s : State) : (setVoice v vc s).pAttack = s.pAttack := rfl
@[simp] theorem setVoice_pDecay (v : Nat) (vc : Voice) (s : State) : (setVoice v vc s).pDecay = s.pDecay := rfl
@[simp] theorem setVoice_pSustain (v : Nat) (vc : Voice) (s : State) : (setVoice v vc s).pSustain = s.pSustain := rfl
@[simp] theorem setVoice_pRelease (v : Nat) (vc : Voice) (s : State) : (setVoice v vc s).pRelease = s.pRelease := rfl
@[simp] theorem setVoice_pVolume (v : Nat) (vc : Voice) (s : State) : (setVoice v vc s).pVolume = s.pVolume := rfl
@[simp] theorem setVoice_pCrunch (v : Nat) (vc : Voice) (s : State) : (setVoice v vc s).pCrunch = s.pCrunch := rfl
@[simp] theorem setVoice_pDrive (v : Nat) (vc : Voice) (s : State) : (setVoice v vc s).pDrive = s.pDrive := rfl
@[simp] theorem setVoice_offarg (v : Nat) (vc : Voice) (s : State) : (setVoice v vc s).offarg = s.offarg := rfl
@[simp] theorem setVoice_err (v : Nat) (vc : Voice) (s : State) : (setVoice v vc s).err = s.err := rfl
@[simp] theorem setVoice_last (v : Nat) (vc : Voice) (s : State) : (setVoice v vc s).last = s.last := rfl
@[simp] theorem setVoice_rstate (v : Nat) (vc : Voice) (s : State) : (setVoice v vc s).rstate = s.rstate := rfl
@[simp] theorem setVoice_rslot (v : Nat) (vc : Voice) (s : State) : (setVoice v vc s).rslot = s.rslot := rfl
@[simp] theorem setVoice_rcount (v : Nat) (vc : Voice) (s : State) : (setVoice v vc s).rcount = s.rcount := rfl
@[simp] theorem setVoice_voices (v : Nat) (vc : Voice) (s : State) : (setVoice v vc s).voices = s.voices.set v vc := rfl
@[simp] theorem setVoice_sealFlags (v : Nat) (vc : Voice) (s : State) : (setVoice v vc s).sealFlags = s.sealFlags := rfl
@[simp] theorem setVoice_mem (v : Nat) (vc : Voice) (s : State) : (setVoice v vc s).mem = s.mem := rfl
@[simp] theorem setVoice_pending (v : Nat) (vc : Voice) (s : State) : (setVoice v vc s).pending = s.pending := rfl
@[simp] theorem setVoice_rdata (v : Nat) (vc : Voice) (s : State) : (setVoice v vc s).rdata = s.rdata := rfl
@[simp] theorem setVoice_freeIx (v : Nat) (vc : Voice) (s : State) : (setVoice v vc s).freeIx = s.freeIx := rfl

@[simp] theorem setVoices_params (vs : List Voice) (s : State) : (setVoices vs s).params = s.params := rfl
@[simp] theorem setVoices_pCtl (vs : List Voice) (s : State) : (setVoices vs s).pCtl = s.pCtl := rfl
@[simp] theorem setVoices_pAttack (vs : List Voice) (s : State) : (setVoices vs s).pAttack = s.pAttack := rfl
@[simp] theorem setVoices_pDecay (vs : List Voice) (s : State) : (setVoices vs s).pDecay = s.pDecay := rfl
@[simp] theorem setVoices_pSustain (vs : List Voice) (s : State) : (setVoices vs s).pSustain = s.pSustain := rfl
@[simp] theorem setVoices_pRelease (vs : List Voice) (s : State) : (setVoices vs s).pRelease = s.pRelease := rfl
@[simp] theorem setVoices_pVolume (vs : List Voice) (s : State) : (setVoices vs s).pVolume = s.pVolume := rfl
@[simp] theorem setVoices_pCrunch (vs : List Voice) (s : State) : (setVoices vs s).pCrunch = s.pCrunch := rfl
@[simp] theorem setVoices_pDrive (vs : List Voice) (s : State) : (setVoices vs s).pDrive = s.pDrive := rfl
@[simp] theorem setVoices_offarg (vs : List Voice) (s : State) : (setVoices vs s).offarg = s.offarg := rfl
@[simp] theorem setVoices_err (vs : List Voice) (s : State) : (setVoices vs s).err = s.err := rfl
@[simp] theorem setVoices_last (vs : List Voice) (s : State) : (setVoices vs s).last = s.last := rfl
@[simp] theorem setVoices_rstate (vs : List Voice) (s : State) : (setVoices vs s).rstate = s.rstate := rfl
@[simp] theorem setVoices_rslot (vs : List Voice) (s : State) : (setVoices vs s).rslot = s.rslot := rfl
@[simp] theorem setVoices_rcount (vs : List Voice) (s : State) : (setVoices vs s).rcount = s.rcount := rfl
@[simp] theorem setVoices_voices (vs : List Voice) (s : State) : (setVoices vs s).voices = vs := rfl
@[simp] theorem setVoices_sealFlags (vs : List Voice) (s : State) : (setVoices vs s).sealFlags = s.sealFlags := rfl
@[simp] theorem setVoices_mem (vs : List Voice) (s : State) : (setVoices vs s).mem = s.mem := rfl
@[simp] theorem setVoices_pending (vs : List Voice) (s : State) : (setVoices vs s).pending = s.pending := rfl
@[simp] theorem setVoices_rdata (vs : List Voice) (s : State) : (setVoices vs s).rdata = s.rdata := rfl
@[simp] theorem setVoices_freeIx (vs : List Voice) (s : State) : (setVoices vs s).freeIx = s.freeIx := rfl

@[simp] theorem setRstate_params (ph : Phase) (s : State) : (setRstate ph s).params = s.params := rfl
@[simp] theorem setRstate_pCtl (ph : Phase) (s : State) : (setRstate ph s).pCtl = s.pCtl := rfl
@[simp] theorem setRstate_pAttack (ph : Phase) (s : State) : (setRstate ph s).pAttack = s.pAttack := rfl
@[simp] theorem setRstate_pDecay (ph : Phase) (s : State) : (setRstate ph s).pDecay = s.pDecay := rfl
@[simp] theorem setRstate_pSustain (ph : Phase) (s : State) : (setRstate ph s).pSustain = s.pSustain := rfl
@[simp] theorem setRstate_pRelease (ph : Phase) (s : State) : (setRstate ph s).pRelease = s.pRelease := rfl
@[simp] theorem setRstate_pVolume (ph : Phase) (s : State) : (setRstate ph s).pVolume = s.pVolume := rfl
@[simp] theorem setRstate_pCrunch (ph : Phase) (s : State) : (setRstate ph s).pCrunch = s.pCrunch := rfl
@[simp] theorem setRstate_pDrive (ph : Phase) (s : State) : (setRstate ph s).pDrive = s.pDrive := rfl
@[simp] theorem setRstate_offarg (ph : Phase) (s : State) : (setRstate ph s).offarg = s.offarg := rfl
@[simp] theorem setRstate_err (ph : Phase) (s : State) : (setRstate ph s).err = s.err := rfl
@[simp] theorem setRstate_last (ph : Phase) (s : State) : (setRstate ph s).last = s.last := rfl
@[simp] theorem setRstate_rstate (ph : Phase) (s : State) : (setRstate ph s).rstate = ph.tag := rfl
@[simp] theorem setRstate_rslot (ph : Phase) (s : State) : (setRstate ph s).rslot = s.rslot := rfl
@[simp] theorem setRstate_rcount (ph : Phase) (s : State) : (setRstate ph s).rcount = s.rcount := rfl
@[simp] theorem setRstate_voices (ph : Phase) (s : State) : (setRstate ph s).voices = s.voices := rfl
@[simp] theorem setRstate_sealFlags (ph : Phase) (s : State) : (setRstate ph s).sealFlags = s.sealFlags := rfl
@[simp] theorem setRstate_mem (ph : Phase) (s : State) : (setRstate ph s).mem = s.mem := rfl
@[simp] theorem setRstate_pending (ph : Phase) (s : State) : (setRstate ph s).pending = s.pending := rfl
@[simp] theorem setRstate_rdata (ph : Phase) (s : State) : (setRstate ph s).rdata = s.rdata := rfl
@[simp] theorem setRstate_freeIx (ph : Phase) (s : State) : (setRstate ph s).freeIx = s.freeIx := rfl

@[simp] theorem setRslot_params (v : Nat) (s : State) : (setRslot v s).params = s.params := rfl
@[simp] theorem setRslot_pCtl (v : Nat) (s : State) : (setRslot v s).pCtl = s.pCtl := rfl
@[simp] theorem setRslot_pAttack (v : Nat) (s : State) : (setRslot v s).pAttack = s.pAttack := rfl
@[simp] theorem setRslot_pDecay (v : Nat) (s : State) : (setRslot v s).pDecay = s.pDecay := rfl
@[simp] theorem setRslot_pSustain (v : Nat) (s : State) : (setRslot v s).pSustain = s.pSustain := rfl
@[simp] theorem setRslot_pRelease (v : Nat) (s : State) : (setRslot v s).pRelease = s.pRelease := rfl
@[simp] theorem setRslot_pVolume (v : Nat) (s : State) : (setRslot v s).pVolume = s.pVolume := rfl
@[simp] theorem setRslot_pCrunch (v : Nat) (s : State) : (setRslot v s).pCrunch = s.pCrunch := rfl
@[simp] theorem setRslot_pDrive (v : Nat) (s : State) : (setRslot v s).pDrive = s.pDrive := rfl
@[simp] theorem setRslot_offarg (v : Nat) (s : State) : (setRslot v s).offarg = s.offarg := rfl
@[simp] theorem setRslot_err (v : Nat) (s : State) : (setRslot v s).err = s.err := rfl
@[simp] theorem setRslot_last (v : Nat) (s : State) : (setRslot v s).last = s.last := rfl
@[simp] theorem setRslot_rstate (v : Nat) (s : State) : (setRslot v s).rstate = s.rstate := rfl
@[simp] theorem setRslot_rslot (v : Nat) (s : State) : (setRslot v s).rslot = BitVec.ofNat 6 v := rfl
@[simp] theorem setRslot_rcount (v : Nat) (s : State) : (setRslot v s).rcount = s.rcount := rfl
@[simp] theorem setRslot_voices (v : Nat) (s : State) : (setRslot v s).voices = s.voices := rfl
@[simp] theorem setRslot_sealFlags (v : Nat) (s : State) : (setRslot v s).sealFlags = s.sealFlags := rfl
@[simp] theorem setRslot_mem (v : Nat) (s : State) : (setRslot v s).mem = s.mem := rfl
@[simp] theorem setRslot_pending (v : Nat) (s : State) : (setRslot v s).pending = s.pending := rfl
@[simp] theorem setRslot_rdata (v : Nat) (s : State) : (setRslot v s).rdata = s.rdata := rfl
@[simp] theorem setRslot_freeIx (v : Nat) (s : State) : (setRslot v s).freeIx = s.freeIx := rfl

@[simp] theorem setRcount_params (cnt : Nat) (s : State) : (setRcount cnt s).params = s.params := rfl
@[simp] theorem setRcount_pCtl (cnt : Nat) (s : State) : (setRcount cnt s).pCtl = s.pCtl := rfl
@[simp] theorem setRcount_pAttack (cnt : Nat) (s : State) : (setRcount cnt s).pAttack = s.pAttack := rfl
@[simp] theorem setRcount_pDecay (cnt : Nat) (s : State) : (setRcount cnt s).pDecay = s.pDecay := rfl
@[simp] theorem setRcount_pSustain (cnt : Nat) (s : State) : (setRcount cnt s).pSustain = s.pSustain := rfl
@[simp] theorem setRcount_pRelease (cnt : Nat) (s : State) : (setRcount cnt s).pRelease = s.pRelease := rfl
@[simp] theorem setRcount_pVolume (cnt : Nat) (s : State) : (setRcount cnt s).pVolume = s.pVolume := rfl
@[simp] theorem setRcount_pCrunch (cnt : Nat) (s : State) : (setRcount cnt s).pCrunch = s.pCrunch := rfl
@[simp] theorem setRcount_pDrive (cnt : Nat) (s : State) : (setRcount cnt s).pDrive = s.pDrive := rfl
@[simp] theorem setRcount_offarg (cnt : Nat) (s : State) : (setRcount cnt s).offarg = s.offarg := rfl
@[simp] theorem setRcount_err (cnt : Nat) (s : State) : (setRcount cnt s).err = s.err := rfl
@[simp] theorem setRcount_last (cnt : Nat) (s : State) : (setRcount cnt s).last = s.last := rfl
@[simp] theorem setRcount_rstate (cnt : Nat) (s : State) : (setRcount cnt s).rstate = s.rstate := rfl
@[simp] theorem setRcount_rslot (cnt : Nat) (s : State) : (setRcount cnt s).rslot = s.rslot := rfl
@[simp] theorem setRcount_rcount (cnt : Nat) (s : State) : (setRcount cnt s).rcount = BitVec.ofNat 7 cnt := rfl
@[simp] theorem setRcount_voices (cnt : Nat) (s : State) : (setRcount cnt s).voices = s.voices := rfl
@[simp] theorem setRcount_sealFlags (cnt : Nat) (s : State) : (setRcount cnt s).sealFlags = s.sealFlags := rfl
@[simp] theorem setRcount_mem (cnt : Nat) (s : State) : (setRcount cnt s).mem = s.mem := rfl
@[simp] theorem setRcount_pending (cnt : Nat) (s : State) : (setRcount cnt s).pending = s.pending := rfl
@[simp] theorem setRcount_rdata (cnt : Nat) (s : State) : (setRcount cnt s).rdata = s.rdata := rfl
@[simp] theorem setRcount_freeIx (cnt : Nat) (s : State) : (setRcount cnt s).freeIx = s.freeIx := rfl

@[simp] theorem sealBank_params (b : Nat) (s : State) : (sealBank b s).params = s.params := rfl
@[simp] theorem sealBank_pCtl (b : Nat) (s : State) : (sealBank b s).pCtl = s.pCtl := rfl
@[simp] theorem sealBank_pAttack (b : Nat) (s : State) : (sealBank b s).pAttack = s.pAttack := rfl
@[simp] theorem sealBank_pDecay (b : Nat) (s : State) : (sealBank b s).pDecay = s.pDecay := rfl
@[simp] theorem sealBank_pSustain (b : Nat) (s : State) : (sealBank b s).pSustain = s.pSustain := rfl
@[simp] theorem sealBank_pRelease (b : Nat) (s : State) : (sealBank b s).pRelease = s.pRelease := rfl
@[simp] theorem sealBank_pVolume (b : Nat) (s : State) : (sealBank b s).pVolume = s.pVolume := rfl
@[simp] theorem sealBank_pCrunch (b : Nat) (s : State) : (sealBank b s).pCrunch = s.pCrunch := rfl
@[simp] theorem sealBank_pDrive (b : Nat) (s : State) : (sealBank b s).pDrive = s.pDrive := rfl
@[simp] theorem sealBank_offarg (b : Nat) (s : State) : (sealBank b s).offarg = s.offarg := rfl
@[simp] theorem sealBank_err (b : Nat) (s : State) : (sealBank b s).err = s.err := rfl
@[simp] theorem sealBank_last (b : Nat) (s : State) : (sealBank b s).last = s.last := rfl
@[simp] theorem sealBank_rstate (b : Nat) (s : State) : (sealBank b s).rstate = s.rstate := rfl
@[simp] theorem sealBank_rslot (b : Nat) (s : State) : (sealBank b s).rslot = s.rslot := rfl
@[simp] theorem sealBank_rcount (b : Nat) (s : State) : (sealBank b s).rcount = s.rcount := rfl
@[simp] theorem sealBank_voices (b : Nat) (s : State) : (sealBank b s).voices = s.voices := rfl
@[simp] theorem sealBank_sealFlags (b : Nat) (s : State) : (sealBank b s).sealFlags = s.sealFlags.set b true := rfl
@[simp] theorem sealBank_mem (b : Nat) (s : State) : (sealBank b s).mem = s.mem := rfl
@[simp] theorem sealBank_pending (b : Nat) (s : State) : (sealBank b s).pending = s.pending := rfl
@[simp] theorem sealBank_rdata (b : Nat) (s : State) : (sealBank b s).rdata = s.rdata := rfl
@[simp] theorem sealBank_freeIx (b : Nat) (s : State) : (sealBank b s).freeIx = s.freeIx := rfl

@[simp] theorem setRdata_params (r : Option Word) (s : State) : (setRdata r s).params = s.params := rfl
@[simp] theorem setRdata_pCtl (r : Option Word) (s : State) : (setRdata r s).pCtl = s.pCtl := rfl
@[simp] theorem setRdata_pAttack (r : Option Word) (s : State) : (setRdata r s).pAttack = s.pAttack := rfl
@[simp] theorem setRdata_pDecay (r : Option Word) (s : State) : (setRdata r s).pDecay = s.pDecay := rfl
@[simp] theorem setRdata_pSustain (r : Option Word) (s : State) : (setRdata r s).pSustain = s.pSustain := rfl
@[simp] theorem setRdata_pRelease (r : Option Word) (s : State) : (setRdata r s).pRelease = s.pRelease := rfl
@[simp] theorem setRdata_pVolume (r : Option Word) (s : State) : (setRdata r s).pVolume = s.pVolume := rfl
@[simp] theorem setRdata_pCrunch (r : Option Word) (s : State) : (setRdata r s).pCrunch = s.pCrunch := rfl
@[simp] theorem setRdata_pDrive (r : Option Word) (s : State) : (setRdata r s).pDrive = s.pDrive := rfl
@[simp] theorem setRdata_offarg (r : Option Word) (s : State) : (setRdata r s).offarg = s.offarg := rfl
@[simp] theorem setRdata_err (r : Option Word) (s : State) : (setRdata r s).err = s.err := rfl
@[simp] theorem setRdata_last (r : Option Word) (s : State) : (setRdata r s).last = s.last := rfl
@[simp] theorem setRdata_rstate (r : Option Word) (s : State) : (setRdata r s).rstate = s.rstate := rfl
@[simp] theorem setRdata_rslot (r : Option Word) (s : State) : (setRdata r s).rslot = s.rslot := rfl
@[simp] theorem setRdata_rcount (r : Option Word) (s : State) : (setRdata r s).rcount = s.rcount := rfl
@[simp] theorem setRdata_voices (r : Option Word) (s : State) : (setRdata r s).voices = s.voices := rfl
@[simp] theorem setRdata_sealFlags (r : Option Word) (s : State) : (setRdata r s).sealFlags = s.sealFlags := rfl
@[simp] theorem setRdata_mem (r : Option Word) (s : State) : (setRdata r s).mem = s.mem := rfl
@[simp] theorem setRdata_pending (r : Option Word) (s : State) : (setRdata r s).pending = s.pending := rfl
@[simp] theorem setRdata_rdata (r : Option Word) (s : State) : (setRdata r s).rdata = r := rfl
@[simp] theorem setRdata_freeIx (r : Option Word) (s : State) : (setRdata r s).freeIx = s.freeIx := rfl

@[simp] theorem takeAction_params (rest : List HostAction) (s : State) : (takeAction rest s).params = s.params := rfl
@[simp] theorem takeAction_pCtl (rest : List HostAction) (s : State) : (takeAction rest s).pCtl = s.pCtl := rfl
@[simp] theorem takeAction_pAttack (rest : List HostAction) (s : State) : (takeAction rest s).pAttack = s.pAttack := rfl
@[simp] theorem takeAction_pDecay (rest : List HostAction) (s : State) : (takeAction rest s).pDecay = s.pDecay := rfl
@[simp] theorem takeAction_pSustain (rest : List HostAction) (s : State) : (takeAction rest
  s).pSustain = s.pSustain := rfl
@[simp] theorem takeAction_pRelease (rest : List HostAction) (s : State) : (takeAction rest
  s).pRelease = s.pRelease := rfl
@[simp] theorem takeAction_pVolume (rest : List HostAction) (s : State) : (takeAction rest s).pVolume = s.pVolume := rfl
@[simp] theorem takeAction_pCrunch (rest : List HostAction) (s : State) : (takeAction rest s).pCrunch = s.pCrunch := rfl
@[simp] theorem takeAction_pDrive (rest : List HostAction) (s : State) : (takeAction rest s).pDrive = s.pDrive := rfl
@[simp] theorem takeAction_offarg (rest : List HostAction) (s : State) : (takeAction rest s).offarg = s.offarg := rfl
@[simp] theorem takeAction_err (rest : List HostAction) (s : State) : (takeAction rest s).err = s.err := rfl
@[simp] theorem takeAction_last (rest : List HostAction) (s : State) : (takeAction rest s).last = s.last := rfl
@[simp] theorem takeAction_rstate (rest : List HostAction) (s : State) : (takeAction rest s).rstate = s.rstate := rfl
@[simp] theorem takeAction_rslot (rest : List HostAction) (s : State) : (takeAction rest s).rslot = s.rslot := rfl
@[simp] theorem takeAction_rcount (rest : List HostAction) (s : State) : (takeAction rest s).rcount = s.rcount := rfl
@[simp] theorem takeAction_voices (rest : List HostAction) (s : State) : (takeAction rest s).voices = s.voices := rfl
@[simp] theorem takeAction_sealFlags (rest : List HostAction) (s : State) : (takeAction rest
  s).sealFlags = s.sealFlags := rfl
@[simp] theorem takeAction_mem (rest : List HostAction) (s : State) : (takeAction rest s).mem = s.mem := rfl
@[simp] theorem takeAction_pending (rest : List HostAction) (s : State) : (takeAction rest s).pending = rest := rfl
@[simp] theorem takeAction_rdata (rest : List HostAction) (s : State) : (takeAction rest s).rdata = s.rdata := rfl
@[simp] theorem takeAction_freeIx (rest : List HostAction) (s : State) : (takeAction rest s).freeIx = s.freeIx := rfl

@[simp] theorem pushCommand_params (w : Word) (s : State) : (pushCommand w s).params = s.params := rfl
@[simp] theorem pushCommand_pCtl (w : Word) (s : State) : (pushCommand w s).pCtl = s.pCtl := rfl
@[simp] theorem pushCommand_pAttack (w : Word) (s : State) : (pushCommand w s).pAttack = s.pAttack := rfl
@[simp] theorem pushCommand_pDecay (w : Word) (s : State) : (pushCommand w s).pDecay = s.pDecay := rfl
@[simp] theorem pushCommand_pSustain (w : Word) (s : State) : (pushCommand w s).pSustain = s.pSustain := rfl
@[simp] theorem pushCommand_pRelease (w : Word) (s : State) : (pushCommand w s).pRelease = s.pRelease := rfl
@[simp] theorem pushCommand_pVolume (w : Word) (s : State) : (pushCommand w s).pVolume = s.pVolume := rfl
@[simp] theorem pushCommand_pCrunch (w : Word) (s : State) : (pushCommand w s).pCrunch = s.pCrunch := rfl
@[simp] theorem pushCommand_pDrive (w : Word) (s : State) : (pushCommand w s).pDrive = s.pDrive := rfl
@[simp] theorem pushCommand_offarg (w : Word) (s : State) : (pushCommand w s).offarg = s.offarg := rfl
@[simp] theorem pushCommand_err (w : Word) (s : State) : (pushCommand w s).err = s.err := rfl
@[simp] theorem pushCommand_last (w : Word) (s : State) : (pushCommand w s).last = s.last := rfl
@[simp] theorem pushCommand_rstate (w : Word) (s : State) : (pushCommand w s).rstate = s.rstate := rfl
@[simp] theorem pushCommand_rslot (w : Word) (s : State) : (pushCommand w s).rslot = s.rslot := rfl
@[simp] theorem pushCommand_rcount (w : Word) (s : State) : (pushCommand w s).rcount = s.rcount := rfl
@[simp] theorem pushCommand_voices (w : Word) (s : State) : (pushCommand w s).voices = s.voices := rfl
@[simp] theorem pushCommand_sealFlags (w : Word) (s : State) : (pushCommand w s).sealFlags = s.sealFlags := rfl
@[simp] theorem pushCommand_mem (w : Word) (s : State) : (pushCommand w s).mem = s.mem := rfl
@[simp] theorem pushCommand_pending (w : Word) (s : State) : (pushCommand w
  s).pending = .write cmdAddr w :: s.pending := rfl
@[simp] theorem pushCommand_rdata (w : Word) (s : State) : (pushCommand w s).rdata = s.rdata := rfl
@[simp] theorem pushCommand_freeIx (w : Word) (s : State) : (pushCommand w s).freeIx = s.freeIx := rfl

end Sys2Proof.Machine
end

