-- ==== Sys2Proof/Laws/Commands.lean ====
section
/-! SUPPORT. The checks of each command, and everything a command that answers a next state can have done
(30_encoding.md R100, R103; 60_exceptions.md R205). -/

namespace Sys2Proof.Machine

/-- Everything stages 2 and 3 of a command can answer as a next state (30_encoding.md R100). -/
theorem runCommand_next {α : Type} {check : Except Code α} {effect : α → Except Fault State} {s t : State} :
    runCommand check effect s = .next t ↔
      (∃ c, check = .error c ∧ t = refuse c s) ∨ ∃ a u, check = .ok a ∧ effect a = .ok u ∧ t = complete u := by
  unfold runCommand
  cases check with
  | error c => simp [eq_comm]
  | ok a => cases h : effect a <;> simp [h, eq_comm]

theorem runCommand_error {α : Type} {check : Except Code α} (effect : α → Except Fault State) (s : State) {c : Code}
    (h : check = .error c) : runCommand check effect s = .next (refuse c s) := by
  rw [h]
  rfl

theorem runCommand_ok {α : Type} {check : Except Code α} {effect : α → Except Fault State} (s : State) {a : α}
    {u : State}
    (h : check = .ok a) (he : effect a = .ok u) : runCommand check effect s = .next (complete u) := by
  rw [h]
  simp [runCommand, he]

theorem require_ok {b : Bool} {c : Code} {u : Unit} : require b c = .ok u ↔ b = true := by
  cases b <;> simp [require]

theorem require_error {b : Bool} {c d : Code} : require b c = .error d ↔ b = false ∧ d = c := by
  cases b <;> simp [require, eq_comm]

theorem voiceOperand_ok {s : State} {v : Nat} {vc : Voice} : voiceOperand s v = .ok vc ↔ holdsVoice s v vc := by
  unfold voiceOperand holdsVoice
  cases liveVoice s.params.nvoice s.voices v <;> simp

theorem voiceOperand_error {s : State} {v : Nat} {c : Code} :
    voiceOperand s v = .error c ↔ (∀ vc, ¬ holdsVoice s v vc) ∧ c = .voice := by
  unfold voiceOperand holdsVoice
  cases liveVoice s.params.nvoice s.voices v <;> simp [eq_comm]

theorem lengthOperand_ok {s : State} {n : Nat} {u : Unit} : lengthOperand s n = .ok u ↔ n ≤ s.params.sr := by
  simp [lengthOperand, require_ok]

theorem lengthOperand_error {s : State} {n : Nat} {c : Code} :
    lengthOperand s n = .error c ↔ s.params.sr < n ∧ c = .len := by
  simp [lengthOperand, require_error]

theorem offsetOperand_ok {off : Word} {n : Nat} {u : Unit} : offsetOperand off n = .ok u ↔ off.toNat + n < 2 ^ 32 := by
  simp [offsetOperand, require_ok]

theorem offsetOperand_error {off : Word} {n : Nat} {c : Code} :
    offsetOperand off n = .error c ↔ 2 ^ 32 ≤ off.toNat + n ∧ c = .offOvf := by
  simp [offsetOperand, require_error]

/-- Two slots do not hold two voices. -/
theorem holdsVoice_unique {s : State} {v : Nat} {vc vc' : Voice} (h : holdsVoice s v vc) (h' : holdsVoice s v vc') :
    vc = vc' := by
  unfold holdsVoice at h h'
  rw [h] at h'
  exact Option.some.inj h'

/-- When `OSC` passes its checks (40_oscillator.md R122). -/
theorem oscCheck_ok {v n : Nat} {s : State} {vc : Voice} :
    oscCheck v n s = .ok vc ↔ holdsVoice s v vc ∧ n ≤ s.params.sr ∧ s.offarg.toNat + n < 2 ^ 32 := by
  rw [← voiceOperand_ok, ← lengthOperand_ok (u := ()), ← offsetOperand_ok (u := ())]
  unfold oscCheck
  cases voiceOperand s v <;> cases lengthOperand s n <;> cases offsetOperand s.offarg n <;> simp

/-- When `ENV` passes its checks (41_envelope.md R133). -/
theorem envCheck_ok {v n : Nat} {s : State} {vc : Voice} :
    envCheck v n s = .ok vc ↔ holdsVoice s v vc ∧ n ≤ s.params.sr ∧ s.offarg.toNat + n < 2 ^ 32 ∧
      runsBackwards vc s.offarg = false := by
  rw [← voiceOperand_ok, ← lengthOperand_ok (u := ()), ← offsetOperand_ok (u := ())]
  unfold envCheck
  cases voiceOperand s v with
  | error c => simp
  | ok w =>
    by_cases e : w = vc
    · subst e
      cases lengthOperand s n <;> cases offsetOperand s.offarg n <;> cases h : runsBackwards w s.offarg <;>
        simp [require, h]
    · cases lengthOperand s n <;> cases offsetOperand s.offarg n <;> cases h : runsBackwards w s.offarg <;>
        simp [require, h, e]

/-- When `DIST` passes its checks (42_distortion.md R152). -/
theorem distCheck_ok {v n : Nat} {s : State} {vc : Voice} :
    distCheck v n s = .ok vc ↔ holdsVoice s v vc ∧ n ≤ s.params.sr ∧ vc.distEn = true := by
  rw [← voiceOperand_ok, ← lengthOperand_ok (u := ())]
  unfold distCheck
  cases voiceOperand s v with
  | error c => simp
  | ok w =>
    by_cases e : w = vc
    · subst e
      cases lengthOperand s n <;> cases h : w.distEn <;> simp [require, h]
    · cases lengthOperand s n <;> cases h : w.distEn <;> simp [require, h, e]

/-- When `VOL` passes its checks (43_voice.md R160). -/
theorem volCheck_ok {v n : Nat} {s : State} {vc : Voice} :
    volCheck v n s = .ok vc ↔ holdsVoice s v vc ∧ n ≤ s.params.sr := by
  rw [← voiceOperand_ok, ← lengthOperand_ok (u := ())]
  unfold volCheck
  cases voiceOperand s v <;> cases lengthOperand s n <;> simp

/-- When `PROD` passes its checks (43_voice.md R161, R162). -/
theorem prodCheck_ok {v n : Nat} {s : State} {vc : Voice} :
    prodCheck v n s = .ok vc ↔ holdsVoice s v vc ∧ n ≤ s.params.sr ∧ vc.offset.toNat + n < 2 ^ 32 := by
  rw [← voiceOperand_ok, ← lengthOperand_ok (u := ())]
  unfold prodCheck
  cases voiceOperand s v with
  | error c => simp
  | ok w =>
    by_cases e : w = vc
    · subst e
      rw [← offsetOperand_ok (u := ())]
      cases lengthOperand s n <;> cases ho : offsetOperand w.offset n <;> simp [ho]
    · cases lengthOperand s n <;> cases ho : offsetOperand w.offset n <;> simp [ho, e]

theorem isLive_eq_false {s : State} {v : Nat} :
    isLive s.params.nvoice s.voices v = false ↔ ∀ vc, ¬ holdsVoice s v vc := by
  unfold isLive holdsVoice
  cases liveVoice s.params.nvoice s.voices v <;> simp

/-- The slot ENQ allocates is the least one that is not valid (44_mixer.md R173). -/
theorem freeSlot_eq_some {s : State} {v : Nat} :
    freeSlot s = some v ↔
      v < s.params.nvoice ∧ (∀ vc, ¬ holdsVoice s v vc) ∧ ∀ u, u < v → ∃ vc, holdsVoice s u vc := by
  unfold freeSlot
  rw [List.find?_range_eq_some]
  simp only [Bool.not_eq_true', isLive_eq_false, List.mem_range]
  constructor
  · rintro ⟨h1, h2, h3⟩
    refine ⟨h2, h1, fun u hu => ?_⟩
    have := h3 u hu
    rw [Bool.not_eq_false'] at this
    exact Option.isSome_iff_exists.1 this
  · rintro ⟨h1, h2, h3⟩
    refine ⟨h2, h1, fun u hu => ?_⟩
    obtain ⟨vc, hvc⟩ := h3 u hu
    rw [Bool.not_eq_false']
    exact Option.isSome_iff_exists.2 ⟨vc, hvc⟩

theorem freeSlot_eq_none {s : State} : freeSlot s = none ↔ ∀ v, v < s.params.nvoice → ∃ vc, holdsVoice s v vc := by
  unfold freeSlot
  rw [List.find?_range_eq_none]
  simp only [Bool.not_not]
  exact ⟨fun h v hv => Option.isSome_iff_exists.1 (h v hv), fun h v hv => Option.isSome_iff_exists.2 (h v hv)⟩

/-- When `ENQ` passes its checks (44_mixer.md R172). -/
theorem enqCheck_ok {s : State} {v : Nat} :
    enqCheck s = .ok v ↔ ctlReservedClear s.pCtl = true ∧ enqTableOk s = true ∧ enqTimesOk s = true ∧
      isFinite s.pVolume = true ∧ enqDistOk s = true ∧ freeSlot s = some v := by
  unfold enqCheck
  cases ctlReservedClear s.pCtl <;> cases enqTableOk s <;> cases enqTimesOk s <;> cases isFinite s.pVolume <;>
    cases enqDistOk s <;> cases freeSlot s <;> simp [require]

/-- When `FILL` passes its checks (44_mixer.md R174). -/
theorem fillCheck_ok {n : Nat} {s : State} {u : Unit} :
    fillCheck n s = .ok u ↔ n ≤ s.params.sr ∧ ∀ v vc, holdsVoice s v vc → vc.offset.toNat + n < 2 ^ 32 := by
  have hov : fillOverflows s n = false ↔ ∀ v vc, holdsVoice s v vc → vc.offset.toNat + n < 2 ^ 32 := by
    unfold fillOverflows
    rw [List.any_eq_false]
    simp only [List.mem_range]
    constructor
    · intro h v vc hvc
      have := h v (liveVoice_eq_some.1 hvc).1
      unfold holdsVoice at hvc
      rw [hvc] at this
      simpa using this
    · intro h v hv
      cases hl : liveVoice s.params.nvoice s.voices v with
      | none => simp
      | some vc => simpa using h v vc hl
  rw [← lengthOperand_ok (u := ()), ← hov]
  unfold fillCheck
  cases lengthOperand s n <;> simp [require_ok]

/-- When `TSEAL` passes its checks (45_host_access.md R185). -/
theorem tsealCheck_ok {b : Nat} {s : State} {u : Unit} :
    tsealCheck b s = .ok u ↔ b < s.params.ntable ∧ isSealed s.sealFlags b = false := by
  unfold tsealCheck
  by_cases h : b < s.params.ntable <;> simp [require, h]

/-- The windows of `SCR`, `OUT` and `TBL` follow one another for every legal `SR` (20_memory.md R70). -/
theorem windows_of_legal {p : Params} (h : p.legal = true) {n : Nat} (hn : n ≤ p.sr) :
    scrBase + n ≤ outBase ∧ outBase + n ≤ tblBase := by
  simp only [Params.legal, Bool.and_eq_true, decide_eq_true_eq] at h
  simp only [scrBase, outBase, tblBase]
  omega

/-- What a command that passed its checks and completed has done, apart from the sample values: which state it wrote
and that every other byte of memory is as before. -/
def Executed : Instr → State → State → Prop
  | .osc v n, s, t => ∃ vc m, holdsVoice s v vc ∧ n ≤ s.params.sr ∧ s.offarg.toNat + n < 2 ^ 32 ∧
      t = complete (setMem m s) ∧ sameOutside scrBase n s.mem m ∧ (Memory.wf s.mem = true → Memory.wf m = true)
  | .env v n, s, t => ∃ vc m, holdsVoice s v vc ∧ n ≤ s.params.sr ∧ s.offarg.toNat + n < 2 ^ 32 ∧
      t = complete (setRstate (envTrace s.offarg.toNat vc n).state
        (setVoice v (envTrace s.offarg.toNat vc n) (setMem m s))) ∧
      sameOutside scrBase n s.mem m ∧ (Memory.wf s.mem = true → Memory.wf m = true)
  | .dist v n, s, t => ∃ vc m, holdsVoice s v vc ∧ n ≤ s.params.sr ∧
      t = complete (setMem m s) ∧ sameOutside scrBase n s.mem m ∧ (Memory.wf s.mem = true → Memory.wf m = true)
  | .vol v n, s, t => ∃ vc m, holdsVoice s v vc ∧ n ≤ s.params.sr ∧
      t = complete (setMem m s) ∧ sameOutside scrBase n s.mem m ∧ (Memory.wf s.mem = true → Memory.wf m = true)
  | .prod v n, s, t => ∃ vc m, holdsVoice s v vc ∧ n ≤ s.params.sr ∧ vc.offset.toNat + n < 2 ^ 32 ∧
      t = complete (setRstate (producedVoice n vc).state (setVoice v (producedVoice n vc) (setMem m s))) ∧
      sameOutside scrBase n s.mem m ∧ (Memory.wf s.mem = true → Memory.wf m = true)
  | .enq, s, t => ∃ v, enqCheck s = .ok v ∧ t = complete (setRslot v (setVoice v (newVoice s) s))
  | .fill n, s, t => ∃ vs m, n ≤ s.params.sr ∧ (∀ v vc, holdsVoice s v vc → vc.offset.toNat + n < 2 ^ 32) ∧
      t = complete (setVoices vs (setMem m (setRcount (countLive s.params.nvoice s.voices) s))) ∧
      (vs = if countLive s.params.nvoice s.voices = 0 then s.voices
        else removeFinished (s.voices.map (afterRender n))) ∧
      sameOutsideBuffers n s.mem m ∧ (Memory.wf s.mem = true → Memory.wf m = true)
  | .tseal b, s, t => b < s.params.ntable ∧ isSealed s.sealFlags b = false ∧ t = complete (sealBank b s)

/-- `FILL` after its checks: the whole of its effect on a state whose list of slots has the length `NVOICE`. -/
theorem fillEffect_ok {n : Nat} {s u : State} (hlen : s.voices.length = s.params.nvoice) (hl : s.params.legal = true)
    (hn : n ≤ s.params.sr) (h : fillEffect n s () = .ok u) :
    ∃ vs m, u = setVoices vs (setMem m (setRcount (countLive s.params.nvoice s.voices) s)) ∧
      (vs = if countLive s.params.nvoice s.voices = 0 then s.voices
        else removeFinished (s.voices.map (afterRender n))) ∧
      (∀ k, k < n → readOut m k = some (if countLive s.params.nvoice s.voices = 0 then fZero
        else fmul (mixSum s k s.params.nvoice) (mixScale (countLive s.params.nvoice s.voices)))) ∧
      (countLive s.params.nvoice s.voices ≠ 0 → ∀ w vc, holdsVoice s w vc →
        (∀ x, w < x → ∀ vx, ¬ holdsVoice s x vx) →
        ∀ k, k < n → readScr m k = some (voiceSample vc k (tableEntry s.params s.mem vc k))) ∧
      (countLive s.params.nvoice s.voices = 0 → sameOutside outBase n s.mem m) ∧
      sameOutsideBuffers n s.mem m ∧ (Memory.wf s.mem = true → Memory.wf m = true) := by
  obtain ⟨ws, wo⟩ := windows_of_legal hl hn
  unfold fillEffect at h
  by_cases hc : countLive s.params.nvoice s.voices = 0
  · simp only [hc, if_true, Except.ok.injEq] at h
    subst h
    refine ⟨s.voices, fillWords outBase fZero 0 n s.mem,
      by rw [hc]; rfl, by simp [hc], fun k hk => ?_, fun h' => absurd hc h', ?_⟩
    · rw [if_pos hc]
      exact fillWords_readWord outBase fZero s.mem 0 n (Nat.zero_le k) (by omega)
    · have hf : sameOutside outBase n s.mem (fillWords outBase fZero 0 n s.mem) :=
        fun x hx => fillWords_frame outBase fZero s.mem 0 n (by simpa using hx)
      exact ⟨fun _ => hf, fun x _ hx => hf x hx, fillWords_wf _ _ _ _⟩
  · simp only [hc, if_false] at h
    unfold fillMix at h
    split at h
    · cases h
    rename_i vs m hloop
    split at h
    · cases h
    rename_i m' hscale
    cases h
    have hp := fillLoop_ok (s := s) ws wo hloop
    obtain ⟨c1, c2, c3⟩ := scaleOut_ok hscale
    refine ⟨removeFinished vs, m', rfl, ?_, fun k hk => ?_, fun _ w vc hvc hlast k hk => ?_, fun h' => absurd h' hc,
      ?_, ?_⟩
    · rw [if_neg hc, ← slots_of_progress hlen hp]
    · obtain ⟨x, e1, e2⟩ := c1 k hk
      rw [hp.sums k hk] at e1
      rw [e2, if_neg hc, ← Option.some.inj e1]
    · rw [readScr_of_sameOutside_out c2 (by omega)]
      refine hp.scratch w vc (liveVoice_eq_some.1 hvc).1 hvc (fun u hu _ => ?_) k hk
      cases hu' : liveVoice s.params.nvoice s.voices u with
      | none => rfl
      | some vx => exact absurd hu' (hlast u hu vx)
    · exact fun x hx hx' => by rw [c2 x hx', hp.frame x hx hx']
    · exact fun hw => c3 (hp.canon hw)

/-- Everything a command that answers a next state can have done. -/
theorem exec_next {i : Instr} {s t : State} (hl : s.params.legal = true) (hs : shaped s) (h : exec i s = .next t) :
    (∃ c, t = refuse c s) ∨ Executed i s t := by
  cases i with
  | osc v n =>
    rcases runCommand_next.1 h with ⟨c, _, rfl⟩ | ⟨vc, u, hc, he, rfl⟩
    · exact .inl ⟨c, rfl⟩
    · obtain ⟨h1, h2, h3⟩ := oscCheck_ok.1 hc
      unfold oscEffect at he
      split at he
      · cases he
      · rename_i m hm
        cases he
        obtain ⟨_, o2, o3⟩ := oscRender_ok hm
        exact .inr ⟨vc, m, h1, h2, h3, rfl, o2, o3⟩
  | env v n =>
    rcases runCommand_next.1 h with ⟨c, _, rfl⟩ | ⟨vc, u, hc, he, rfl⟩
    · exact .inl ⟨c, rfl⟩
    · obtain ⟨h1, h2, h3, _⟩ := envCheck_ok.1 hc
      unfold envEffect at he
      split at he
      · cases he
      · rename_i vc' m hm
        cases he
        obtain ⟨o1, _, o3, o4⟩ := envApply_ok hm
        simp only [Nat.add_zero] at o1 o3
        subst o1
        exact .inr ⟨vc, m, h1, h2, h3, rfl, o3, o4⟩
  | dist v n =>
    rcases runCommand_next.1 h with ⟨c, _, rfl⟩ | ⟨vc, u, hc, he, rfl⟩
    · exact .inl ⟨c, rfl⟩
    · obtain ⟨h1, h2, _⟩ := distCheck_ok.1 hc
      unfold distEffect at he
      split at he
      · cases he
      · rename_i m hm
        cases he
        obtain ⟨_, o2, o3⟩ := mapScr_ok hm
        exact .inr ⟨vc, m, h1, h2, rfl, o2, o3⟩
  | vol v n =>
    rcases runCommand_next.1 h with ⟨c, _, rfl⟩ | ⟨vc, u, hc, he, rfl⟩
    · exact .inl ⟨c, rfl⟩
    · obtain ⟨h1, h2⟩ := volCheck_ok.1 hc
      unfold volEffect at he
      split at he
      · cases he
      · rename_i m hm
        cases he
        obtain ⟨_, o2, o3⟩ := volApply_ok hm
        exact .inr ⟨vc, m, h1, h2, rfl, o2, o3⟩
  | prod v n =>
    rcases runCommand_next.1 h with ⟨c, _, rfl⟩ | ⟨vc, u, hc, he, rfl⟩
    · exact .inl ⟨c, rfl⟩
    · obtain ⟨h1, h2, h3⟩ := prodCheck_ok.1 hc
      unfold prodEffect at he
      split at he
      · cases he
      · rename_i vc' m hm
        cases he
        obtain ⟨ws, wo⟩ := windows_of_legal hl h2
        obtain ⟨o1, _, o3, o4⟩ := produce_ok hm (by omega)
        subst o1
        exact .inr ⟨vc, m, h1, h2, h3, rfl, o3, o4⟩
  | enq =>
    rw [show exec .enq s = execEnq s from rfl, execEnq] at h
    rcases runCommand_next.1 h with ⟨c, _, rfl⟩ | ⟨v, u, hc, he, rfl⟩
    · exact .inl ⟨c, rfl⟩
    · cases he
      exact .inr ⟨v, hc, rfl⟩
  | fill n =>
    rcases runCommand_next.1 h with ⟨c, _, rfl⟩ | ⟨_, u, hc, he, rfl⟩
    · exact .inl ⟨c, rfl⟩
    · obtain ⟨h1, h2⟩ := fillCheck_ok.1 hc
      obtain ⟨vs, m, rfl, e1, _, _, _, e2, e3⟩ := fillEffect_ok hs.1 hl h1 he
      exact .inr ⟨vs, m, h1, h2, rfl, e1, e2, e3⟩
  | tseal b =>
    rw [show exec (.tseal b) s = execTseal b s from rfl, execTseal] at h
    rcases runCommand_next.1 h with ⟨c, _, rfl⟩ | ⟨_, u, hc, he, rfl⟩
    · exact .inl ⟨c, rfl⟩
    · obtain ⟨h1, h2⟩ := tsealCheck_ok.1 hc
      cases he
      exact .inr ⟨h1, h2, rfl⟩

end Sys2Proof.Machine
end

