-- ==== Sys2Proof/Laws/Checks.lean ====
section
/-! SUPPORT. The checks of each command as one code, and what a command does to the status registers (60_exceptions.md
  R201, R202, R205). -/

namespace Sys2Proof.Machine

theorem ofSlot_of_holds {s : State} {v : Nat} {vc : Voice} (h : holdsVoice s v vc) (f : Voice → Bool) : ofSlot s v f =
    f vc := by
  unfold ofSlot; rw [h]

theorem ofSlot_of_none {s : State} {v : Nat} (h : liveVoice s.params.nvoice s.voices v = none) (f : Voice → Bool) :
    ofSlot s v f = false := by
  unfold ofSlot; rw [h]

theorem voiceOperand_holds {s : State} {v : Nat} {vc : Voice} (h : holdsVoice s v vc) : voiceOperand s v = .ok vc :=
  voiceOperand_ok.2 h

theorem voiceOperand_none {s : State} {v : Nat} (h : liveVoice s.params.nvoice s.voices v = none) : voiceOperand s v =
    .error .voice := by
  unfold voiceOperand; rw [h]

/-- the checks of each command -/
def checkResult (s : State) : Instr → Option Code
  | .osc v n => match oscCheck v n s with | .error c => some c | .ok _ => none
  | .env v n => match envCheck v n s with | .error c => some c | .ok _ => none
  | .dist v n => match distCheck v n s with | .error c => some c | .ok _ => none
  | .vol v n => match volCheck v n s with | .error c => some c | .ok _ => none
  | .prod v n => match prodCheck v n s with | .error c => some c | .ok _ => none
  | .enq => match enqCheck s with | .error c => some c | .ok _ => none
  | .fill n => match fillCheck n s with | .error c => some c | .ok _ => none
  | .tseal b => match tsealCheck b s with | .error c => some c | .ok _ => none

theorem isLive_ofSlot (s : State) (v : Nat) : ofSlot s v (fun _ => true) = isLive s.params.nvoice s.voices v := by
  unfold ofSlot isLive; cases liveVoice s.params.nvoice s.voices v <;> rfl

theorem lt_flip (a b : Nat) : decide (a < b) = !decide (b ≤ a) := by
  by_cases h : b ≤ a
  · simp [h]
  · simp [h, Nat.lt_of_not_le h]

theorem le_flip (a b : Nat) : decide (a ≤ b) = !decide (b < a) := by rw [lt_flip b a, Bool.not_not]

theorem firstReason_eq (s : State) (i : Instr) : firstReason s i = checkResult s i := by
  unfold firstReason refusalReasons checkResult
  cases i with
  | osc v n =>
    cases hl : liveVoice s.params.nvoice s.voices v with
    | none => simp [ofSlot, hl, oscCheck, voiceOperand]
    | some vc =>
      simp only [ofSlot, hl, oscCheck, voiceOperand, lengthOperand, offsetOperand, require, lt_flip s.params.sr n,
        le_flip (2 ^ 32)]
      cases decide (n ≤ s.params.sr) <;> cases decide (s.offarg.toNat + n < 2 ^ 32) <;> rfl
  | env v n =>
    cases hl : liveVoice s.params.nvoice s.voices v with
    | none => simp [ofSlot, hl, envCheck, voiceOperand]
    | some vc =>
      have hb : runsBackwards vc s.offarg = ((decide (vc.state = .decay) || decide (vc.state = .release)) && decide
        (s.offarg < vc.start)) := by
        unfold runsBackwards; cases vc.state <;> simp [BitVec.lt_def]
      simp only [ofSlot, hl, ← hb]
      simp only [envCheck, hl, voiceOperand, lengthOperand, offsetOperand, require, lt_flip s.params.sr n, le_flip
        (2 ^ 32)]
      cases decide (n ≤ s.params.sr) <;> cases decide (s.offarg.toNat + n < 2 ^ 32)
        <;> cases runsBackwards vc s.offarg <;> rfl
  | dist v n =>
    cases hl : liveVoice s.params.nvoice s.voices v with
    | none => simp [ofSlot, hl, distCheck, voiceOperand]
    | some vc =>
      simp only [ofSlot, hl, distCheck, voiceOperand, lengthOperand, require, lt_flip s.params.sr n]
      cases decide (n ≤ s.params.sr) <;> cases vc.distEn <;> rfl
  | vol v n =>
    cases hl : liveVoice s.params.nvoice s.voices v with
    | none => simp [ofSlot, hl, volCheck, voiceOperand]
    | some vc =>
      simp only [ofSlot, hl, volCheck, voiceOperand, lengthOperand, require, lt_flip s.params.sr n]
      cases decide (n ≤ s.params.sr) <;> rfl
  | prod v n =>
    cases hl : liveVoice s.params.nvoice s.voices v with
    | none => simp [ofSlot, hl, prodCheck, voiceOperand]
    | some vc =>
      simp only [ofSlot, hl, prodCheck, voiceOperand, lengthOperand, offsetOperand, require, lt_flip s.params.sr n,
        le_flip (2 ^ 32)]
      cases decide (n ≤ s.params.sr) <;> cases decide (vc.offset.toNat + n < 2 ^ 32) <;> rfl
  | enq =>
    have h1 : ctlReservedClear s.pCtl = !decide (s.pCtl &&& 0xFFFFFEE0#32 ≠ 0#32) := by simp [ctlReservedClear]
    have hT : ctlTsel s.pCtl = s.pCtl.extractLsb' 0 5 := by
      apply BitVec.eq_of_toNat_eq; simp [ctlTsel]
    have h2 : enqTableOk s = !(decide (s.params.ntable ≤ (s.pCtl.extractLsb' 0 5).toNat) ||
        !s.sealFlags.getD (s.pCtl.extractLsb' 0 5).toNat false) := by
      unfold enqTableOk isSealed; rw [hT]
      rw [le_flip, Bool.not_or, Bool.not_not, Bool.not_not]
    have h3 : enqTimesOk s = !([s.pAttack, s.pDecay, s.pSustain, s.pRelease].any fun x => isnan x || isinf x || !fge x
      fZero) := by
      simp [enqTimesOk, isFiniteNonneg, Bool.and_assoc]
    have h4 : isFinite s.pVolume = !(isnan s.pVolume || isinf s.pVolume) := by simp [isFinite]
    have h5 : enqDistOk s = !(s.pCtl.getLsbD 8 && (isnan s.pCrunch || fgt s.pCrunch fOne || isnan s.pDrive || isinf
      s.pDrive ||
        !fge s.pDrive fZero)) := by
      unfold enqDistOk isFiniteNonneg ctlDistEn
      cases s.pCtl.getLsbD 8 <;> simp [Bool.and_assoc]
    have h6 : freeSlot s = none ↔ (List.range s.params.nvoice).all (fun v => ofSlot s v fun _ => true) = true := by
      unfold freeSlot
      simp only [isLive_ofSlot]
      rw [List.find?_eq_none, List.all_eq_true]
      simp
    simp only [List.find?_cons, enqCheck, h1, h2, h3, h4, h5]
    cases decide (s.pCtl &&& 0xFFFFFEE0#32 ≠ 0#32) <;> simp only [Bool.not_true, Bool.not_false, require, if_true,
      if_false, Bool.false_eq_true, Option.map_some]
    cases (decide (s.params.ntable ≤ (s.pCtl.extractLsb' 0 5).toNat) ||
        !s.sealFlags.getD (s.pCtl.extractLsb' 0 5).toNat false)
          <;> simp only [Bool.not_true, Bool.not_false, if_true, if_false, Bool.false_eq_true, Option.map_some]
    cases ([s.pAttack, s.pDecay, s.pSustain, s.pRelease].any fun x => isnan x || isinf x || !fge x fZero)
      <;> simp only [Bool.not_true, Bool.not_false, if_true, if_false, Bool.false_eq_true, Option.map_some]
    cases (isnan s.pVolume || isinf s.pVolume) <;> simp only [Bool.not_true, Bool.not_false, if_true,
      if_false, Bool.false_eq_true, Option.map_some]
    cases (s.pCtl.getLsbD 8 && (isnan s.pCrunch || fgt s.pCrunch fOne || isnan s.pDrive || isinf s.pDrive ||
        !fge s.pDrive fZero))
          <;> simp only [Bool.not_true, Bool.not_false, if_true, if_false, Bool.false_eq_true, Option.map_some]
    cases hf : freeSlot s with
    | none => rw [h6.1 hf]; rfl
    | some v =>
      have : (List.range s.params.nvoice).all (fun v => ofSlot s v fun _ => true) = false := by
        cases hx : (List.range s.params.nvoice).all (fun v => ofSlot s v fun _ => true)
        · rfl
        · rw [h6.2 hx] at hf; cases hf
      rw [this]; rfl
  | fill n =>
    have : fillOverflows s n = ((List.range s.params.nvoice).any fun v => ofSlot s v fun vc => decide
      (2 ^ 32 ≤ vc.offset.toNat + n)) := rfl
    simp only [← this, fillCheck, lengthOperand, require, lt_flip s.params.sr n]
    cases decide (n ≤ s.params.sr) <;> cases fillOverflows s n <;> rfl
  | tseal b =>
    simp only [tsealCheck, le_flip s.params.ntable b]
    change Option.map _ (List.find? _ [(!decide (b < s.params.ntable), Code.table),
      (isSealed s.sealFlags b, Code.table)]) = _
    unfold require
    cases decide (b < s.params.ntable) <;> cases isSealed s.sealFlags b <;> rfl

theorem enq_complete {s : State} {v : Nat} {u : State} (h : enqEffect s v = .ok u) : u.err = s.err := by cases h; rfl

theorem exec_checked (i : Instr) (s : State) :
    (∀ c, checkResult s i = some c → exec i s = .next (refuse c s)) ∧
    (checkResult s i = none → ∀ t, exec i s = .next t → ∃ u, t = complete u ∧ u.err = s.err) := by
  cases i with
  | osc v n =>
    refine ⟨fun c h => ?_, fun h t ht => ?_⟩ <;> simp only [checkResult] at h <;> split at h <;> cases h
    · exact runCommand_error _ _ ‹_›
    · rcases runCommand_next.1 ht with ⟨c, hc, _⟩ | ⟨vc, u, hc, he, rfl⟩
      · simp_all
      · refine ⟨u, rfl, ?_⟩; unfold oscEffect at he; split at he <;> cases he; rfl
  | env v n =>
    refine ⟨fun c h => ?_, fun h t ht => ?_⟩ <;> simp only [checkResult] at h <;> split at h <;> cases h
    · exact runCommand_error _ _ ‹_›
    · rcases runCommand_next.1 ht with ⟨c, hc, _⟩ | ⟨vc, u, hc, he, rfl⟩
      · simp_all
      · refine ⟨u, rfl, ?_⟩; unfold envEffect at he; split at he <;> cases he; rfl
  | dist v n =>
    refine ⟨fun c h => ?_, fun h t ht => ?_⟩ <;> simp only [checkResult] at h <;> split at h <;> cases h
    · exact runCommand_error _ _ ‹_›
    · rcases runCommand_next.1 ht with ⟨c, hc, _⟩ | ⟨vc, u, hc, he, rfl⟩
      · simp_all
      · refine ⟨u, rfl, ?_⟩; unfold distEffect at he; split at he <;> cases he; rfl
  | vol v n =>
    refine ⟨fun c h => ?_, fun h t ht => ?_⟩ <;> simp only [checkResult] at h <;> split at h <;> cases h
    · exact runCommand_error _ _ ‹_›
    · rcases runCommand_next.1 ht with ⟨c, hc, _⟩ | ⟨vc, u, hc, he, rfl⟩
      · simp_all
      · refine ⟨u, rfl, ?_⟩; unfold volEffect at he; split at he <;> cases he; rfl
  | prod v n =>
    refine ⟨fun c h => ?_, fun h t ht => ?_⟩ <;> simp only [checkResult] at h <;> split at h <;> cases h
    · exact runCommand_error _ _ ‹_›
    · rcases runCommand_next.1 ht with ⟨c, hc, _⟩ | ⟨vc, u, hc, he, rfl⟩
      · simp_all
      · refine ⟨u, rfl, ?_⟩; unfold prodEffect at he; split at he <;> cases he; rfl
  | enq =>
    refine ⟨fun c h => ?_, fun h t ht => ?_⟩ <;> simp only [checkResult] at h <;> split at h <;> cases h
    · rw [show exec .enq s = execEnq s from rfl, execEnq]; exact runCommand_error _ _ ‹_›
    · rw [show exec .enq s = execEnq s from rfl, execEnq] at ht
      rcases runCommand_next.1 ht with ⟨c, hc, _⟩ | ⟨vc, u, hc, he, rfl⟩
      · simp_all
      · exact ⟨u, rfl, enq_complete he⟩
  | fill n =>
    refine ⟨fun c h => ?_, fun h t ht => ?_⟩ <;> simp only [checkResult] at h <;> split at h <;> cases h
    · exact runCommand_error _ _ ‹_›
    · rcases runCommand_next.1 ht with ⟨c, hc, _⟩ | ⟨vc, u, hc, he, rfl⟩
      · simp_all
      · refine ⟨u, rfl, ?_⟩
        unfold fillEffect at he; simp only at he; split at he
        · cases he; rfl
        · unfold fillMix at he; split at he
          · cases he
          · split at he <;> cases he; rfl
  | tseal b =>
    refine ⟨fun c h => ?_, fun h t ht => ?_⟩ <;> simp only [checkResult] at h <;> split at h <;> cases h
    · rw [show exec (.tseal b) s = execTseal b s from rfl, execTseal]; exact runCommand_error _ _ ‹_›
    · rw [show exec (.tseal b) s = execTseal b s from rfl, execTseal] at ht
      rcases runCommand_next.1 ht with ⟨c, hc, _⟩ | ⟨vc, u, hc, he, rfl⟩
      · simp_all
      · cases he; exact ⟨_, rfl, rfl⟩

theorem exec_status {i : Instr} {s t : State} (h : exec i s = .next t) : (∃ c, t = refuse c s) ∨
    (t.last = okByte ∧ t.err = s.err) := by
  cases hc : checkResult s i with
  | some c => rw [(exec_checked i s).1 c hc] at h; cases h; exact .inl ⟨c, rfl⟩
  | none => obtain ⟨u, rfl, e⟩ := (exec_checked i s).2 hc t h; exact .inr ⟨rfl, e⟩

end Sys2Proof.Machine
end

