-- ==== Sys2Proof/Laws/Step.lean ====
section
/-! SUPPORT. Everything one step can do (00_scope.md R17, 45_host_access.md R186, R187). -/

namespace Sys2Proof.Machine

theorem step_idle {s : State} (h : s.pending = []) : step s = .next s := by
  unfold step nextAction
  rw [h]

theorem step_serve {s : State} {a : HostAction} {rest : List HostAction} (h : s.pending = a :: rest) :
    step s = serve a (takeAction rest s) := by
  unfold step nextAction
  rw [h]

theorem target_cmd (p : Params) : target p cmdAddr = .global .cmd := rfl

/-- A write of a command word runs the command (30_encoding.md R100). -/
theorem serve_command {w : Word} {i : Instr} {s : State} (h : decode w = .ok i) :
    serve (.write cmdAddr w) s = exec i (setRdata none s) := by
  rw [serve, busWrite, target_cmd]
  simp [writeTarget, writeGlobal, commandWrite, h]

theorem step_withFetchWord {s : State} {nbits w : Nat} {i : Instr}
    (h : decode (BitVec.ofNat 32 (w % 2 ^ nbits)) = .ok i) :
    step (s.withFetchWord nbits w) = exec i (setRdata none (takeAction s.pending (s.withFetchWord nbits w))) := by
  rw [step_serve (a := .write cmdAddr (BitVec.ofNat 32 (w % 2 ^ nbits))) (rest := s.pending) rfl, serve_command h]

/-- A write to one of the nine registers the host writes freely (10_state.md R21, R23). -/
def stagingOnly (s t : State) : Prop :=
  t = { s with pCtl := t.pCtl, pAttack := t.pAttack, pDecay := t.pDecay, pSustain := t.pSustain,
               pRelease := t.pRelease, pVolume := t.pVolume, pCrunch := t.pCrunch, pDrive := t.pDrive, offarg := t.offarg }

/-- What a served write can have done, besides running a command. -/
theorem writeTarget_next {p : Params} {addr data : Word} {s t : State} (hp : p = s.params)
    (h : writeTarget (target p addr) data s = .next t) :
    (∃ i, commandAt p addr data = some i ∧ exec i s = .next t) ∨ (∃ c, t = refuse c s) ∨ stagingOnly s t ∨
      (∃ k, k < s.params.sr ∧ t = setMem (writeWord s.mem (scrBase + k) data) s) ∨
      (∃ b i, b < s.params.ntable ∧ i < 2 * s.params.sr ∧ isSealed s.sealFlags b = false ∧
        t = setMem (writeWord s.mem (tblAddr b i) data) s) := by
  subst hp
  have hcmd : ∀ i, target s.params addr = .global .cmd → decode data = .ok i →
      commandAt s.params addr data = some i := fun i ht hd => by simp [commandAt, ht, hd]
  revert hcmd
  unfold target at h ⊢
  simp only at h ⊢
  intro hcmd
  split at h
  · split at h
    · rename_i r _
      cases r <;> simp only [writeTarget, writeGlobal, Host.Outcome.next.injEq] at h
      case cmd =>
        unfold commandWrite at h
        split at h
        · cases h
          exact .inr (.inl ⟨_, rfl⟩)
        · rename_i hlt _ hreg _ i hi
          refine .inl ⟨i, hcmd i ?_ hi, h⟩
          rw [if_pos hlt, hreg]
      all_goals subst h
      all_goals first
        | exact .inr (.inl ⟨_, rfl⟩)
        | exact .inr (.inr (.inl rfl))
    · cases h
      exact .inr (.inl ⟨_, rfl⟩)
  · split at h
    · split at h <;> (cases h; exact .inr (.inl ⟨_, rfl⟩))
    · split at h
      · rename_i hk
        cases h
        exact .inr (.inr (.inr (.inl ⟨_, by omega, rfl⟩)))
      · split at h
        · cases h
          exact .inr (.inl ⟨_, rfl⟩)
        · split at h
          · rename_i hb
            simp only [writeTarget] at h
            split at h
            · cases h
              exact .inr (.inl ⟨_, rfl⟩)
            · rename_i hs
              cases h
              exact .inr (.inr (.inr (.inr ⟨_, _, hb.2.1, hb.2.2, by simpa using hs, rfl⟩)))
          · cases h
            exact .inr (.inl ⟨_, rfl⟩)

/-- What a served read can have done: return a value, or be refused with E_ADDR and return 0. -/
theorem readTarget_next {tg : Target} {s t : State} (h : readTarget tg s = .next t) :
    (∃ r n, t = { setRdata (some r) s with freeIx := n }) ∨ t = refusedRead s := by
  unfold readTarget at h
  split at h
  · cases h
    exact .inl ⟨_, s.freeIx, rfl⟩
  · split at h
    · cases h
      exact .inl ⟨_, s.freeIx, rfl⟩
    · rename_i r _ _
      cases r <;> simp only [readInvalid] at h <;> cases h
      exact .inl ⟨_, _, rfl⟩
  all_goals first
    | (unfold readMemory at h
       split at h
       · cases h
       · cases h
         exact .inl ⟨_, s.freeIx, rfl⟩)
    | (cases h
       exact .inr rfl)

/-- Everything a served host action that answers a next state can have done. -/
theorem serve_next {a : HostAction} {s t : State} (h : serve a s = .next t) :
    (∃ i, commandOf s.params a = some i ∧ exec i (setRdata none s) = .next t) ∨
      (∃ c, t = refuse c (setRdata none s)) ∨ t = refusedRead s ∨
      stagingOnly (setRdata none s) t ∨
      (∃ k d, k < s.params.sr ∧ t = setMem (writeWord s.mem (scrBase + k) d) (setRdata none s)) ∨
      (∃ b i d, b < s.params.ntable ∧ i < 2 * s.params.sr ∧ isSealed s.sealFlags b = false ∧
        t = setMem (writeWord s.mem (tblAddr b i) d) (setRdata none s)) ∨
      (∃ r n, t = { setRdata (some r) s with freeIx := n }) ∨ (a = .reset ∧ t = hardwareReset s) := by
  cases a with
  | write addr data =>
    rcases writeTarget_next (p := s.params) (s := setRdata none s) rfl h with
      ⟨i, hc, hi⟩ | hc | hs | ⟨k, hk, e⟩ | ⟨b, i, h1, h2, h3, e⟩
    · exact .inl ⟨i, hc, hi⟩
    · exact .inr (.inl hc)
    · exact .inr (.inr (.inr (.inl hs)))
    · exact .inr (.inr (.inr (.inr (.inl ⟨k, data, hk, e⟩))))
    · exact .inr (.inr (.inr (.inr (.inr (.inl ⟨b, i, data, h1, h2, h3, e⟩)))))
  | read addr =>
    rcases readTarget_next (tg := target s.params addr) h with h' | h'
    · exact .inr (.inr (.inr (.inr (.inr (.inr (.inl h'))))))
    · exact .inr (.inr (.inl h'))
  | writeBytes addr data =>
    rw [show serve (.writeBytes addr data) s = byteBusWrite addr data s from rfl] at h
    unfold byteBusWrite at h
    split at h
    · rename_i b0 b1 b2 b3
      split at h
      · rename_i ha
        rcases writeTarget_next (p := s.params) (s := setRdata none s) rfl h with
          ⟨i, hc, hi⟩ | hc | hs | ⟨k, hk, e⟩ | ⟨b, i, h1, h2, h3, e⟩
        · exact .inl ⟨i, by rw [commandOf, if_pos ha, hc], hi⟩
        · exact .inr (.inl hc)
        · exact .inr (.inr (.inr (.inl hs)))
        · exact .inr (.inr (.inr (.inr (.inl ⟨k, _, hk, e⟩))))
        · exact .inr (.inr (.inr (.inr (.inr (.inl ⟨b, i, _, h1, h2, h3, e⟩)))))
      · cases h
        exact .inr (.inl ⟨_, rfl⟩)
    · cases h
      exact .inr (.inl ⟨_, rfl⟩)
  | readBytes addr width =>
    rw [show serve (.readBytes addr width) s = byteBusRead addr width s from rfl] at h
    unfold byteBusRead at h
    split at h
    · rcases readTarget_next (tg := target s.params (wordAddr addr)) h with h' | h'
      · exact .inr (.inr (.inr (.inr (.inr (.inr (.inl h'))))))
      · exact .inr (.inr (.inl h'))
    · cases h
      exact .inr (.inr (.inl rfl))
  | reset =>
    cases h
    exact .inr (.inr (.inr (.inr (.inr (.inr (.inr ⟨rfl, rfl⟩))))))

end Sys2Proof.Machine
end

