-- ==== Sys2Proof/Laws/Stops.lean ====
section
/-! SUPPORT. Where each loop and each command stops: at a word nothing has written (93_implementation_defined.md U4). -/

namespace Sys2Proof.Machine

/-- Where a loop over a buffer that does not complete stops. -/
theorem updateWords_error {base : Nat} {f : Nat → Word → Except Fault Word} {k c : Nat} {m : Memory} {e : Fault}
    (h : updateWords base f k c m = .error e) :
    ∃ j, k ≤ j ∧ j < k + c ∧ ((readWord m (base + j) = none ∧ e = .unwrittenWord (base + j)) ∨
      ∃ x, readWord m (base + j) = some x ∧ f j x = .error e) := by
  induction c generalizing k m with
  | zero => simp [updateWords] at h
  | succ c ih =>
    unfold updateWords at h
    split at h
    · rename_i e' he
      cases h
      obtain ⟨h1, h2⟩ := needWord_eq_error.1 he
      exact ⟨k, Nat.le_refl k, by omega, .inl ⟨h1, h2⟩⟩
    · rename_i x hx
      split at h
      · rename_i e' he
        cases h
        exact ⟨k, Nat.le_refl k, by omega, .inr ⟨x, needWord_eq_ok.1 hx, he⟩⟩
      · obtain ⟨j, h1, h2, h3⟩ := ih h
        refine ⟨j, by omega, by omega, ?_⟩
        rwa [readWord_writeWord_other _ _ (by omega)] at h3

theorem forEach_error {α : Type} {body : Nat → α → Except Fault α} (P : Nat → α → Prop) {v c : Nat} {a : α} {e : Fault}
    (h : forEach body v c a = .error e) (h0 : P v a)
    (hstep : ∀ i b b', v ≤ i → i < v + c → P i b → body i b = .ok b' → P (i + 1) b') :
    ∃ i b, v ≤ i ∧ i < v + c ∧ P i b ∧ body i b = .error e := by
  induction c generalizing v a with
  | zero => simp [forEach] at h
  | succ c ih =>
    unfold forEach at h
    split at h
    · rename_i e' he
      cases h
      exact ⟨v, a, Nat.le_refl v, by omega, h0, he⟩
    · rename_i b hb
      obtain ⟨i, x, h1, h2, h3, h4⟩ := ih h (hstep v a b (Nat.le_refl v) (by omega) h0 hb)
        fun i x x' hi hi' => hstep i x x' (by omega) (by omega)
      exact ⟨i, x, by omega, by omega, h3, h4⟩

theorem envApply_error {off k c : Nat} {vc : Voice} {m : Memory} {e : Fault} (h : envApply off k c vc m = .error e) :
    ∃ j, k ≤ j ∧ j < k + c ∧ readWord m (scrBase + j) = none ∧ e = .unwrittenWord (scrBase + j) := by
  induction c generalizing k vc m with
  | zero => simp [envApply] at h
  | succ c ih =>
    unfold envApply at h
    split at h
    · rename_i e' he
      cases h
      refine ⟨k, Nat.le_refl k, by omega, ?_⟩
      cases hr : readWord m (scrBase + k) with
      | some x => rw [envSample_of_read hr] at he; cases he
      | none =>
        have hn := needWord_eq_error.2 ⟨hr, rfl⟩
        cases hs : vc.state <;> simp [envSample, hs, hn] at he
        all_goals exact ⟨rfl, he.symm⟩
    · obtain ⟨j, h1, h2, h3, h4⟩ := ih h
      refine ⟨j, by omega, by omega, ?_, h4⟩
      rwa [readWord_writeWord_other _ _ (by omega)] at h3

theorem mapScr_error {g : Word → Word} {n : Nat} {m : Memory} {e : Fault}
    (h : updateWords scrBase (fun _ x => .ok (g x)) 0 n m = .error e) :
    ∃ j, j < n ∧ readWord m (scrBase + j) = none ∧ e = .unwrittenWord (scrBase + j) := by
  obtain ⟨j, _, h2, h3 | ⟨x, _, h3⟩⟩ := updateWords_error h
  · exact ⟨j, by omega, h3.1, h3.2⟩
  · cases h3

theorem oscRender_error {p : Params} {vc : Voice} {n off : Nat} {m : Memory} {e : Fault}
    (h : oscRender p vc n off m = .error e) : ∃ j, j < n ∧
      ((readWord m (scrBase + j) = none ∧ e = .unwrittenWord (scrBase + j)) ∨
        (readTbl m vc.tsel.toNat (oscStart p off + j) = none ∧
          e = .unwrittenWord (tblAddr vc.tsel.toNat (oscStart p off + j)))) := by
  obtain ⟨j, _, h2, h3 | ⟨x, _, h3⟩⟩ := updateWords_error h
  · exact ⟨j, by omega, .inl h3⟩
  · split at h3
    · rename_i e' he
      cases h3
      exact ⟨j, by omega, .inr (needWord_eq_error.1 he)⟩
    · cases h3

/-- `Produce` stops only where a table entry it reads has not been written. -/
theorem produce_error {p : Params} {n : Nat} {vc : Voice} {m : Memory} {e : Fault} (hn : scrBase + n ≤ tblBase)
    (h : produce p n vc m = .error e) : ∃ j, j < n ∧ readTbl m vc.tsel.toNat (oscStart p vc.offset.toNat + j) = none ∧
      e = .unwrittenWord (tblAddr vc.tsel.toNat (oscStart p vc.offset.toNat + j)) := by
  have z : sameOutside scrBase n m (fillWords scrBase fZero 0 n m) :=
    fun x hx => fillWords_frame scrBase fZero m 0 n (by simpa using hx)
  have hz : written (fillWords scrBase fZero 0 n m) scrBase n :=
    fun k hk => by rw [fillWords_readWord scrBase fZero m 0 n (Nat.zero_le k) (by omega)]; rfl
  have nowhere : ∀ {m' : Memory}, written m' scrBase n → ∀ j, j < n → readWord m' (scrBase + j) ≠ none :=
    fun hw j hj h0 => by have := hw j hj; rw [h0] at this; cases this
  unfold produce at h
  split at h
  · rename_i e1 h1
    cases h
    obtain ⟨j, hj, ⟨h2, _⟩ | ⟨h2, h3⟩⟩ := oscRender_error h1
    · exact absurd h2 (nowhere hz j hj)
    · rw [readTbl_of_sameOutside z hn] at h2
      exact ⟨j, hj, h2, h3⟩
  rename_i m1 h1
  have w1 : written m1 scrBase n := fun k hk => by
    obtain ⟨x, t, _, _, e⟩ := (oscRender_ok h1).1 k hk
    exact Option.isSome_iff_exists.2 ⟨_, e⟩
  split at h
  · rename_i e2 h2
    cases h
    obtain ⟨j, _, hj, h3, _⟩ := envApply_error h2
    exact absurd h3 (nowhere w1 j (by omega))
  rename_i vc2 m2 h2
  have w2 : written m2 scrBase n := fun k hk => by
    obtain ⟨y, _, e⟩ := (envApply_ok h2).2.1 k hk
    exact Option.isSome_iff_exists.2 ⟨y, by simpa using e⟩
  split at h
  · rename_i e3 h3
    cases h
    unfold distStep at h3
    split at h3
    · obtain ⟨j, hj, h4, _⟩ := mapScr_error h3
      exact absurd h4 (nowhere w2 j hj)
    · cases h3
  rename_i m3 h3
  have w3 : written m3 scrBase n := fun k hk => by
    obtain ⟨x, hx⟩ := Option.isSome_iff_exists.1 (w2 k hk)
    exact Option.isSome_iff_exists.2 ⟨_, (distStep_ok h3).1 k x hk hx⟩
  split at h
  · rename_i e4 h4
    cases h
    unfold volApply at h4
    split at h4
    · obtain ⟨j, hj, h5, _⟩ := mapScr_error h4
      exact absurd h5 (nowhere w3 j hj)
    · cases h4
  · cases h

/-- the table entry lies in the bank -/
theorem tblWord_of {p : Params} (hl : p.legal = true) {b i : Nat} (hb : b < p.ntable) (hi : i < 2 * p.sr) : tblWord p
    (tblAddr b i) := by
  simp only [Params.legal, Bool.and_eq_true, decide_eq_true_eq] at hl
  unfold tblWord tblAddr
  have h1 : tblBase + b * tblStride + i - tblBase = i + b * tblStride := by omega
  have h2 : i < tblStride := by unfold tblStride; omega
  rw [h1, Nat.add_mul_div_right _ _ (by decide), Nat.add_mul_mod_self_right, Nat.div_eq_of_lt h2, Nat.mod_eq_of_lt h2]
  exact ⟨by omega, by omega, hi⟩

theorem oscStart_lt {p : Params} (hl : p.legal = true) (off : Nat) : oscStart p off < p.sr := by
  simp only [Params.legal, Bool.and_eq_true, decide_eq_true_eq] at hl
  exact Nat.mod_lt _ (by omega)

theorem holds_mem {s : State} {v : Nat} {vc : Voice} (h : holdsVoice s v vc) : vc ∈ s.voices ∧ vc.valid = true := by
  obtain ⟨_, h2, h3⟩ := liveVoice_eq_some.1 h
  exact ⟨List.mem_of_getElem? h2, h3⟩

theorem tblWord_voice {s : State} (hi : blockInv s) {v : Nat} {vc : Voice} (h : holdsVoice s v vc) {off k : Nat}
    (hk : k < s.params.sr) :
    inWindow s.params (tblAddr vc.tsel.toNat (oscStart s.params off + k)) := by
  obtain ⟨hl, _, _, _, hv, _⟩ := hi
  obtain ⟨h1, h2⟩ := holds_mem h
  have := oscStart_lt hl off
  exact .inr (.inr (tblWord_of hl (hv vc h1 h2).1 (by omega)))

theorem run_dichotomy {α : Type} (check : Except Code α) (effect : α → Except Fault State) (s : State)
    (Q : Fault → Prop)
    (h : ∀ a e, check = .ok a → effect a = .error e → Q e) :
    (∃ t, runCommand check effect s = .next t) ∨ ∃ e, runCommand check effect s = .fault e ∧ Q e := by
  unfold runCommand
  cases hc : check with
  | error c => exact .inl ⟨_, rfl⟩
  | ok a =>
    cases he : effect a with
    | ok u => exact .inl ⟨complete u, by simp only [he]⟩
    | error e => exact .inr ⟨e, by simp only [he], h a e hc he⟩

end Sys2Proof.Machine
end

