-- ==== Sys2Proof/Laws/Bus.lean ====
section
/-! SUPPORT. The map of the host port by window, and what an access does to the status registers (20_memory.md R70 to
R76, 45_host_access.md R186, R187). -/

namespace Sys2Proof.Machine

theorem target_scr {p : Params} (hl : p.legal = true) {addr : Word} {k : Nat} (hk : k < p.sr)
    (h : addr.toNat = scrBase + k) : target p addr = .scr k := by
  simp only [Params.legal, Bool.and_eq_true, decide_eq_true_eq] at hl
  unfold target
  simp only [h, scrBase, outBase, voiceBase]
  rw [if_neg (by omega), if_neg (by omega), if_pos (by omega), Nat.add_sub_cancel_left]

theorem target_out {p : Params} (hl : p.legal = true) {addr : Word} {k : Nat} (hk : k < p.sr)
    (h : addr.toNat = outBase + k) : target p addr = .out k := by
  simp only [Params.legal, Bool.and_eq_true, decide_eq_true_eq] at hl
  unfold target
  simp only [h, scrBase, outBase, voiceBase]
  rw [if_neg (by omega), if_neg (by omega), if_neg (by omega), if_pos (by omega), Nat.add_sub_cancel_left]

theorem target_tbl {p : Params} (hl : p.legal = true) {addr : Word} {b i : Nat} (hb : b < p.ntable)
    (hi : i < 2 * p.sr) (h : addr.toNat = tblAddr b i) : target p addr = .tbl b i := by
  have hw := tblWord_of hl hb hi
  simp only [Params.legal, Bool.and_eq_true, decide_eq_true_eq] at hl
  have h2 : i < tblStride := by unfold tblStride; omega
  have h1 : tblAddr b i - tblBase = i + b * tblStride := by unfold tblAddr; omega
  have e1 : (tblAddr b i - tblBase) / tblStride = b := by
    rw [h1, Nat.add_mul_div_right _ _ (by decide), Nat.div_eq_of_lt h2]; omega
  have e2 : (tblAddr b i - tblBase) % tblStride = i := by
    rw [h1, Nat.add_mul_mod_self_right, Nat.mod_eq_of_lt h2]
  have h0 := hw.1
  unfold target
  simp only [h, e1, e2]
  simp only [tblBase] at h0
  rw [if_neg (by omega), if_neg (by simp only [voiceBase]; omega), if_neg (by simp only [scrBase]; omega),
    if_neg (by simp only [outBase]; omega), if_pos ⟨by simp only [tblBase]; exact h0, hb, hi⟩]

theorem target_voice {p : Params} (hl : p.legal = true) {addr : Word} {v r : Nat} {reg : VoiceReg} (hv : v < p.nvoice)
    (hr : r < 16) (hreg : voiceRegAt r = some reg)
    (h : addr.toNat = voiceBase + 16 * v + r) : target p addr = .voice v reg := by
  simp only [Params.legal, Bool.and_eq_true, decide_eq_true_eq] at hl
  unfold target
  have e1 : (voiceBase + 16 * v + r - voiceBase) / 16 = v := by omega
  have e2 : (voiceBase + 16 * v + r - voiceBase) % 16 = r := by omega
  simp only [h, e1, e2, hreg]
  rw [if_neg (by simp only [voiceBase]; omega), if_pos (by omega)]

theorem target_unmapped {p : Params} {addr : Word} (h1 : ¬ globalWord addr.toNat) (h2 : ¬ voiceWord p addr.toNat)
    (h3 : ¬ inWindow p addr.toNat) : target p addr = .unmapped := by
  unfold inWindow scrWord outWord tblWord at h3
  unfold voiceWord at h2
  unfold globalWord at h1
  push Not at h3
  obtain ⟨s1, s2, s3⟩ := h3
  unfold target
  simp only
  generalize addr.toNat = a at *
  split
  · have : globalRegAt a = none := by
      have : a = 0xC ∨ a = 0xD ∨ a = 0xE ∨ a = 0xF ∨ (0x18 ≤ a ∧ a < 0x20) := by omega
      rcases this with rfl | rfl | rfl | rfl | h
      · rfl
      · rfl
      · rfl
      · rfl
      · obtain ⟨h1, h2⟩ := h; interval_cases a <;> rfl
    rw [this]
  · split
    · rename_i hv
      have hr : 10 ≤ (a - voiceBase) % 16 := by by_contra hc; exact h2 ⟨hv.1, hv.2, by omega⟩
      have : voiceRegAt ((a - voiceBase) % 16) = none := by
        have hlt : (a - voiceBase) % 16 < 16 := Nat.mod_lt _ (by decide)
        generalize (a - voiceBase) % 16 = r at *
        interval_cases r <;> rfl
      rw [this]
    · rw [if_neg (by omega), if_neg (by omega), if_neg (by rintro ⟨a1, a2, a3⟩; have := s3 a1 a2; omega)]

theorem target_global {p : Params} {addr : Word} {r : GlobalReg} (h : globalRegAt addr.toNat = some r) : target p addr
    = .global r := by
  unfold target
  simp only
  have hlt : addr.toNat < 0x20 := by
    by_contra hc
    generalize addr.toNat = a at *
    unfold globalRegAt at h
    split at h <;> first | omega | cases h
  rw [if_pos hlt, h]

theorem step_write {s : State} {addr data : Word} {rest : List HostAction} (h : s.pending = .write addr data :: rest)
    {tg : Target} (ht : target s.params addr = tg) :
    step s = writeTarget tg data { s with pending := rest, rdata := none } := by
  subst ht; rw [step_serve h]; rfl

theorem step_read {s : State} {addr : Word} {rest : List HostAction} (h : s.pending = .read addr :: rest)
    {tg : Target} (ht : target s.params addr = tg) :
    step s = readTarget tg { s with pending := rest } := by
  subst ht; rw [step_serve h]; rfl

theorem sealBitmap_bit {nt : Nat} (hn : nt ≤ 32) (fl : List Bool) (b : Nat) (hb : b < 32) : (sealBitmap nt fl).getLsbD
    b = (decide (b < nt) && isSealed fl b) := by
  have key : ∀ n, n ≤ 32 → ∀ b, (((List.range n).map (fun b => if isSealed fl b then 2 ^ b else
    0)).sum).testBit b = (decide (b < n) && isSealed fl b) ∧
      ((List.range n).map (fun b => if isSealed fl b then 2 ^ b else 0)).sum < 2 ^ n := by
    intro n
    induction n with
    | zero => intro _ b; simp
    | succ n ih =>
      intro hn b
      have ih := ih (by omega)
      rw [List.range_succ, List.map_append, List.sum_append]
      simp only [List.map_cons, List.map_nil, List.sum_cons, List.sum_nil, Nat.add_zero]
      have hlt := (ih 0).2
      have hbit := (ih b).1
      generalize ((List.range n).map (fun b => if isSealed fl b then 2 ^ b else 0)).sum = S at *
      rw [Nat.pow_succ]
      cases hs : isSealed fl n
      · simp only [Bool.false_eq_true, if_false, Nat.add_zero]
        refine ⟨?_, by omega⟩
        rw [hbit]
        by_cases e : b = n
        · subst e; simp [hs]
        · have : (b < n + 1) ↔ b < n := by omega
          simp [this]
      · simp only [if_true]
        refine ⟨?_, by omega⟩
        rcases Nat.lt_trichotomy b n with h | h | h
        · rw [Nat.add_comm, Nat.testBit_two_pow_add_gt h, hbit]
          simp [h, show b < n + 1 by omega]
        · subst h
          rw [Nat.add_comm, Nat.testBit_two_pow_add_eq, Nat.testBit_lt_two_pow hlt]; simp [hs]
        · rw [Nat.testBit_lt_two_pow (Nat.lt_of_lt_of_le (show S + 2 ^ n < 2 ^ (n + 1)
            by rw [Nat.pow_succ]; omega) (Nat.pow_le_pow_right (by omega) h))]
          simp [show ¬ b < n + 1 by omega]
  unfold sealBitmap
  rw [BitVec.getLsbD_ofNat, (key nt hn b).1]
  simp [hb]

/-- The fields of `V_CTL` of a valid slot (10_state.md R29). -/
theorem voiceControl_bits (vc : Voice) :
    (voiceControl vc).getLsbD 0 = vc.valid ∧ (voiceControl vc).getLsbD 1 = vc.fin ∧
      (voiceControl vc).getLsbD 2 = vc.distEn ∧ (voiceControl vc).getLsbD 3 = false ∧
      (voiceControl vc).extractLsb' 4 2 = vc.state.tag ∧ (voiceControl vc).extractLsb' 6 2 = 0#2 ∧
      (voiceControl vc).extractLsb' 8 5 = vc.tsel ∧ (voiceControl vc).extractLsb' 13 19 = 0#19 := by
  have hn : (voiceControl vc).toNat =
      vc.valid.toNat + 2 * vc.fin.toNat + 4 * vc.distEn.toNat + 16 * vc.state.tag.toNat + 256 * vc.tsel.toNat := by
    unfold voiceControl
    rw [BitVec.toNat_ofNat]
    have := vc.tsel.isLt; have := vc.state.tag.isLt
    cases vc.valid <;> cases vc.fin <;> cases vc.distEn <;> simp only [Bool.toNat_true, Bool.toNat_false] <;> omega
  have bit : ∀ i b, ((voiceControl vc).toNat / 2 ^ i % 2 = b.toNat) → (voiceControl vc).getLsbD i = b := fun i b h => by
    rw [BitVec.getLsbD, Nat.testBit_eq_decide_div_mod_eq, h]; cases b <;> rfl
  have t1 := vc.tsel.isLt
  have t2 := vc.state.tag.isLt
  refine ⟨bit _ _ ?_, bit _ _ ?_, bit _ _ ?_, bit _ false ?_, ?_, ?_, ?_, ?_⟩
  all_goals try (apply BitVec.eq_of_toNat_eq; rw [BitVec.extractLsb'_toNat, Nat.shiftRight_eq_div_pow])
  all_goals rw [hn]
  all_goals try simp only [BitVec.toNat_ofNat]
  all_goals cases vc.valid <;> cases vc.fin <;> cases vc.distEn <;> simp only [Bool.toNat_true, Bool.toNat_false]
    <;> omega

/-- What a write to a staging register leaves alone (10_state.md R21, R23). -/
theorem staging_frame {s t : State} (h : stagingOnly s t) : t.params = s.params ∧ t.err = s.err ∧ t.last = s.last ∧
    t.sealFlags = s.sealFlags ∧ t.mem = s.mem ∧ t.voices = s.voices ∧ t.rslot = s.rslot ∧ t.rcount = s.rcount := by
  unfold stagingOnly at h
  refine ⟨?_, ?_, ?_, ?_, ?_, ?_, ?_, ?_⟩ <;> rw [h]

/-- What a served write that is not to `CMD` does to the status registers (60_exceptions.md R201). -/
theorem writeTarget_status {tg : Target} {data : Word} {s t : State} (h : writeTarget tg data s = .next t)
    (hn : tg ≠ .global .cmd) :
    (t.last = s.last ∧ t.err = s.err) ∨ ∃ c, (c = .addr ∨ c = .tSealed) ∧ t = refuse c s := by
  cases tg with
  | global r =>
    cases r
    case cmd => exact absurd rfl hn
    all_goals
      cases h
      first
        | exact .inl ⟨rfl, rfl⟩
        | exact .inr ⟨_, .inl rfl, rfl⟩
  | scr k => cases h; exact .inl ⟨rfl, rfl⟩
  | tbl b i =>
    simp only [writeTarget] at h
    split at h <;> cases h
    · exact .inr ⟨_, .inr rfl, rfl⟩
    · exact .inl ⟨rfl, rfl⟩
  | voice v r => cases h; exact .inr ⟨_, .inl rfl, rfl⟩
  | out k => cases h; exact .inr ⟨_, .inl rfl, rfl⟩
  | unmapped => cases h; exact .inr ⟨_, .inl rfl, rfl⟩

/-- A host action that writes a word to `CMD`, on either port, is a command write of that word (10_state.md R25). -/
theorem serve_wordToCmd {a : HostAction} {w : Word} {s : State} (h : wordToCmd s.params a = some w) :
    serve a s = commandWrite w (setRdata none s) := by
  unfold wordToCmd at h
  split at h
  · split at h
    · rename_i ht
      cases h
      simp [serve, busWrite, ht, writeTarget, writeGlobal]
    · cases h
  · split at h
    · rename_i ht
      cases h
      simp [serve, byteBusWrite, busWrite, ht.1, ht.2, writeTarget, writeGlobal]
    · cases h
  all_goals cases h

/-- A host action that writes no word to `CMD` leaves the status registers, or is refused with E_ADDR or E_TSEALED and
changes nothing else (60_exceptions.md R201, R202). -/
theorem serve_status {a : HostAction} {s t : State} (h : serve a s = .next t) (hr : a ≠ .reset)
    (hn : wordToCmd s.params a = none) :
    (t.last = s.last ∧ t.err = s.err) ∨
      ∃ c, (c = .addr ∨ c = .tSealed) ∧ t = refuse c { s with rdata := t.rdata } := by
  have rd : ∀ tg, readTarget tg s = .next t → (t.last = s.last ∧ t.err = s.err) ∨
      ∃ c, (c = .addr ∨ c = .tSealed) ∧ t = refuse c { s with rdata := t.rdata } := fun tg h => by
    rcases readTarget_next h with ⟨r, n, rfl⟩ | rfl
    · exact .inl ⟨rfl, rfl⟩
    · exact .inr ⟨_, .inl rfl, rfl⟩
  have wr : ∀ tg data, writeTarget tg data (setRdata none s) = .next t → tg ≠ .global .cmd →
      (t.last = s.last ∧ t.err = s.err) ∨
        ∃ c, (c = .addr ∨ c = .tSealed) ∧ t = refuse c { s with rdata := t.rdata } := fun tg data h hc => by
    rcases writeTarget_status h hc with h | ⟨c, h1, rfl⟩
    · exact .inl h
    · exact .inr ⟨c, h1, rfl⟩
  cases a with
  | reset => exact absurd rfl hr
  | write addr data => exact wr _ _ h fun ht => by simp [wordToCmd, ht] at hn
  | read addr => exact rd _ h
  | readBytes ba width =>
    simp only [serve, byteBusRead] at h
    split at h
    · exact rd _ h
    · cases h; exact .inr ⟨_, .inl rfl, rfl⟩
  | writeBytes ba data =>
    simp only [serve] at h
    unfold byteBusWrite at h
    split at h
    · split at h
      · rename_i ha
        exact wr _ _ h fun ht => by simp [wordToCmd, ha, ht] at hn
      · cases h; exact .inr ⟨_, .inl rfl, rfl⟩
    · cases h; exact .inr ⟨_, .inl rfl, rfl⟩

end Sys2Proof.Machine
end

