-- ==== Sys2Proof/Laws/Encoding.lean ====
section
/-! SUPPORT. The fields of a command word: packing, unpacking, and which words are no command (30_encoding.md R101,
  R105). -/

namespace Sys2Proof.Machine

theorem fields_pack {op v n : Nat} (ho : op < 16) (hv : v < 64) (hn : n < 4194304) :
    fieldOp (packFields op v n) = op ∧ fieldV (packFields op v n) = v ∧ fieldN (packFields op v n) = n := by
  simp only [fieldOp, fieldV, fieldN, packFields, BitVec.toNat_ofNat]
  omega

theorem pack_fields (w : Word) : packFields (fieldOp w) (fieldV w) (fieldN w) = w := by
  apply BitVec.eq_of_toNat_eq
  simp only [fieldOp, fieldV, fieldN, packFields, BitVec.toNat_ofNat]
  have := w.isLt
  omega

theorem fieldV_lt (w : Word) : fieldV w < 64 := by unfold fieldV; omega

theorem fieldN_lt (w : Word) : fieldN w < 4194304 := by unfold fieldN; omega

theorem fields_extract (w : Word) : fieldOp w = (w.extractLsb' 28 4).toNat ∧ fieldV w = (w.extractLsb' 22 6).toNat ∧
   fieldN w = (w.extractLsb' 0 22).toNat := by
  have := w.isLt
  simp only [fieldOp, fieldV, fieldN, BitVec.extractLsb'_toNat, Nat.shiftRight_eq_div_pow]
  refine ⟨?_, ?_, ?_⟩
  · rw [Nat.mod_eq_of_lt]; omega
  · trivial
  · simp

theorem low28 (w : Word) : w.extractLsb' 0 28 = 0#28 ↔ fieldV w = 0 ∧ fieldN w = 0 := by
  rw [← BitVec.toNat_inj]
  simp only [BitVec.extractLsb'_toNat, fieldV, fieldN, BitVec.toNat_ofNat]
  have := w.isLt
  omega

theorem decode_error_iff (w : Word) : (∃ e, decode w = .error e) ↔ illegalWord w := by
  obtain ⟨a, b, c⟩ := fields_extract w
  unfold illegalWord
  have h0 : ∀ k : Nat, k < 16 → (w.extractLsb' 28 4 = BitVec.ofNat 4 k ↔ fieldOp w = k) := by
    intro k hk; rw [a, ← BitVec.toNat_inj]; simp [Nat.mod_eq_of_lt hk]
  have hle : (0x9#4 ≤ w.extractLsb' 28 4) ↔ 9 ≤ fieldOp w := by rw [a, BitVec.le_def]; rfl
  have hV : w.extractLsb' 22 6 = 0#6 ↔ fieldV w = 0 := by rw [b, ← BitVec.toNat_inj]; rfl
  have hN : w.extractLsb' 0 22 = 0#22 ↔ fieldN w = 0 := by rw [c, ← BitVec.toNat_inj]; rfl
  have h00 := h0 0 (by omega); have h6 := h0 6 (by omega); have h7 := h0 7 (by omega); have h8 := h0 8 (by omega)
  change (w.extractLsb' 28 4 = 0x0#4 ↔ _) at h00
  change (w.extractLsb' 28 4 = 0x6#4 ↔ _) at h6
  change (w.extractLsb' 28 4 = 0x7#4 ↔ _) at h7
  change (w.extractLsb' 28 4 = 0x8#4 ↔ _) at h8
  rw [h00, h6, h7, h8, hle, Ne, Ne, Ne, low28, hV, hN]
  have hop : fieldOp w < 16 := by unfold fieldOp; have := w.isLt; omega
  unfold decode
  generalize fieldOp w = op at hop ⊢
  generalize fieldV w = v
  generalize fieldN w = n
  interval_cases op <;> simp
  · by_cases h1 : v = 0 <;> by_cases h2 : n = 0 <;> simp [h1, h2]
  · by_cases h1 : v = 0 <;> simp [h1]
  · by_cases h1 : n = 0 <;> simp [h1]

end Sys2Proof.Machine
end

