-- ==== Sys2Proof/Laws/Float.lean ====
section
/-! SUPPORT. Laws of the binary32 primitives (00_scope.md R10 to R16): exact results are kept, rounding is monotone,
signs, zeros and NaNs. -/

namespace Sys2Proof.Machine

/-! ### Patterns -/

theorem fbits_lt (w : Word) : fbits w < 2 ^ 31 := Nat.mod_lt _ (by decide)

theorem fsign_packSign {neg : Bool} {b : Nat} (h : b < 2 ^ 31) : fsign (packSign neg b) = neg := by
  cases neg <;> simp [fsign, packSign, BitVec.toNat_ofNat] <;> omega

theorem fbits_packSign {neg : Bool} {b : Nat} (h : b < 2 ^ 31) : fbits (packSign neg b) = b := by
  cases neg <;> simp [fbits, packSign, BitVec.toNat_ofNat] <;> omega

/-- A pattern is its sign and its bits 30:0. -/
theorem packSign_eq (w : Word) : packSign (fsign w) (fbits w) = w := by
  apply BitVec.eq_of_toNat_eq
  have := w.isLt
  unfold packSign fsign fbits
  rw [BitVec.toNat_ofNat]
  by_cases h : 2 ^ 31 ≤ w.toNat
  · rw [if_pos (by simpa using h)]
    omega
  · rw [if_neg (by simpa using h)]
    omega

theorem eq_of_sign_bits {a b : Word} (hs : fsign a = fsign b) (hb : fbits a = fbits b) : a = b := by
  rw [← packSign_eq a, ← packSign_eq b, hs, hb]

@[simp] theorem fsign_fneg (w : Word) : fsign (fneg w) = !fsign w := fsign_packSign (fbits_lt w)
@[simp] theorem fbits_fneg (w : Word) : fbits (fneg w) = fbits w := fbits_packSign (fbits_lt w)
@[simp] theorem fsign_fabs (w : Word) : fsign (fabs w) = false := fsign_packSign (fbits_lt w)
@[simp] theorem fbits_fabs (w : Word) : fbits (fabs w) = fbits w := fbits_packSign (fbits_lt w)
@[simp] theorem fsign_copysign (a b : Word) : fsign (copysign a b) = fsign b := fsign_packSign (fbits_lt a)
@[simp] theorem fbits_copysign (a b : Word) : fbits (copysign a b) = fbits a := fbits_packSign (fbits_lt a)
@[simp] theorem fneg_fneg (w : Word) : fneg (fneg w) = w := eq_of_sign_bits (by simp) (by simp)
@[simp] theorem isnan_fneg (w : Word) : isnan (fneg w) = isnan w := by simp [isnan]
@[simp] theorem isinf_fneg (w : Word) : isinf (fneg w) = isinf w := by simp [isinf]
@[simp] theorem iszero_fneg (w : Word) : iszero (fneg w) = iszero w := by simp [iszero]
@[simp] theorem fmag_fneg (w : Word) : fmag (fneg w) = fmag w := by simp [fmag]

@[simp] theorem fint_fneg (w : Word) : fint (fneg w) = -fint w := by cases h : fsign w <;> simp [fint, h]

theorem fsub_eq {b : Word} (a : Word) (h : isnan b = false) : fsub a b = fadd a (fneg b) := by simp [fsub, h]

/-! ### Magnitudes -/

theorem magOfBits_lt {b : Nat} (h : b < 2 ^ 23) : magOfBits b = b := by
  unfold magOfBits
  rw [if_pos (Nat.div_eq_of_lt h), Nat.mod_eq_of_lt h]

theorem magOfBits_eq_zero {b : Nat} : magOfBits b = 0 ↔ b = 0 := by
  unfold magOfBits
  split
  · omega
  · rename_i h
    constructor
    · intro h'
      have : 0 < 2 ^ (b / 2 ^ 23 - 1) := Nat.two_pow_pos _
      rcases Nat.mul_eq_zero.1 h' with h0 | h0 <;> omega
    · rintro rfl
      exact absurd rfl h

theorem fmag_eq_zero {w : Word} : fmag w = 0 ↔ iszero w = true := by
  simp [fmag, iszero, magOfBits_eq_zero]

/-! ### Rounding -/

theorem roundBits_le (num den : Nat) : roundBits num den ≤ 0x7F800000 := Nat.min_le_left _ _

theorem roundBits_lt (num den : Nat) : roundBits num den < 2 ^ 31 :=
  Nat.lt_of_le_of_lt (roundBits_le num den) (by decide)

@[simp] theorem fsign_roundTo (neg : Bool) (num den : Nat) : fsign (roundTo neg num den) = neg :=
  fsign_packSign (roundBits_lt num den)

@[simp] theorem fbits_roundTo (neg : Bool) (num den : Nat) : fbits (roundTo neg num den) = roundBits num den :=
  fbits_packSign (roundBits_lt num den)

@[simp] theorem isnan_roundTo (neg : Bool) (num den : Nat) : isnan (roundTo neg num den) = false := by
  have := roundBits_le num den
  simp [isnan]
  omega

theorem roundBits_zero (den : Nat) : roundBits 0 den = 0 := by
  unfold roundBits roundQuotient roundShift
  simp

theorem roundQuotient_exact {q d : Nat} (hd : 0 < d) : roundQuotient (q * d) d = q := by
  unfold roundQuotient
  rw [Nat.mul_div_cancel _ hd, Nat.mul_mod_left]
  rw [if_neg (by omega)]

/-- A representable value is kept by rounding, whatever the denominator it comes with. -/
theorem roundBits_exact {b d : Nat} (hb : b < 0x7F800000) (hd : 0 < d) : roundBits (magOfBits b * d) d = b := by
  unfold roundBits roundShift
  rw [Nat.mul_div_cancel _ hd]
  by_cases h : b < 2 ^ 23
  · rw [magOfBits_lt h]
    have hs : Nat.log2 b - 23 = 0 := by
      rcases Nat.eq_zero_or_pos b with rfl | hp
      · rfl
      · have := (Nat.log2_lt (by omega : b ≠ 0)).2 h
        omega
    simp only [hs, Nat.pow_zero, Nat.mul_one, Nat.zero_mul, Nat.zero_add]
    rw [roundQuotient_exact hd]
    omega
  · have he : b / 2 ^ 23 ≠ 0 := by omega
    have hm : magOfBits b = (2 ^ 23 + b % 2 ^ 23) * 2 ^ (b / 2 ^ 23 - 1) := if_neg he
    have hlog : Nat.log2 (magOfBits b) = 23 + (b / 2 ^ 23 - 1) := by
      have hpos : 0 < 2 ^ (b / 2 ^ 23 - 1) := Nat.two_pow_pos _
      have hne : magOfBits b ≠ 0 := fun h0 => by rw [magOfBits_eq_zero] at h0; omega
      have h1 : 2 ^ (23 + (b / 2 ^ 23 - 1)) ≤ magOfBits b := by
        rw [hm, Nat.pow_add]
        exact Nat.mul_le_mul_right _ (by omega)
      have h2 : magOfBits b < 2 ^ (23 + (b / 2 ^ 23 - 1) + 1) := by
        rw [hm, show 23 + (b / 2 ^ 23 - 1) + 1 = 24 + (b / 2 ^ 23 - 1) by omega, Nat.pow_add]
        exact Nat.mul_lt_mul_of_pos_right (by omega) hpos
      have := (Nat.le_log2 hne).2 h1
      have := (Nat.log2_lt hne).2 h2
      omega
    simp only [hlog, Nat.add_sub_cancel_left]
    have : roundQuotient (magOfBits b * d) (d * 2 ^ (b / 2 ^ 23 - 1)) = 2 ^ 23 + b % 2 ^ 23 := by
      rw [hm, Nat.mul_assoc, Nat.mul_comm (2 ^ _) d]
      exact roundQuotient_exact (Nat.mul_pos hd (Nat.two_pow_pos _))
    rw [this]
    omega

theorem roundQuotient_mono {a b d : Nat} (h : a ≤ b) : roundQuotient a d ≤ roundQuotient b d := by
  unfold roundQuotient
  rcases Nat.eq_zero_or_pos d with rfl | hd
  · simp only [Nat.div_zero, Nat.mod_zero]
    split <;> split <;> omega
  · have hq : a / d ≤ b / d := Nat.div_le_div_right h
    have ha := Nat.div_add_mod a d
    have hb := Nat.div_add_mod b d
    rcases Nat.lt_or_ge (a / d) (b / d) with hlt | hge
    · simp only
      split <;> split <;> omega
    · have he : a / d = b / d := Nat.le_antisymm hq hge
      rw [he] at ha
      simp only [he]
      have : a % d ≤ b % d := by omega
      split <;> split <;> omega

theorem roundQuotient_bounds (num den : Nat) :
    num / den ≤ roundQuotient num den ∧ roundQuotient num den ≤ num / den + 1 := by
  unfold roundQuotient
  simp only
  split <;> omega

/-- The significand of a value that needs a shift lies in `2^23 .. 2^24`. -/
theorem significand_bounds {n : Nat} (h : 0 < roundShift n 1) :
    2 ^ 23 ≤ roundQuotient n (2 ^ roundShift n 1) ∧ roundQuotient n (2 ^ roundShift n 1) ≤ 2 ^ 24 := by
  unfold roundShift at h ⊢
  rw [Nat.div_one] at h ⊢
  have hne : n ≠ 0 := by
    rintro rfl
    simp at h
  have hlog : n.log2 = 23 + (n.log2 - 23) := by omega
  have h1 : 2 ^ n.log2 ≤ n := (Nat.le_log2 hne).1 (Nat.le_refl _)
  have h2 : n < 2 ^ (n.log2 + 1) := (Nat.log2_lt hne).1 (Nat.lt_succ_self _)
  have hp : 0 < 2 ^ (n.log2 - 23) := Nat.two_pow_pos _
  obtain ⟨b1, b2⟩ := roundQuotient_bounds n (2 ^ (n.log2 - 23))
  have h3 : 2 ^ 23 ≤ n / 2 ^ (n.log2 - 23) := by
    rw [Nat.le_div_iff_mul_le hp, ← Nat.pow_add, ← hlog]
    exact h1
  have h4 : n / 2 ^ (n.log2 - 23) < 2 ^ 24 := by
    rw [Nat.div_lt_iff_lt_mul hp, ← Nat.pow_add, show 24 + (n.log2 - 23) = n.log2 + 1 by omega]
    exact h2
  omega

/-- Rounding a whole number of units of `2^-149` is monotone. -/
theorem roundBits_mono {a b : Nat} (h : a ≤ b) : roundBits a 1 ≤ roundBits b 1 := by
  have hs : roundShift a 1 ≤ roundShift b 1 := by
    unfold roundShift
    rw [Nat.div_one, Nat.div_one]
    rcases Nat.eq_zero_or_pos a with rfl | hp
    · simp
    · have := (Nat.le_log2 (by omega : b ≠ 0)).2 (Nat.le_trans ((Nat.le_log2 (by omega : a ≠ 0)).1 (Nat.le_refl _)) h)
      omega
  unfold roundBits
  simp only [Nat.one_mul]
  suffices roundShift a 1 * 2 ^ 23 + roundQuotient a (2 ^ roundShift a 1) ≤
      roundShift b 1 * 2 ^ 23 + roundQuotient b (2 ^ roundShift b 1) by omega
  rcases Nat.eq_or_lt_of_le hs with he | hlt
  · rw [he]
    have := roundQuotient_mono (d := 2 ^ roundShift b 1) h
    omega
  · have hb := (significand_bounds (n := b) (by omega)).1
    rcases Nat.eq_zero_or_pos (roundShift a 1) with h0 | hpos
    · have ha : roundQuotient a (2 ^ roundShift a 1) ≤ 2 ^ 24 := by
        rw [h0, Nat.pow_zero]
        unfold roundShift at h0
        rw [Nat.div_one] at h0
        have hlt : a < 2 ^ 24 := by
          rcases Nat.eq_zero_or_pos a with rfl | hp
          · decide
          · exact (Nat.log2_lt (by omega)).1 (by omega)
        have := roundQuotient_exact (q := a) (d := 1) (by decide)
        rw [Nat.mul_one] at this
        omega
      omega
    · have ha := (significand_bounds (n := a) hpos).2
      omega

/-! ### The operations -/

theorem fmag_fOne : fmag fOne = 2 ^ 149 := by decide

theorem isnan_false_lt {w : Word} (h : isnan w = false) (hi : isinf w = false) : fbits w < 0x7F800000 := by
  simp only [isnan, isinf, decide_eq_false_iff_not] at h hi
  omega

/-- A finite value rounds to itself. -/
theorem roundTo_fmag {w : Word} (h : isnan w = false) (hi : isinf w = false) {d : Nat} (hd : 0 < d) :
    roundTo (fsign w) (fmag w * d) d = w :=
  eq_of_sign_bits (by simp) (by simp [fmag, roundBits_exact (isnan_false_lt h hi) hd])

theorem packSign_inf {w : Word} (h : isinf w = true) : packSign (fsign w) 0x7F800000 = w := by
  rw [isinf, decide_eq_true_eq] at h
  rw [← h, packSign_eq]

/-- `fmul(x, 1.0) = x` for every `x` that is not NaN (43_voice.md R160, 41_envelope.md R142). -/
theorem fmul_one_right {x : Word} (h : isnan x = false) : fmul x fOne = x := by
  have h1 : isnan fOne = false := by decide
  have h2 : isinf fOne = false := by decide
  have h3 : iszero fOne = false := by decide
  have h4 : fsign fOne = false := by decide
  unfold fmul
  cases hi : isinf x
  · simp only [h, h1, h2, h3, h4, Bool.or_self, Bool.and_false, Bool.false_eq_true, if_false, Bool.bne_false,
      fmag_fOne]
    exact roundTo_fmag h hi (by decide)
  · simp only [h, h1, h2, h3, h4, Bool.or_self, Bool.and_false, Bool.false_eq_true, if_false, Bool.true_or, if_true,
      Bool.bne_false]
    exact packSign_inf hi

/-- Twice a finite value that does not overflow is representable. -/
theorem exists_double {b : Nat} (h : b < 0x7F000000) : ∃ b', b' < 0x7F800000 ∧ magOfBits b' = 2 * magOfBits b := by
  by_cases hs : b < 2 ^ 23
  · refine ⟨2 * b, by omega, ?_⟩
    rw [magOfBits_lt hs]
    by_cases h2 : 2 * b < 2 ^ 23
    · exact magOfBits_lt h2
    · have he : 2 * b / 2 ^ 23 = 1 := by omega
      unfold magOfBits
      rw [if_neg (by omega), he]
      omega
  · refine ⟨b + 2 ^ 23, by omega, ?_⟩
    have he : (b + 2 ^ 23) / 2 ^ 23 = b / 2 ^ 23 + 1 := by omega
    have hf : (b + 2 ^ 23) % 2 ^ 23 = b % 2 ^ 23 := by omega
    unfold magOfBits
    obtain ⟨e, hb⟩ : ∃ e, b / 2 ^ 23 = e + 1 := ⟨b / 2 ^ 23 - 1, by omega⟩
    rw [if_neg (by omega), if_neg (by omega), he, hf, hb, Nat.add_sub_cancel, Nat.add_sub_cancel]
    generalize b % 2 ^ 23 = f
    ring

/-- Adding a value to itself and halving gives it back, unless the sum overflows (44_mixer.md R181). -/
theorem half_double {x : Word} (h : fbits x < 0x7F000000) (hz : x ≠ fNegZero) :
    fmul (fadd x x) 0x3F000000#32 = x := by
  have hn : isnan x = false := by simp [isnan]; omega
  have hi : isinf x = false := by simp [isinf]; omega
  by_cases h0 : fbits x = 0
  · have hs : fsign x = false := by
      cases hs : fsign x with
      | false => rfl
      | true => exact absurd (eq_of_sign_bits (by rw [hs]; decide) (by rw [h0]; decide)) hz
    have : x = fZero := eq_of_sign_bits (by rw [hs]; decide) (by rw [h0]; decide)
    rw [this]
    decide
  · obtain ⟨b', hb', hm⟩ := exists_double h
    have hmag : fmag x ≠ 0 := fun e => h0 (magOfBits_eq_zero.1 e)
    have hne : fint x + fint x ≠ 0 := by unfold fint; split <;> omega
    have habs : (fint x + fint x).natAbs = magOfBits b' * 1 := by
      unfold fint
      rw [hm]
      unfold fmag
      split <;> omega
    have hneg : decide (fint x + fint x < 0) = fsign x := by
      unfold fint
      cases fsign x <;> simp
      omega
    have hsum : fadd x x = packSign (fsign x) b' := by
      unfold fadd
      simp only [hn, hi, Bool.or_self, Bool.false_eq_true, if_false]
      rw [if_neg hne, habs, hneg]
      unfold roundTo
      rw [roundBits_exact hb' (by decide)]
    have c1 : fbits (packSign (fsign x) b') = b' := fbits_packSign (by omega)
    have c2 : fsign (packSign (fsign x) b') = fsign x := fsign_packSign (by omega)
    have c3 : isnan (packSign (fsign x) b') = false := by simp [isnan, c1]; omega
    have c4 : isinf (packSign (fsign x) b') = false := by simp [isinf, c1]; omega
    have k1 : isnan 0x3F000000#32 = false := by decide
    have k2 : isinf 0x3F000000#32 = false := by decide
    have k3 : iszero 0x3F000000#32 = false := by decide
    have k4 : fsign 0x3F000000#32 = false := by decide
    have k5 : fmag 0x3F000000#32 = 2 ^ 148 := by decide
    rw [hsum]
    unfold fmul
    simp only [c2, c3, c4, k1, k2, k3, k4, k5, Bool.or_self, Bool.and_false, Bool.false_eq_true, if_false,
      Bool.bne_false]
    have hp : fmag (packSign (fsign x) b') * 2 ^ 148 = fmag x * 2 ^ 149 := by
      unfold fmag
      rw [c1, hm]
      ring
    rw [hp]
    exact roundTo_fmag hn hi (by decide)

/-- `fadd(+0.0, x)` is `x`, but for `-0.0` and NaN (40_oscillator.md R122). -/
theorem fadd_zero_left {x : Word} (h : isnan x = false) (hz : x ≠ fNegZero) : fadd fZero x = x := by
  have h1 : isnan fZero = false := by decide
  have h2 : isinf fZero = false := by decide
  have h3 : fint fZero = 0 := by decide
  have h4 : fsign fZero = false := by decide
  unfold fadd
  cases hi : isinf x
  · simp only [h, h1, h2, h3, h4, Bool.or_self, Bool.false_eq_true, if_false, Int.zero_add, Bool.false_and]
    by_cases h0 : fmag x = 0
    · have hf : fint x = 0 := by unfold fint; rw [h0]; simp
      rw [if_pos hf]
      have hb : fbits x = 0 := by rw [fmag_eq_zero] at h0; simpa [iszero] using h0
      cases hs : fsign x
      · exact (eq_of_sign_bits (by rw [hs]; decide) (by rw [hb]; decide)).symm
      · exact absurd (eq_of_sign_bits (by rw [hs]; decide) (by rw [hb]; decide)) hz
    · have hf : fint x ≠ 0 := by unfold fint; split <;> omega
      rw [if_neg hf]
      have ha : (fint x).natAbs = fmag x * 1 := by unfold fint; split <;> omega
      have hn : decide (fint x < 0) = fsign x := by
        unfold fint
        cases fsign x <;> simp
        omega
      rw [ha, hn]
      exact roundTo_fmag h hi (by decide)
  · simp [h, h1, h2]

theorem fadd_zero_negZero : fadd fZero fNegZero = fZero := by decide

/-- A product that is not NaN has the product of the signs. -/
theorem fmul_cases (a b : Word) :
    fmul a b = fNaN ∨ (isnan (fmul a b) = false ∧ fsign (fmul a b) = (fsign a != fsign b)) := by
  unfold fmul
  split
  · exact .inl rfl
  · split
    · exact .inl rfl
    · split
      · refine .inr ⟨?_, fsign_packSign (by decide)⟩
        simp [isnan, fbits_packSign (show 0x7F800000 < 2 ^ 31 by decide)]
      · exact .inr ⟨by simp, by simp⟩

/-- A product is NaN just when an operand is, or one is infinite and the other zero (R11). -/
theorem isnan_fmul (a b : Word) :
    isnan (fmul a b) = (isnan a || isnan b || (isinf a && iszero b) || (iszero a && isinf b)) := by
  have hn : isnan fNaN = true := by decide
  have hi : ∀ neg, isnan (packSign neg 0x7F800000) = false := fun neg => by
    simp [isnan, fbits_packSign (show 0x7F800000 < 2 ^ 31 by decide)]
  unfold fmul
  cases isnan a <;> cases isnan b <;> cases isinf a <;> cases isinf b <;> cases iszero a <;> cases iszero b <;>
    simp [hn, hi]

/-- A zero times a finite value is a zero (42_distortion.md R154). -/
theorem iszero_fmul {a b : Word} (ha : iszero a = true ∨ iszero b = true) (hna : isnan a = false)
    (hnb : isnan b = false)
    (hia : isinf a = false) (hib : isinf b = false) : iszero (fmul a b) = true := by
  unfold fmul
  simp only [hna, hnb, hia, hib, Bool.or_self, Bool.false_and, Bool.and_false, Bool.false_eq_true, if_false]
  have : fmag a * fmag b = 0 := by
    rcases ha with h | h
    · rw [fmag_eq_zero.2 h, Nat.zero_mul]
    · rw [fmag_eq_zero.2 h, Nat.mul_zero]
  simp [iszero, this, roundBits_zero]

theorem not_nan_of_zero {w : Word} (h : iszero w = true) : isnan w = false ∧ isinf w = false := by
  simp only [iszero, decide_eq_true_eq] at h
  simp [isnan, isinf, h]

/-- Odd symmetry of the product (42_distortion.md R155). -/
theorem fmul_fneg_left (a b : Word) (h : isnan (fmul a b) = false) : fmul (fneg a) b = fneg (fmul a b) := by
  have hx : (!fsign a) = !(fsign a) := rfl
  have hs : ∀ x y : Bool, ((!x) != y) = !(x != y) := by decide
  rw [isnan_fmul] at h
  simp only [Bool.or_eq_false_iff, Bool.and_eq_false_iff] at h
  apply eq_of_sign_bits
  · rcases fmul_cases (fneg a) b with e | ⟨_, e⟩
    · have : isnan (fmul (fneg a) b) = true := by rw [e]; decide
      rw [isnan_fmul] at this
      simp only [isnan_fneg, isinf_fneg, iszero_fneg] at this
      obtain ⟨⟨⟨h1, h2⟩, h3⟩, h4⟩ := h
      rcases h3 with h3 | h3 <;> rcases h4 with h4 | h4 <;> simp [h1, h2, h3, h4] at this
    · rcases fmul_cases a b with e' | ⟨_, e'⟩
      · have : isnan (fmul a b) = true := by rw [e']; decide
        rw [isnan_fmul] at this
        obtain ⟨⟨⟨h1, h2⟩, h3⟩, h4⟩ := h
        rcases h3 with h3 | h3 <;> rcases h4 with h4 | h4 <;> simp [h1, h2, h3, h4] at this
      · rw [e, fsign_fneg, fsign_fneg, e', hs]
  · rw [fbits_fneg]
    unfold fmul
    simp only [isnan_fneg, isinf_fneg, iszero_fneg, fmag_fneg, fsign_fneg]
    split
    · rfl
    · split
      · rfl
      · split
        · rw [fbits_packSign (by decide), fbits_packSign (by decide)]
        · simp

/-! ### Slopes and exponents -/

/-- Not NaN, and a value `>= +0.0`. -/
def nonneg (w : Word) : Prop := isnan w = false ∧ (fsign w = false ∨ iszero w = true)

theorem fge_zero {w : Word} : fge w fZero = true ↔ nonneg w := by
  have h1 : isnan fZero = false := by decide
  have h2 : fkey fZero = 0 := by decide
  unfold fge nonneg fkey iszero
  simp only [h1, Bool.and_eq_true, Bool.not_eq_true', Bool.not_false, and_true, decide_eq_true_eq]
  rw [show (if fsign fZero = true then -(fbits fZero : Int) else (fbits fZero : Int)) = 0 from h2]
  cases fsign w <;> simp

theorem isFiniteNonneg_iff {w : Word} : isFiniteNonneg w = true ↔ nonneg w ∧ isinf w = false := by
  unfold isFiniteNonneg
  rw [Bool.and_eq_true, fge_zero, Bool.and_eq_true, Bool.not_eq_true', Bool.not_eq_true']
  exact ⟨fun h => ⟨h.2, h.1.2⟩, fun h => ⟨⟨h.1.1, h.2⟩, h.1⟩⟩

/-- A product of values `>= +0.0` is one, unless it is `0 * inf`. -/
theorem nonneg_fmul {a b : Word} (ha : nonneg a) (hb : nonneg b) (h1 : isinf a = false ∨ iszero b = false)
    (h2 : iszero a = false ∨ isinf b = false) : nonneg (fmul a b) := by
  have hn : isnan (fmul a b) = false := by
    rw [isnan_fmul, ha.1, hb.1]
    rcases h1 with h1 | h1 <;> rcases h2 with h2 | h2 <;> simp [h1, h2]
  refine ⟨hn, ?_⟩
  rcases fmul_cases a b with e | ⟨_, e⟩
  · rw [e] at hn
    exact absurd hn (by decide)
  · rw [e]
    by_cases hz : iszero a = true ∨ iszero b = true
    · right
      refine iszero_fmul hz ha.1 hb.1 ?_ ?_
      · rcases hz with hz | hz
        · exact (not_nan_of_zero hz).2
        · rcases h1 with h1 | h1
          · exact h1
          · rw [hz] at h1
            cases h1
      · rcases hz with hz | hz
        · rcases h2 with h2 | h2
          · rw [hz] at h2
            cases h2
          · exact h2
        · exact (not_nan_of_zero hz).2
    · left
      rw [not_or] at hz
      rcases ha.2 with h | h
      · rcases hb.2 with h' | h'
        · rw [h, h']
          rfl
        · exact absurd h' hz.2
      · exact absurd h hz.1

/-- The reciprocal of a product `>= +0.0` is a slope (41_envelope.md R132). -/
theorem slopeOk_slopeOf {p : Word} (h : nonneg p) : slopeOk (slopeOf p) := by
  have h1 : isnan fOne = false := by decide
  have h2 : isinf fOne = false := by decide
  have h3 : iszero fOne = false := by decide
  have h4 : fsign fOne = false := by decide
  unfold slopeOf slopeOk
  cases hz : iszero p
  · have hs : fsign p = false := by
      rcases h.2 with h' | h'
      · exact h'
      · rw [hz] at h'
        cases h'
    rw [if_neg (by decide)]
    unfold fdiv
    simp only [h.1, h1, h2, h3, h4, hz, hs, Bool.or_self, Bool.false_and, Bool.false_eq_true, if_false,
      bne_self_eq_false]
    split
    · exact ⟨by decide, by decide⟩
    · exact ⟨isnan_roundTo _ _ _, fsign_roundTo _ _ _⟩
  · rw [if_pos rfl]
    exact ⟨by decide, by decide⟩

/-- `u2f` of a count from 1 to `2^20` is finite, not zero and positive. -/
theorem u2f_pos {n : Nat} (h : 0 < n) (h' : n ≤ 1048576) :
    isnan (u2f n) = false ∧ isinf (u2f n) = false ∧ iszero (u2f n) = false ∧ fsign (u2f n) = false := by
  have hb : 0x3F800000 ≤ roundBits (n * 2 ^ 149) 1 := by
    have := roundBits_mono (a := 1 * 2 ^ 149) (b := n * 2 ^ 149) (Nat.mul_le_mul_right _ h)
    have e : roundBits (1 * 2 ^ 149) 1 = 0x3F800000 := by decide
    omega
  have hb' : roundBits (n * 2 ^ 149) 1 ≤ 0x49800000 := by
    have := roundBits_mono (a := n * 2 ^ 149) (b := 1048576 * 2 ^ 149) (Nat.mul_le_mul_right _ h')
    have e : roundBits (1048576 * 2 ^ 149) 1 = 0x49800000 := by decide
    omega
  unfold u2f
  refine ⟨isnan_roundTo _ _ _, ?_, ?_, fsign_roundTo _ _ _⟩
  · rw [isinf, fbits_roundTo, decide_eq_false_iff_not]
    omega
  · rw [iszero, fbits_roundTo, decide_eq_false_iff_not]
    omega

theorem attackSlope_ok {p : Params} (hp : p.legal = true) {a : Word} (h : isFiniteNonneg a = true) :
    slopeOk (attackSlope p a) := by
  simp only [Params.legal, Bool.and_eq_true, decide_eq_true_eq] at hp
  obtain ⟨u1, u2, u3, u4⟩ := u2f_pos (n := p.sr) (by omega) (by omega)
  obtain ⟨ha, hi⟩ := isFiniteNonneg_iff.1 h
  exact slopeOk_slopeOf (nonneg_fmul ha ⟨u1, .inl u4⟩ (.inl hi) (.inr u2))

theorem fallSlope_ok {p : Params} (hp : p.legal = true) {d s : Word} (hd : isFiniteNonneg d = true)
    (hs : isFiniteNonneg s = true) : slopeOk (fallSlope p d s) := by
  simp only [Params.legal, Bool.and_eq_true, decide_eq_true_eq] at hp
  obtain ⟨u1, u2, u3, u4⟩ := u2f_pos (n := p.sr) (by omega) (by omega)
  obtain ⟨hd, hdi⟩ := isFiniteNonneg_iff.1 hd
  obtain ⟨hs, hsi⟩ := isFiniteNonneg_iff.1 hs
  exact slopeOk_slopeOf (nonneg_fmul (nonneg_fmul hd hs (.inl hdi) (.inr hsi)) ⟨u1, .inl u4⟩ (.inr u3) (.inr u2))

theorem fint_of_sign_false {w : Word} (h : fsign w = false) : fint w = (fmag w : Int) := by
  unfold fint
  rw [h]
  rfl

theorem magOfBits_mono {a b : Nat} (h : a ≤ b) (hb : b < 0x7F800000) : magOfBits a ≤ magOfBits b := by
  by_cases hle : magOfBits a ≤ magOfBits b
  · exact hle
  · have := roundBits_mono (Nat.le_of_lt (Nat.lt_of_not_le hle))
    have ea := roundBits_exact (b := a) (d := 1) (by omega) (by decide)
    have eb := roundBits_exact (b := b) (d := 1) hb (by decide)
    rw [Nat.mul_one] at ea eb
    have : a = b := by omega
    subst this
    exact Nat.le_refl _

/-- `1.0` less a value from `C001` to `1.0` lies from `+0.0` to `0x3F7D70A4` (42_distortion.md R151). -/
theorem fsub_one_bounds {c : Word} (h1 : 0x3C23D70A ≤ c.toNat) (h2 : c.toNat ≤ 0x3F800000) :
    (fsub fOne c).toNat ≤ 0x3F7D70A4 := by
  have hb : fbits c = c.toNat := Nat.mod_eq_of_lt (by omega)
  have hs : fsign c = false := by simp [fsign]; omega
  have hn : isnan c = false := by simp [isnan, hb]; omega
  have hi : isinf c = false := by simp [isinf, hb]; omega
  have o1 : isnan fOne = false := by decide
  have o2 : isinf fOne = false := by decide
  have o3 : fint fOne = 2 ^ 149 := by decide
  have o4 : fsign fOne = false := by decide
  have hm1 : fmag c ≤ 2 ^ 149 := by
    have := magOfBits_mono (a := fbits c) (b := 0x3F800000) (by omega) (by decide)
    have e : magOfBits 0x3F800000 = 2 ^ 149 := by decide
    unfold fmag
    omega
  have hm2 : magOfBits 0x3C23D70A ≤ fmag c := magOfBits_mono (by omega) (by omega)
  have hneg : fint (fneg c) = -(fmag c : Int) := by unfold fint; simp [hs]
  unfold fsub
  rw [hn, if_neg (by decide)]
  unfold fadd
  simp only [isnan_fneg, isinf_fneg, hn, hi, o1, o2, o3, o4, hneg, Bool.or_self, Bool.false_eq_true, if_false,
    Bool.false_and]
  split
  · decide
  · have habs : ((2 : Int) ^ 149 + -(fmag c : Int)).natAbs = 2 ^ 149 - fmag c := by omega
    have hneg' : decide ((2 : Int) ^ 149 + -(fmag c : Int) < 0) = false := by simp; omega
    rw [habs, hneg']
    have hle : roundBits (2 ^ 149 - fmag c) 1 ≤ 0x3F7D70A4 := by
      have := roundBits_mono (a := 2 ^ 149 - fmag c) (b := 2 ^ 149 - magOfBits 0x3C23D70A) (by omega)
      have e : roundBits (2 ^ 149 - magOfBits 0x3C23D70A) 1 = 0x3F7D70A4 := by decide
      omega
    have : (roundTo false (2 ^ 149 - fmag c) 1).toNat = roundBits (2 ^ 149 - fmag c) 1 := by
      have := roundBits_lt (2 ^ 149 - fmag c) 1
      unfold roundTo packSign
      rw [BitVec.toNat_ofNat, if_neg (by decide)]
      omega
    omega

/-- `DEXP` lies from `+0.0` to `0x3F7D70A4` (42_distortion.md R151). -/
theorem distExponent_bounds {c : Word} (hn : isnan c = false) (h : fgt c fOne = false) :
    (distExponent c).toNat ≤ 0x3F7D70A4 := by
  unfold distExponent clampCrunch
  split
  · rename_i hg
    have o1 : isnan fOne = false := by decide
    have o2 : fkey fOne = 0x3F800000 := by decide
    have o3 : isnan fC001 = false := by decide
    have o4 : fkey fC001 = 0x3C23D70A := by decide
    simp only [fgt, hn, o1, o2, Bool.not_false, Bool.true_and, decide_eq_false_iff_not] at h
    simp only [fgt, hn, o3, o4, Bool.not_false, Bool.true_and, decide_eq_true_eq] at hg
    have hs : fsign c = false := by
      cases hs : fsign c with
      | false => rfl
      | true =>
        unfold fkey at hg
        rw [hs, if_pos rfl] at hg
        omega
    have hk : fkey c = (fbits c : Int) := by unfold fkey; rw [hs]; rfl
    have hb : fbits c = c.toNat := by
      simp only [fsign, decide_eq_false_iff_not] at hs
      exact Nat.mod_eq_of_lt (by omega)
    rw [hk, hb] at h hg
    exact fsub_one_bounds (by omega) (by omega)
  · exact fsub_one_bounds (by decide) (by decide)

end Sys2Proof.Machine
end

