-- ==== Sys2Proof/Laws/Rounding.lean ====
section
/-! SUPPORT. Rounding gives the nearest binary32, and the order of patterns is the order of values (00_scope.md R11 to
  R13). -/

namespace Sys2Proof.Machine

/-- Where the exact value lies on the grid of the unit of rounding. -/
theorem roundShift_bounds {num den : Nat} (hd : 0 < den) :
    num < 2 ^ 24 * (den * 2 ^ roundShift num den) ∧
      (0 < roundShift num den → 2 ^ 23 * (den * 2 ^ roundShift num den) ≤ num) := by
  unfold roundShift
  rcases Nat.eq_zero_or_pos (num / den) with h0 | hp
  · rw [h0]
    have : num < den := by
      rcases Nat.lt_or_ge num den with h | h
      · exact h
      · have := Nat.div_pos h hd
        omega
    simp only [Nat.log2_zero]
    omega
  · have hne : num / den ≠ 0 := by omega
    have h1 : 2 ^ (num / den).log2 ≤ num / den := (Nat.le_log2 hne).1 (Nat.le_refl _)
    have h2 : num / den < 2 ^ ((num / den).log2 + 1) := (Nat.log2_lt hne).1 (Nat.lt_succ_self _)
    have e1 : 2 ^ (num / den).log2 * den ≤ num := (Nat.le_div_iff_mul_le hd).1 h1
    have e2 : num < 2 ^ ((num / den).log2 + 1) * den := (Nat.div_lt_iff_lt_mul hd).1 h2
    constructor
    · have : 2 ^ ((num / den).log2 + 1) ≤ 2 ^ (24 + ((num / den).log2 - 23)) :=
        Nat.pow_le_pow_right (by omega) (by omega)
      rw [Nat.pow_add 2 24] at this
      calc num < _ := e2
        _ ≤ 2 ^ 24 * 2 ^ ((num / den).log2 - 23) * den := Nat.mul_le_mul_right _ this
        _ = _ := by rw [Nat.mul_assoc, Nat.mul_comm den]
    · intro hs
      have : (num / den).log2 = 23 + ((num / den).log2 - 23) := by omega
      rw [this, Nat.pow_add] at e1
      rw [Nat.mul_comm den, ← Nat.mul_assoc]
      exact e1

theorem roundQuotient_range {num den : Nat} (hd : 0 < den) :
    roundQuotient num (den * 2 ^ roundShift num den) ≤ 2 ^ 24 ∧
      (0 < roundShift num den → 2 ^ 23 ≤ roundQuotient num (den * 2 ^ roundShift num den)) := by
  obtain ⟨h1, h2⟩ := roundShift_bounds (num := num) hd
  have hD : 0 < den * 2 ^ roundShift num den := Nat.mul_pos hd (Nat.two_pow_pos _)
  obtain ⟨b1, b2⟩ := roundQuotient_bounds num (den * 2 ^ roundShift num den)
  have h3 := (Nat.div_lt_iff_lt_mul hD).2 h1
  refine ⟨by omega, fun hs => ?_⟩
  have := (Nat.le_div_iff_mul_le hD).2 (h2 hs)
  omega

theorem magOfBits_grid {s r : Nat} (hr : r ≤ 2 ^ 24) (h : 0 < s → 2 ^ 23 ≤ r) :
    magOfBits (s * 2 ^ 23 + r) = r * 2 ^ s := by
  rcases Nat.lt_or_ge r (2 ^ 23) with hlt | hge
  · have : s = 0 := by
      rcases Nat.eq_zero_or_pos s with h0 | h0
      · exact h0
      · have := h h0
        omega
    subst this
    rw [Nat.zero_mul, Nat.zero_add, magOfBits_lt hlt, Nat.pow_zero, Nat.mul_one]
  · rcases Nat.eq_or_lt_of_le hr with rfl | hlt
    · have e1 : (s * 2 ^ 23 + 2 ^ 24) / 2 ^ 23 = s + 2 := by omega
      have e2 : (s * 2 ^ 23 + 2 ^ 24) % 2 ^ 23 = 0 := by omega
      unfold magOfBits
      rw [e1, e2, if_neg (by omega), show s + 2 - 1 = 1 + s by omega, Nat.pow_add, ← Nat.mul_assoc]
      norm_num
    · have e1 : (s * 2 ^ 23 + r) / 2 ^ 23 = s + 1 := by omega
      have e2 : (s * 2 ^ 23 + r) % 2 ^ 23 = r - 2 ^ 23 := by omega
      unfold magOfBits
      rw [e1, e2, if_neg (by omega), show s + 1 - 1 = s by omega, show 2 ^ 23 + (r - 2 ^ 23) = r by omega]

/-- A pattern is a multiple of `2^s`, or below `2^23 * 2^s`. -/
theorem magOfBits_multiple (b s : Nat) : (∃ c, magOfBits b = c * 2 ^ s) ∨ magOfBits b < 2 ^ 23 * 2 ^ s := by
  rcases Nat.lt_or_ge s (b / 2 ^ 23) with h | h
  · left
    unfold magOfBits
    rw [if_neg (by omega)]
    exact ⟨(2 ^ 23 + b % 2 ^ 23) * 2 ^ (b / 2 ^ 23 - 1 - s), by
      rw [Nat.mul_assoc, ← Nat.pow_add, show b / 2 ^ 23 - 1 - s + s = b / 2 ^ 23 - 1 by omega]⟩
  · right
    unfold magOfBits
    split
    · have := Nat.two_pow_pos s
      have : 2 ^ 23 * 1 ≤ 2 ^ 23 * 2 ^ s := Nat.mul_le_mul_left _ this
      omega
    · have h1 : 2 ^ (b / 2 ^ 23 - 1 + 1) ≤ 2 ^ s := Nat.pow_le_pow_right (by omega) (by omega)
      rw [Nat.pow_succ] at h1
      have h2 : (2 ^ 23 + b % 2 ^ 23) * 2 ^ (b / 2 ^ 23 - 1) < 2 ^ 24 * 2 ^ (b / 2 ^ 23 - 1) :=
        Nat.mul_lt_mul_of_pos_right (by omega) (Nat.two_pow_pos _)
      omega

/-- No whole number is nearer to `num / d` than `roundQuotient`, and of two equally near it is the even one. -/
theorem roundQuotient_nearest {num d : Nat} (hd : 0 < d) (c : Nat) :
    gap (roundQuotient num d * d) num ≤ gap (c * d) num ∧
      (gap (roundQuotient num d * d) num = gap (c * d) num → c = roundQuotient num d ∨ roundQuotient num d % 2 =
        0) := by
  have hq := Nat.div_add_mod num d
  rw [Nat.mul_comm] at hq
  have hr := Nat.mod_lt num hd
  have hc : c * d ≤ num / d * d - d ∧ c < num / d ∨ c = num / d ∨ c = num / d + 1 ∨ num / d * d + 2 * d ≤ c * d := by
    rcases Nat.lt_trichotomy c (num / d) with h | h | h
    · left
      have := Nat.mul_le_mul_right d (show c + 1 ≤ num / d by omega)
      rw [Nat.add_mul] at this
      omega
    · exact .inr (.inl h)
    · rcases Nat.eq_or_lt_of_le (show num / d + 1 ≤ c by omega) with h' | h'
      · exact .inr (.inr (.inl h'.symm))
      · have := Nat.mul_le_mul_right d (show num / d + 2 ≤ c by omega)
        rw [Nat.add_mul] at this
        exact .inr (.inr (.inr this))
  have h1 : (num / d + 1) * d = num / d * d + d := by rw [Nat.add_mul, Nat.one_mul]
  have hdd : c < num / d → d ≤ num / d * d := fun h => by
    have := Nat.mul_le_mul_right d (show 1 ≤ num / d by omega)
    omega
  unfold roundQuotient gap
  simp only
  split
  · rw [h1]
    rcases hc with ⟨h, h'⟩ | rfl | rfl | h
    · have := hdd h'
      refine ⟨by omega, by omega⟩
    · refine ⟨by omega, by omega⟩
    · exact ⟨by omega, by omega⟩
    · exact ⟨by omega, by omega⟩
  · rcases hc with ⟨h, h'⟩ | rfl | rfl | h
    · have := hdd h'
      refine ⟨by omega, by omega⟩
    · refine ⟨by omega, by omega⟩
    · rw [h1]
      exact ⟨by omega, by omega⟩
    · exact ⟨by omega, by omega⟩

theorem overflow_iff {num den : Nat} (hd : 0 < den) :
    0x7F800000 ≤ roundShift num den * 2 ^ 23 + roundQuotient num (den * 2 ^ roundShift num den) ↔
      (2 ^ 25 - 1) * 2 ^ 252 * den ≤ num := by
  obtain ⟨h1, h2⟩ := roundShift_bounds (num := num) hd
  obtain ⟨r1, r2⟩ := roundQuotient_range (num := num) hd
  generalize hs : roundShift num den = s at *
  rcases Nat.lt_trichotomy s 253 with h | h | h
  · have : 2 ^ s ≤ 2 ^ 252 := Nat.pow_le_pow_right (by omega) (by omega)
    have := Nat.mul_le_mul_left den this
    constructor
    · omega
    · intro h'
      exfalso
      generalize 2 ^ s = x at *
      omega
  · subst h
    have hD : 0 < den * 2 ^ 253 := Nat.mul_pos hd (Nat.two_pow_pos _)
    have hq := Nat.div_add_mod num (den * 2 ^ 253)
    have hr := Nat.mod_lt num hD
    have hlt := (Nat.div_lt_iff_lt_mul hD).2 h1
    have hge := (Nat.le_div_iff_mul_le hD).2 (h2 (by omega))
    unfold roundQuotient
    simp only
    constructor
    · intro h'
      split at h'
      · have : num / (den * 2 ^ 253) = 2 ^ 24 - 1 := by omega
        rw [this] at hq
        omega
      · omega
    · intro h'
      have : num / (den * 2 ^ 253) = 2 ^ 24 - 1 := by
        have : 2 ^ 24 - 1 ≤ num / (den * 2 ^ 253) := (Nat.le_div_iff_mul_le hD).2 (by omega)
        omega
      rw [this] at hq ⊢
      rw [if_pos (by omega)]
      norm_num
  · have : 2 ^ 254 ≤ 2 ^ s := Nat.pow_le_pow_right (by omega) (by omega)
    have := Nat.mul_le_mul_left den this
    have h3 := h2 (by omega)
    have h4 := r2 (by omega)
    refine ⟨fun _ => ?_, fun _ => by omega⟩
    generalize 2 ^ s = x at *
    omega

/-- `roundBits` is rounding to nearest, ties to even (00_scope.md R11). -/
theorem roundBits_isNearest {num den : Nat} (hd : 0 < den) : isNearest num den (roundBits num den) := by
  have hov := overflow_iff (num := num) hd
  obtain ⟨h1, h2⟩ := roundShift_bounds (num := num) hd
  obtain ⟨r1, r2⟩ := roundQuotient_range (num := num) hd
  have hD : 0 < den * 2 ^ roundShift num den := Nat.mul_pos hd (Nat.two_pow_pos _)
  have hn := roundQuotient_nearest (num := num) hD
  have hg := magOfBits_grid r1 r2
  have hmul := fun b => magOfBits_multiple b (roundShift num den)
  unfold isNearest roundBits
  simp only
  generalize roundQuotient num (den * 2 ^ roundShift num den) = r at *
  generalize roundShift num den = s at *
  by_cases ho : 0x7F800000 ≤ s * 2 ^ 23 + r
  · right
    exact ⟨hov.1 ho, by omega⟩
  · left
    have hno : ¬ (2 ^ 25 - 1) * 2 ^ 252 * den ≤ num := fun h => ho (hov.2 h)
    rw [show min 0x7F800000 (s * 2 ^ 23 + r) = s * 2 ^ 23 + r by omega]
    refine ⟨by omega, by omega, fun b hb => ?_⟩
    rw [hg]
    have e : ∀ c, c * 2 ^ s * den = c * (den * 2 ^ s) := fun c => by rw [Nat.mul_assoc, Nat.mul_comm (2 ^ s)]
    rw [e]
    rcases hmul b with ⟨c, hc⟩ | hlt
    · rw [hc, e]
      obtain ⟨n1, n2⟩ := hn c
      refine ⟨n1, fun heq => ?_⟩
      rcases n2 heq with rfl | hev
      · left
        have : magOfBits b = magOfBits (s * 2 ^ 23 + c) := by rw [hc, hg]
        have := congrArg (fun x => roundBits (x * 1) 1) this
        rw [roundBits_exact hb (by decide), roundBits_exact (by omega) (by decide)] at this
        exact this
      · right
        omega
    · rcases Nat.eq_zero_or_pos s with rfl | hs
      · obtain ⟨n1, n2⟩ := hn (magOfBits b)
        rw [Nat.pow_zero, Nat.mul_one] at *
        refine ⟨n1, fun heq => ?_⟩
        rcases n2 heq with h | hev
        · left
          have : magOfBits b = magOfBits (0 * 2 ^ 23 + r) := by rw [hg, h]
          have := congrArg (fun x => roundBits (x * 1) 1) this
          rw [roundBits_exact hb (by decide), roundBits_exact (by omega) (by decide)] at this
          exact this
        · right
          omega
      · have hlo := h2 hs
        obtain ⟨n1, _⟩ := hn (2 ^ 23)
        have hlt' : magOfBits b * den < 2 ^ 23 * (den * 2 ^ s) := by
          have := Nat.mul_lt_mul_of_pos_right hlt hd
          rwa [e] at this
        unfold gap at *
        exact ⟨by omega, by omega⟩

theorem finite_ne {a : Word} (h : isinf a = false) : fbits a ≠ 0x7F800000 := by simpa [isinf] using h

theorem isinf_not {a : Word} (h : isinf a = true) : isnan a = false ∧ iszero a = false := by
  simp only [isinf, isnan, iszero, decide_eq_true_eq, decide_eq_false_iff_not] at *
  omega

theorem isnan_packSign (s : Bool) {b : Nat} (h : b ≤ 0x7F800000) : isnan (packSign s b) = false := by
  simp [isnan, fbits_packSign (neg := s) (show b < 2^31 by omega)]; omega

theorem nan_fadd (a b : Word) : isnan (fadd a b) = true → fadd a b = fNaN := by
  unfold fadd
  split
  · intro _; rfl
  · rename_i h
    split
    · split
      · intro _; rfl
      · intro h'; simp_all
    · split
      · intro h'; simp_all
      · split
        · split <;> intro h' <;> exact absurd h' (by decide)
        · intro h'; simp at h'

theorem magOfBits_lt_max {b : Nat} (h : b < 0x7F800000) : magOfBits b < 2 ^ 250 * 2 ^ 27 := by
  have := magOfBits_mono (show b ≤ 0x7F7FFFFF by omega) (by decide)
  have e : magOfBits 0x7F7FFFFF < 2 ^ 250 * 2 ^ 27 := by decide
  omega

theorem magOfBits_strict {a b : Nat} (h : a < b) (hb : b < 0x7F800000) : magOfBits a < magOfBits b := by
  have := magOfBits_mono (show a ≤ b by omega) hb
  rcases Nat.lt_or_ge (magOfBits a) (magOfBits b) with h' | h'
  · exact h'
  · have e : magOfBits a = magOfBits b := by omega
    have := congrArg (fun x => roundBits (x * 1) 1) e
    rw [roundBits_exact (show a < 0x7F800000 by omega) (by decide), roundBits_exact hb (by decide)] at this
    omega

/-- The magnitude with infinity above all. -/
def orderMag (b : Nat) : Nat := if b = 0x7F800000 then 2 ^ 250 * 2 ^ 27 else magOfBits b

theorem orderMag_strict {a b : Nat} (h : a < b) (hb : b ≤ 0x7F800000) : orderMag a < orderMag b := by
  unfold orderMag
  rw [if_neg (by omega)]
  split
  · exact magOfBits_lt_max (by omega)
  · exact magOfBits_strict h (by omega)

theorem orderMag_le {a b : Nat} (ha : a ≤ 0x7F800000) (hb : b ≤ 0x7F800000) : orderMag a ≤ orderMag b ↔ a ≤ b := by
  rcases Nat.lt_trichotomy a b with h | h | h
  · have := orderMag_strict h hb; omega
  · subst h; simp
  · have := orderMag_strict h ha; omega

theorem orderValue_eq (w : Word) : orderValue w = if fsign w then -(orderMag (fbits w) : Int) else
    (orderMag (fbits w) : Int) := by
  unfold orderValue orderMag fint fmag
  by_cases h : fbits w = 0x7F800000
  · simp [isinf, h]
  · simp [isinf, h]

theorem orderMag_zero : orderMag 0 = 0 := by decide

theorem fkey_le {a b : Word} (ha : isnan a = false) (hb : isnan b = false) : fkey a ≤ fkey b ↔ orderValue a ≤
    orderValue b := by
  simp only [isnan, decide_eq_false_iff_not, Nat.not_lt] at ha hb
  rw [orderValue_eq, orderValue_eq]
  unfold fkey
  have h := orderMag_le ha hb
  have h' := orderMag_le hb ha
  have z := orderMag_zero
  have p1 : 0 < fbits a → 0 < orderMag (fbits a) := fun h => by have := orderMag_strict h ha; omega
  have p2 : 0 < fbits b → 0 < orderMag (fbits b) := fun h => by have := orderMag_strict h hb; omega
  have q1 : fbits a = 0 → orderMag (fbits a) = 0 := fun h => by rw [h]; exact z
  have q2 : fbits b = 0 → orderMag (fbits b) = 0 := fun h => by rw [h]; exact z
  generalize orderMag (fbits a) = x at *
  generalize orderMag (fbits b) = y at *
  cases fsign a <;> cases fsign b <;> simp only [if_true, if_false, Bool.false_eq_true] <;> omega

theorem u2f_exact {n : Nat} (h : n ≤ 2 ^ 24) : magOfBits (roundBits (n * 2 ^ 149) 1) = n * 2 ^ 149 := by
  have hdvd : ∃ c, n * 2 ^ 149 = c * (1 * 2 ^ roundShift (n * 2 ^ 149) 1) := by
    obtain ⟨h1, h2⟩ := roundShift_bounds (num := n * 2 ^ 149) (den := 1) (by decide)
    generalize roundShift (n * 2 ^ 149) 1 = s at *
    rcases Nat.lt_or_ge 149 s with hs | hs
    · have h3 := h2 (by omega)
      have : 2 ^ 150 ≤ 2 ^ s := Nat.pow_le_pow_right (by omega) (by omega)
      have hs' : s = 150 := by
        rcases Nat.eq_or_lt_of_le (show 150 ≤ s by omega) with e | e
        · exact e.symm
        · have : 2 ^ 151 ≤ 2 ^ s := Nat.pow_le_pow_right (by omega) (by omega)
          omega
      subst hs'
      have : n = 2 ^ 24 := by omega
      subst this
      exact ⟨2 ^ 23, by norm_num⟩
    · exact ⟨n * 2 ^ (149 - s), by rw [Nat.one_mul, Nat.mul_assoc, ← Nat.pow_add, show 149 - s + s = 149 by omega]⟩
  obtain ⟨c, hc⟩ := hdvd
  obtain ⟨r1, r2⟩ := roundQuotient_range (num := n * 2 ^ 149) (den := 1) (by decide)
  have hg := magOfBits_grid r1 r2
  have hq : roundQuotient (n * 2 ^ 149) (1 * 2 ^ roundShift (n * 2 ^ 149) 1) = c := by
    conv => lhs; arg 1; rw [hc]
    exact roundQuotient_exact (by have := Nat.two_pow_pos (roundShift (n * 2 ^ 149) 1); omega)
  rw [hq] at hg
  have hno := mt (overflow_iff (num := n * 2 ^ 149) (den := 1) (by decide)).1 (by omega)
  unfold roundBits
  simp only
  rw [hq] at hno ⊢
  rw [Nat.min_eq_right (by omega), hg]
  rw [Nat.one_mul] at hc
  exact hc.symm

theorem u2f_lt {n : Nat} (hn : n < 2 ^ 32) : roundBits (n * 2 ^ 149) 1 < 0x7F800000 := by
  have h := mt (overflow_iff (num := n * 2 ^ 149) (den := 1) (by decide)).1 (by omega)
  unfold roundBits
  simp only
  omega

end Sys2Proof.Machine
end

