-- ==== Sys2Proof/Laws/Slots.lean ====
section
/-! SUPPORT. What one step can do to a voice slot (10_state.md R28, R30, R31). -/

namespace Sys2Proof.Machine

/-- What an access that runs no command can have done: apart from memory, the status codes, the staging registers and
the model's own fields the state is as before. -/
def quiet (s t : State) : Prop :=
  t.params = s.params ∧ t.voices = s.voices ∧ t.sealFlags = s.sealFlags ∧ t.rstate = s.rstate ∧ t.rslot = s.rslot ∧
    t.rcount = s.rcount

/-- A step is quiet, runs a command, or is the reset input. -/
theorem step_cases {s t : State} (h : step s = .next t) (hr : noReset s) :
    quiet s t ∨ ∃ i s0, nextCommand s = some i ∧ exec i s0 = .next t ∧ s0 = { s with pending := s0.pending, rdata :=
      none } := by
  cases hp : s.pending with
  | nil => rw [step_idle hp] at h; cases h; exact .inl ⟨rfl, rfl, rfl, rfl, rfl, rfl⟩
  | cons a rest =>
    rw [step_serve hp] at h
    have hn : nextCommand s = commandOf s.params a := by unfold nextCommand; rw [hp]
    have hr' : a ≠ .reset := by unfold noReset at hr; rw [hp] at hr; exact hr
    rcases serve_next h with ⟨i, h1, h2⟩ | ⟨c, rfl⟩ | rfl | h1 | ⟨k, d, _, rfl⟩ | ⟨b, i, d, _, _, _, rfl⟩ | ⟨r, n,
      rfl⟩ | ⟨h1, _⟩
    · exact .inr ⟨i, _, by rw [hn]; exact h1, h2, rfl⟩
    · exact .inl ⟨rfl, rfl, rfl, rfl, rfl, rfl⟩
    · exact .inl ⟨rfl, rfl, rfl, rfl, rfl, rfl⟩
    · unfold stagingOnly at h1; rw [h1]; exact .inl ⟨rfl, rfl, rfl, rfl, rfl, rfl⟩
    · exact .inl ⟨rfl, rfl, rfl, rfl, rfl, rfl⟩
    · exact .inl ⟨rfl, rfl, rfl, rfl, rfl, rfl⟩
    · exact .inl ⟨rfl, rfl, rfl, rfl, rfl, rfl⟩
    · exact absurd h1 hr'

theorem liveVoice_set {nv : Nat} {vs : List Voice} {v w : Nat} {vc vc' : Voice} (h : liveVoice nv vs v = some vc)
    (hv : vc'.valid = true) : liveVoice nv (vs.set v vc') w = if w = v then some vc' else liveVoice nv vs w := by
  by_cases e : w = v
  · subst e
    rw [if_pos rfl, liveVoice_set_self h hv]
  · rw [if_neg e, liveVoice_set_other _ e]

/-- The slots after the removal of FILL step 4 (44_mixer.md R177). -/
theorem liveVoice_removeFinished {nv n : Nat} (vs : List Voice) (v : Nat) :
    liveVoice nv (removeFinished (vs.map (afterRender n))) v =
      match liveVoice nv vs v with
      | none => none
      | some vc => if (producedVoice n vc).fin then none else some (producedVoice n vc) := by
  unfold liveVoice removeFinished
  by_cases hv : v < nv
  · simp only [hv, if_true, List.getElem?_map]
    cases vs[v]? with
    | none => rfl
    | some vc =>
      simp only [Option.map_some]
      cases hval : vc.valid
      · simp [afterRender, hval]
      · have hp := producedVoice_valid n vc
        cases hf : (producedVoice n vc).fin <;> simp [afterRender, hval, hp, hf]
  · simp [hv]

/-- Everything a command can do to a slot that holds a voice. -/
theorem exec_live {i : Instr} {s t : State} (hl : s.params.legal = true) (hs : shaped s) (h : exec i s = .next t)
    {v : Nat} {vc : Voice} (hv : holdsVoice s v vc) :
    holdsVoice t v vc ∨
      (∃ n, i = .env v n ∧ s.offarg.toNat + n < 2 ^ 32 ∧ holdsVoice t v (envTrace s.offarg.toNat vc n)) ∨
      (∃ n, i = .prod v n ∧ vc.offset.toNat + n < 2 ^ 32 ∧ holdsVoice t v (producedVoice n vc)) ∨
      ∃ n, i = .fill n ∧ vc.offset.toNat + n < 2 ^ 32 ∧
        liveVoice t.params.nvoice t.voices v = if (producedVoice n vc).fin then none else some (producedVoice n
          vc) := by
  have hval := (liveVoice_eq_some.1 hv).2.2
  rcases exec_next hl hs h with ⟨c, rfl⟩ | hx
  · exact .inl hv
  cases i with
  | osc w n => obtain ⟨_, m, _, _, _, rfl, _⟩ := hx; exact .inl hv
  | dist w n => obtain ⟨_, m, _, _, rfl, _⟩ := hx; exact .inl hv
  | vol w n => obtain ⟨_, m, _, _, rfl, _⟩ := hx; exact .inl hv
  | tseal b => obtain ⟨_, _, rfl⟩ := hx; exact .inl hv
  | enq =>
    obtain ⟨w, hc, rfl⟩ := hx
    have hw := (freeSlot_eq_some.1 (enqCheck_ok.1 hc).2.2.2.2.2).2.1
    left
    have : v ≠ w := fun e => hw vc (e ▸ hv)
    simpa [holdsVoice, setVoice, setRslot, complete, liveVoice_set_other _ this] using hv
  | env w n =>
    obtain ⟨vw, m, hw, _, ho, rfl, _⟩ := hx
    by_cases e : v = w
    · subst e
      have := holdsVoice_unique hv hw; subst this
      exact .inr (.inl ⟨n, rfl, ho, liveVoice_set_self hv (by simpa using hval)⟩)
    · left
      simpa [holdsVoice, setVoice, setRstate, setMem, complete, liveVoice_set_other _ e] using hv
  | prod w n =>
    obtain ⟨vw, m, hw, _, ho, rfl, _⟩ := hx
    by_cases e : v = w
    · subst e
      have := holdsVoice_unique hv hw; subst this
      exact .inr (.inr (.inl ⟨n, rfl, ho, liveVoice_set_self hv (by rw [producedVoice_valid]; exact hval)⟩))
    · left
      simpa [holdsVoice, setVoice, setRstate, setMem, complete, liveVoice_set_other _ e] using hv
  | fill n =>
    obtain ⟨vs, m, _, ho, rfl, hvs, _⟩ := hx
    refine .inr (.inr (.inr ⟨n, rfl, ho v vc hv, ?_⟩))
    have hcnt : countLive s.params.nvoice s.voices ≠ 0 := by
      unfold countLive
      rw [Ne, List.countP_eq_zero]
      intro hz
      have := hz v (List.mem_range.2 (liveVoice_eq_some.1 hv).1)
      unfold isLive at this
      rw [hv] at this
      exact this rfl
    rw [if_neg hcnt] at hvs
    change liveVoice s.params.nvoice vs v = _
    rw [hvs, liveVoice_removeFinished, hv]

/-- A slot that holds no voice gets one only from `ENQ` (10_state.md R30). -/
theorem exec_free {i : Instr} {s t : State} (hl : s.params.legal = true) (hs : shaped s) (h : exec i s = .next t)
    {v : Nat} {vc' : Voice} (hn : liveVoice s.params.nvoice s.voices v = none) (hv : holdsVoice t v vc') :
    i = .enq ∧ t.rslot = BitVec.ofNat 6 v ∧ v < s.params.nvoice ∧ vc' = newVoice s := by
  have no : ¬ holdsVoice s v vc' := by unfold holdsVoice; rw [hn]; simp
  rcases exec_next hl hs h with ⟨c, rfl⟩ | hx
  · exact absurd hv no
  cases i with
  | osc w n => obtain ⟨_, m, _, _, _, rfl, _⟩ := hx; exact absurd hv no
  | dist w n => obtain ⟨_, m, _, _, rfl, _⟩ := hx; exact absurd hv no
  | vol w n => obtain ⟨_, m, _, _, rfl, _⟩ := hx; exact absurd hv no
  | tseal b => obtain ⟨_, _, rfl⟩ := hx; exact absurd hv no
  | enq =>
    obtain ⟨w, hc, rfl⟩ := hx
    obtain ⟨hlt, hw, _⟩ := freeSlot_eq_some.1 (enqCheck_ok.1 hc).2.2.2.2.2
    by_cases e : v = w
    · subst e
      refine ⟨rfl, rfl, hlt, ?_⟩
      have := (liveVoice_eq_some.1 hv).2.1
      change (s.voices.set v (newVoice s))[v]? = _ at this
      rw [List.getElem?_set_self (by rw [hs.1]; exact hlt)] at this
      exact (Option.some.inj this).symm
    · exact absurd (by simpa [holdsVoice, setVoice, setRslot, complete, liveVoice_set_other _ e] using hv) no
  | env w n =>
    obtain ⟨vw, m, hw, _, ho, rfl, _⟩ := hx
    have e : v ≠ w := fun e => by subst e; rw [hw] at hn; cases hn
    exact absurd (by simpa [holdsVoice, setVoice, setRstate, setMem, complete, liveVoice_set_other _ e] using hv) no
  | prod w n =>
    obtain ⟨vw, m, hw, _, ho, rfl, _⟩ := hx
    have e : v ≠ w := fun e => by subst e; rw [hw] at hn; cases hn
    exact absurd (by simpa [holdsVoice, setVoice, setRstate, setMem, complete, liveVoice_set_other _ e] using hv) no
  | fill n =>
    obtain ⟨vs, m, _, ho, rfl, hvs, _⟩ := hx
    split at hvs
    · subst hvs; exact absurd hv no
    · change liveVoice s.params.nvoice vs v = _ at hv
      rw [hvs, liveVoice_removeFinished, hn] at hv
      cases hv

/-- Everything one step can do to a slot that holds a voice. -/
theorem step_live {s t : State} (hl : s.params.legal = true) (hs : shaped s) (h : step s = .next t) (hr : noReset s)
    {v : Nat} {vc : Voice} (hv : holdsVoice s v vc) :
    holdsVoice t v vc ∨
      (∃ n, nextCommand s = some (.env v n) ∧ s.offarg.toNat + n < 2 ^ 32 ∧
        holdsVoice t v (envTrace s.offarg.toNat vc n)) ∨
      (∃ n, nextCommand s = some (.prod v n) ∧ vc.offset.toNat + n < 2 ^ 32 ∧ holdsVoice t v (producedVoice n vc)) ∨
      ∃ n, nextCommand s = some (.fill n) ∧ vc.offset.toNat + n < 2 ^ 32 ∧
        liveVoice t.params.nvoice t.voices v = if (producedVoice n vc).fin then none else some (producedVoice n
          vc) := by
  rcases step_cases h hr with ⟨h1, h2, _⟩ | ⟨i, s0, hn, he, h0⟩
  · left; unfold holdsVoice; rw [h1, h2]; exact hv
  · rw [h0] at he
    have := exec_live (s := { s with pending := s0.pending, rdata := none }) hl hs he hv
    rcases this with h | ⟨n, rfl, h⟩ | ⟨n, rfl, h⟩ | ⟨n, rfl, h⟩
    · exact .inl h
    · exact .inr (.inl ⟨n, hn, h⟩)
    · exact .inr (.inr (.inl ⟨n, hn, h⟩))
    · exact .inr (.inr (.inr ⟨n, hn, h⟩))

theorem step_free {s t : State} (hl : s.params.legal = true) (hs : shaped s) (h : step s = .next t) (hr : noReset s)
    {v : Nat} {vc' : Voice} (hn : liveVoice s.params.nvoice s.voices v = none) (hv : holdsVoice t v vc') :
    nextCommand s = some .enq ∧ t.rslot = BitVec.ofNat 6 v ∧ v < s.params.nvoice ∧ vc' = newVoice s := by
  rcases step_cases h hr with ⟨h1, h2, _⟩ | ⟨i, s0, hc, he, h0⟩
  · unfold holdsVoice at hv; rw [h1, h2, hn] at hv; cases hv
  · rw [h0] at he
    obtain ⟨rfl, h1, h2, h3⟩ := exec_free (s := { s with pending := s0.pending, rdata := none }) hl hs he hn hv
    exact ⟨hc, h1, h2, h3⟩

end Sys2Proof.Machine
end

