-- ==== Sys2Proof/Laws/Runs.lean ====
section
/-! SUPPORT. What each command does when it completes, as one equation, and the phases along a buffer. -/

namespace Sys2Proof.Machine

/-- OSC as one equation -/
theorem osc_runs {s : State} {v n : Nat} {vc : Voice} (hv : holdsVoice s v vc) (h1 : n ≤ s.params.sr)
    (h2 : s.offarg.toNat + n < 2 ^ 32)
    (h3 : written s.mem scrBase n) (h4 : tableWritten s.params vc n s.offarg.toNat s.mem) :
    ∃ m, exec (.osc v n) s = .next { s with mem := m, last := okByte } ∧
      (∀ k, k < n → ∃ x t, readScr s.mem k = some x ∧ readTbl s.mem vc.tsel.toNat
        (oscStart s.params s.offarg.toNat + k) = some t ∧
        readScr m k = some (fadd x t)) ∧ sameOutside scrBase n s.mem m := by
  obtain ⟨m, hm⟩ := oscRender_completes h3 h4
  obtain ⟨o1, o2, _⟩ := oscRender_ok hm
  exact ⟨m, runCommand_ok s (oscCheck_ok.2 ⟨hv, h1, h2⟩) (effect := oscEffect n s) (u := setMem m s)
    (by unfold oscEffect; rw [hm]), o1, o2⟩

theorem mod_split {off N sr : Nat} (h : off % sr + N < sr) : (off + N) % sr = off % sr + N := by
  rw [Nat.add_mod, Nat.mod_eq_of_lt (a := N) (by omega), Nat.mod_eq_of_lt h]

/-- the entry read by the second call -/
theorem split_entry {p : Params} {m : Memory} {b off N j : Nat} (hN : N + j < p.sr)
    (h : off % p.sr + N < p.sr ∨ periodicBank p m b) :
    readTbl m b (oscStart p (off + N) + j) = readTbl m b (oscStart p off + (N + j)) := by
  unfold oscStart
  by_cases hc : off % p.sr + N < p.sr
  · rw [mod_split hc, Nat.add_assoc]
  · rcases h with h | h
    · exact absurd h hc
    · have hlt : off % p.sr < p.sr := Nat.mod_lt _ (by omega)
      have e : (off + N) % p.sr = off % p.sr + N - p.sr := by
        rw [Nat.add_mod, Nat.mod_eq_of_lt (a := N)
          (by omega), Nat.mod_eq_sub_mod (by omega), Nat.mod_eq_of_lt (by omega)]
      rw [e]
      have := h (off % p.sr + N - p.sr + j) (by omega)
      rw [← this]; congr 1; omega

theorem runsBackwards_iff {vc : Voice} {off : Word} : runsBackwards vc off = false ↔
    (vc.state = .decay ∨ vc.state = .release → vc.start ≤ off) := by
  unfold runsBackwards
  cases vc.state <;> simp [BitVec.le_def]

theorem env_runs {s : State} {v n : Nat} {vc : Voice} (hv : holdsVoice s v vc) (h1 : n ≤ s.params.sr)
    (h2 : s.offarg.toNat + n < 2 ^ 32)
    (h3 : vc.state = .decay ∨ vc.state = .release → vc.start ≤ s.offarg)
    (h4 : ∀ k, k < n → (envTrace s.offarg.toNat vc k).state = .done ∨ (readScr s.mem k).isSome = true) :
    ∃ m, exec (.env v n) s = .next { s with
            mem := m, voices := s.voices.set v (envTrace s.offarg.toNat vc n),
            rstate := (envTrace s.offarg.toNat vc n).state.tag, last := okByte } ∧
          (∀ k, k < n → (envTrace s.offarg.toNat vc k).state = .done → readScr m k = some fZero) ∧
          (∀ k x, k < n → readScr s.mem k = some x →
            readScr m k = some (envOutput (envTrace s.offarg.toNat vc k) (s.offarg.toNat + k) x)) ∧
          sameOutside scrBase n s.mem m := by
  obtain ⟨⟨vc', m⟩, hm⟩ := envApply_completes s.offarg.toNat 0 n vc s.mem fun j hj => by
    simp only [Nat.add_zero, Nat.zero_add]
    rcases h4 j hj with h | h
    · exact .inl h
    · exact .inr (Option.isSome_iff_exists.1 h)
  obtain ⟨o1, o2, o3, _⟩ := envApply_ok hm
  simp only [Nat.add_zero, Nat.zero_add] at o1 o2 o3
  subst o1
  refine ⟨m, runCommand_ok s (envCheck_ok.2 ⟨hv, h1, h2, runsBackwards_iff.2 h3⟩) (effect := envEffect v n s)
    (u := setRstate (envTrace s.offarg.toNat vc n).state (setVoice v (envTrace s.offarg.toNat vc n)
      (setMem m s))) (by unfold envEffect; rw [hm]), fun k hk hd => ?_, fun k x hk hx => ?_, o3⟩
  · obtain ⟨y, e1, e2⟩ := o2 k hk
    rw [envSample_done hd] at e1; cases e1; exact e2
  · obtain ⟨y, e1, e2⟩ := o2 k hk
    rw [envSample_of_read hx] at e1; cases e1; exact e2

theorem one_sample {s : State} {v : Nat} {vc : Voice} {x : Word} (hv : holdsVoice s v vc) (h1 : 1 ≤ s.params.sr)
    (h2 : s.offarg.toNat + 1 < 2 ^ 32)
    (h3 : vc.state = .decay ∨ vc.state = .release → vc.start ≤ s.offarg) (hx : readScr s.mem 0 = some x) :
    ∃ m, exec (.env v 1) s = .next { s with
            mem := m, voices := s.voices.set v (envAdvance vc s.offarg.toNat),
            rstate := (envAdvance vc s.offarg.toNat).state.tag, last := okByte } ∧
          readScr m 0 = some (envOutput vc s.offarg.toNat x) ∧ sameOutside scrBase 1 s.mem m := by
  obtain ⟨m, e1, _, e3, e4⟩ := env_runs (n := 1) hv h1 h2 h3 (fun k hk => .inr (by rw [show k = 0 by omega, hx]; rfl))
  exact ⟨m, e1, e3 0 x (by omega) hx, e4⟩

theorem rampIndex_of_le {vc : Voice} {off : Word} (h : vc.start ≤ off) : rampIndex off.toNat vc.start = off.toNat -
    vc.start.toNat := by
  unfold rampIndex; rw [if_pos (BitVec.le_def.1 h)]

theorem set_self {s : State} {v : Nat} {vc : Voice} (hv : holdsVoice s v vc) : s.voices.set v vc = s.voices := by
  obtain ⟨_, h2, _⟩ := liveVoice_eq_some.1 hv
  apply List.ext_getElem?
  intro j
  by_cases hj : v = j
  · subst hj; rw [h2]; exact getElem?_set_of_live hv vc
  · rw [List.getElem?_set_ne hj]

theorem envTrace_start {off : Nat} {vc : Voice} {N : Nat} (h : vc.state = .decay ∨ vc.state = .release →
    vc.start.toNat ≤ off) (hlt : off + N < 2 ^ 32) :
    (envTrace off vc N).state = .decay ∨ (envTrace off vc N).state = .release → (envTrace off vc
      N).start.toNat ≤ off + N := by
  induction N with
  | zero => simpa [envTrace] using h
  | succ N ih =>
    have ih := ih (by omega)
    rw [envTrace]
    rcases envAdvance_cases (envTrace off vc N) (off + N) with e | ⟨_, _, _, e⟩ | ⟨_, _, _, e⟩ | ⟨_, _, e⟩ | ⟨_, _, e⟩
      <;> rw [e]
    · intro h'; have := ih h'; omega
    · simp
    · intro _; simp only [BitVec.toNat_ofNat]; omega
    · intro _; simp only [BitVec.toNat_ofNat]; omega
    · simp

theorem envAdvance_tag (vc : Voice) (i : Nat) : vc.state.tag ≤ (envAdvance vc i).state.tag ∧
    ((envAdvance vc i).state = vc.state ∨ (envAdvance vc i).state.tag = vc.state.tag + 1#2 ∨
      (vc.state = .attack ∧ (envAdvance vc i).state = .done ∧ iszero vc.sush = true)) := by
  rcases envAdvance_cases vc i with e | ⟨h1, _, h2, e⟩ | ⟨h1, _, _, e⟩ | ⟨h1, _, e⟩ | ⟨h1, _, e⟩ <;> rw [e]
  · exact ⟨by simp, .inl rfl⟩
  · rw [h1]; exact ⟨show Phase.attack.tag ≤ Phase.done.tag by decide, .inr (.inr ⟨rfl, rfl, h2⟩)⟩
  · rw [h1]
    exact ⟨show Phase.attack.tag ≤ Phase.decay.tag
      by decide, .inr (.inl (show Phase.decay.tag = Phase.attack.tag + 1#2 by decide))⟩
  · rw [h1]
    exact ⟨show Phase.decay.tag ≤ Phase.release.tag
      by decide, .inr (.inl (show Phase.release.tag = Phase.decay.tag + 1#2 by decide))⟩
  · rw [h1]
    exact ⟨show Phase.release.tag ≤ Phase.done.tag
      by decide, .inr (.inl (show Phase.done.tag = Phase.release.tag + 1#2 by decide))⟩

theorem envTrace_tag (off : Nat) (vc : Voice) (n : Nat) : vc.state.tag ≤ (envTrace off vc n).state.tag := by
  induction n with
  | zero => simp [envTrace]
  | succ n ih => exact BitVec.le_trans ih (envAdvance_tag _ _).1

theorem tag_done {ph : Phase} (h : Phase.tag .done ≤ ph.tag) : ph = .done := by revert h; cases ph <;> decide

theorem finishProduce_state (n : Nat) (vc : Voice) : (finishProduce n vc).state = vc.state := by
  unfold finishProduce; split <;> rfl

theorem producedVoice_state (n : Nat) (vc : Voice) : (producedVoice n vc).state =
    (envTrace vc.offset.toNat vc n).state :=
  finishProduce_state _ _

theorem posinf : isposinf fInf = true := by decide

theorem rp_inf (m : Nat) : rampProduct m fInf = fInf := by simp [rampProduct, posinf]

theorem slope_zero {p : Word} (h : iszero p = true) : slopeOf p = fInf := by simp [slopeOf, h]

/-- The voice before sample `k <= n` of an envelope taken from offset 0 (41_envelope.md R143). -/
theorem trace_shape {vc : Voice} {n iA iD iR : Nat} (ha : vc.state = .attack) (hz : iszero vc.sush = false)
    (hA : firstBelow n (fun i => fge (attackGain vc i) fOne = true) iA)
    (hD : firstBelow n (fun i => iA < i ∧ fle (decayGain { vc with start := BitVec.ofNat 32 iA } i) vc.sush = true) iD)
    (hR : firstBelow n (fun i => iD < i ∧ fle (releaseGain { vc with start := BitVec.ofNat 32 iD } i) fZero = true) iR)
    (k : Nat) (hk : k ≤ n) :
    envTrace 0 vc k = if k ≤ iA then vc
      else if k ≤ iD then { vc with state := .decay, start := BitVec.ofNat 32 iA }
      else if k ≤ iR then { vc with state := .release, start := BitVec.ofNat 32 iD }
      else { vc with state := .done, start := BitVec.ofNat 32 iD } := by
  have hAD : iD < n → iA < iD := fun h => (hD.1 h).1
  have hDR : iR < n → iD < iR := fun h => (hR.1 h).1
  induction k with
  | zero => simp [envTrace]
  | succ k ih =>
    replace ih := ih (by omega)
    rw [envTrace, Nat.zero_add]
    rcases Nat.lt_trichotomy k iA with h | h | h
    · rw [ih, if_pos (by omega), if_pos (by omega)]
      have : fge (attackGain vc k) fOne = false := by simpa using hA.2 k hk h
      simp [envAdvance, ha, this]
    · subst h
      have := hA.1 hk
      simp only at this
      rw [ih, if_pos (by omega), if_neg (by omega), if_pos (by omega)]
      simp [envAdvance, ha, this, hz]
    · rw [if_neg (show ¬ k ≤ iA by omega)] at ih
      rw [if_neg (show ¬ k + 1 ≤ iA by omega)]
      rcases Nat.lt_trichotomy k iD with h' | h' | h'
      · rw [if_pos (by omega)] at ih
        rw [ih, if_pos (by omega)]
        have : fle (decayGain { vc with start := BitVec.ofNat 32 iA } k) vc.sush = false := by
          have := hD.2 k hk h'; simp [h] at this; simpa using this
        have e : decayGain { vc with state := .decay, start := BitVec.ofNat 32 iA } k =
            decayGain { vc with start := BitVec.ofNat 32 iA } k := rfl
        simp [envAdvance, e, this]
      · subst h'
        have := (hD.1 hk).2
        rw [if_pos (by omega)] at ih
        rw [ih, if_neg (by omega), if_pos (by omega)]
        have e : decayGain { vc with state := .decay, start := BitVec.ofNat 32 iA } k =
            decayGain { vc with start := BitVec.ofNat 32 iA } k := rfl
        simp [envAdvance, e, this]
      · rw [if_neg (by omega)] at ih
        rw [if_neg (by omega)]
        have e : releaseGain { vc with state := .release, start := BitVec.ofNat 32 iD } k =
            releaseGain { vc with start := BitVec.ofNat 32 iD } k := rfl
        rcases Nat.lt_trichotomy k iR with h'' | h'' | h''
        · rw [if_pos (by omega)] at ih
          rw [ih, if_pos (by omega)]
          have : fle (releaseGain { vc with start := BitVec.ofNat 32 iD } k) fZero = false := by
            have := hR.2 k hk h''; simp [h'] at this; simpa using this
          simp [envAdvance, e, this]
        · subst h''
          have := (hR.1 hk).2
          rw [if_pos (by omega)] at ih
          rw [ih, if_neg (by omega)]
          simp [envAdvance, e, this]
        · rw [if_neg (by omega)] at ih
          rw [ih, if_neg (by omega)]
          simp [envAdvance]

/-- `DIST` as one equation (42_distortion.md R152, R153). -/
theorem dist_runs {s : State} {v n : Nat} {vc : Voice} (hv : holdsVoice s v vc) (h1 : n ≤ s.params.sr)
    (h2 : vc.distEn = true) (h3 : written s.mem scrBase n) :
    ∃ m, exec (.dist v n) s = .next { s with mem := m, last := okByte } ∧
      (∀ k x, k < n → readScr s.mem k = some x → readScr m k = some
        (distSample vc x)) ∧ sameOutside scrBase n s.mem m := by
  obtain ⟨m, hm⟩ := mapScr_completes (distSample vc) h3
  obtain ⟨o1, o2, _⟩ := mapScr_ok hm
  refine ⟨m, runCommand_ok s (distCheck_ok.2 ⟨hv, h1, h2⟩) (effect := distEffect n s) (u := setMem m s)
    (by unfold distEffect distApply; rw [hm]), fun k x hk hx => ?_, o2⟩
  obtain ⟨x', e1, e2⟩ := o1 k hk
  rw [hx] at e1; cases e1; exact e2

/-- `VOL` as one equation (43_voice.md R160). -/
theorem vol_runs {s : State} {v n : Nat} {vc : Voice} (hv : holdsVoice s v vc) (h1 : n ≤ s.params.sr)
    (h3 : fne vc.vol fOne = true → written s.mem scrBase n) :
    ∃ m, exec (.vol v n) s = .next { s with mem := m, last := okByte } ∧
      (∀ k x, k < n → readScr s.mem k = some x → readScr m k = some (volSample vc x)) ∧ sameOutside scrBase n s.mem m ∧
      (fne vc.vol fOne = false → m = s.mem) := by
  have : ∃ m, volApply vc n s.mem = .ok m ∧ (fne vc.vol fOne = false → m = s.mem) := by
    unfold volApply
    cases hf : fne vc.vol fOne
    · exact ⟨s.mem, rfl, fun _ => rfl⟩
    · obtain ⟨m, hm⟩ := mapScr_completes (fun x => fmul x vc.vol) (h3 hf)
      exact ⟨m, hm, fun h => by cases h⟩
  obtain ⟨m, hm, hs⟩ := this
  obtain ⟨o1, o2, _⟩ := volApply_ok hm
  exact ⟨m, runCommand_ok s (volCheck_ok.2 ⟨hv, h1⟩) (effect := volEffect n s) (u := setMem m s)
    (by unfold volEffect; rw [hm]), o1, o2, hs⟩

/-- `PROD` as one equation (43_voice.md R161 to R165). -/
theorem prod_runs {s : State} {v n : Nat} {vc : Voice} (hl : s.params.legal = true) (hv : holdsVoice s v vc)
    (h1 : n ≤ s.params.sr) (h2 : vc.offset.toNat + n < 2 ^ 32) (h3 : tableWritten s.params vc n vc.offset.toNat s.mem) :
    ∃ m, exec (.prod v n) s = .next { s with
            mem := m, voices := s.voices.set v (producedVoice n vc),
            rstate := (producedVoice n vc).state.tag, last := okByte } ∧
      (∀ k t, k < n → readTbl s.mem vc.tsel.toNat (oscStart s.params vc.offset.toNat + k) = some t →
        readScr m k = some (voiceSample vc k t)) ∧ sameOutside scrBase n s.mem m := by
  obtain ⟨ws, wo⟩ := windows_of_legal hl h1
  obtain ⟨⟨vc', m⟩, hm⟩ := produce_completes (p := s.params) (vc := vc) (m := s.mem) (show scrBase + n ≤ tblBase
    by omega) h3
  obtain ⟨o1, o2, o3, _⟩ := produce_ok hm (by omega)
  subst o1
  refine ⟨m, runCommand_ok s (prodCheck_ok.2 ⟨hv, h1, h2⟩) (effect := prodEffect v n s)
    (u := setRstate (producedVoice n vc).state (setVoice v (producedVoice n vc) (setMem m s)))
    (by unfold prodEffect; rw [hm]), fun k t hk ht => ?_, o3⟩
  obtain ⟨t', e1, e2⟩ := o2 k hk
  rw [ht] at e1; cases e1; exact e2

theorem fbits_fNaN : isnan fNaN = true := by decide

theorem xor_neg (x : Word) : x ^^^ 0x80000000#32 = fneg x := by
  apply BitVec.eq_of_getLsbD_eq
  intro i hi
  have hl := fbits_lt x
  have h1 : fneg x = if fsign x then x &&& 0x7FFFFFFF#32 else x ||| 0x80000000#32 := by
    cases hs : fsign x
    · have hx : x.toNat < 2 ^ 31 := by simpa [fsign] using hs
      have hb : fbits x = x.toNat := Nat.mod_eq_of_lt hx
      have hz : x &&& 0x80000000#32 = 0#32 := by
        rw [show (0x80000000#32) = BitVec.twoPow 32 31 from rfl, BitVec.and_twoPow]
        have : x.getLsbD 31 = false := by
          rw [← BitVec.msb_eq_getLsbD_last (x := x), BitVec.msb_eq_decide]; simpa using hx
        rw [this]; rfl
      simp only [fneg, hs, Bool.not_false, packSign, if_true, Bool.false_eq_true, if_false, hb]
      rw [← BitVec.add_eq_or_of_and_eq_zero _ _ hz, BitVec.ofNat_add, BitVec.ofNat_toNat, BitVec.setWidth_eq,
        BitVec.add_comm]
      rfl
    · simp only [fneg, hs, Bool.not_true, packSign, if_true, Bool.false_eq_true, if_false]
      apply BitVec.eq_of_toNat_eq
      have := Nat.and_two_pow_sub_one_eq_mod x.toNat 31
      have e : fbits x % 2 ^ 32 = fbits x := Nat.mod_eq_of_lt (by omega)
      rw [BitVec.toNat_and, BitVec.toNat_ofNat, Nat.zero_add, e]
      exact this.symm
  have hs : fsign x = x.getLsbD 31 := by
    have : fsign x = x.msb := by simp [fsign, BitVec.msb_eq_decide]
    rw [this, BitVec.msb_eq_getLsbD_last]
  rw [h1, hs]
  rcases Nat.lt_or_ge i 31 with h | h
  · have a1 : (0x80000000#32).getLsbD i = false := by interval_cases i <;> decide
    have a2 : (0x7FFFFFFF#32).getLsbD i = true := by interval_cases i <;> decide
    cases hb : x.getLsbD 31 <;> simp only [if_true, Bool.false_eq_true, if_false, BitVec.getLsbD_xor,
      BitVec.getLsbD_and, BitVec.getLsbD_or, a1, a2] <;> simp
  · have : i = 31 := by omega
    subst this
    have a1 : (0x80000000#32).getLsbD 31 = true := by decide
    have a2 : (0x7FFFFFFF#32).getLsbD 31 = false := by decide
    cases hb : x.getLsbD 31 <;> simp only [if_true, Bool.false_eq_true, if_false, BitVec.getLsbD_xor,
      BitVec.getLsbD_and, BitVec.getLsbD_or, a1, a2, hb] <;> simp

theorem isnan_congr {a b : Word} (h : fbits a = fbits b) : isnan a = isnan b := by simp [isnan, h]

theorem iszero_congr {a b : Word} (h : fbits a = fbits b) : iszero a = iszero b := by simp [iszero, h]

theorem fneg_invol (a : Word) : fneg (fneg a) = a := by
  apply eq_of_sign_bits
  · rw [fsign_fneg, fsign_fneg, Bool.not_not]
  · rw [fbits_fneg, fbits_fneg]

theorem nan_fmul_fneg (a b : Word) : isnan (fmul (fneg a) b) = isnan (fmul a b) := by
  cases h : isnan (fmul a b)
  · rw [fmul_fneg_left a b h, isnan_congr (fbits_fneg _), h]
  · cases h' : isnan (fmul (fneg a) b)
    · have := fmul_fneg_left (fneg a) b h'
      rw [fneg_invol] at this
      rw [this, isnan_congr (fbits_fneg _), h'] at h
      cases h
    · rfl

theorem copysign_fneg (q p : Word) : copysign q (fneg p) = fneg (copysign q p) := by
  apply eq_of_sign_bits
  · rw [fsign_fneg, copysign, copysign, fsign_packSign (fbits_lt _), fsign_packSign (fbits_lt _), fsign_fneg]
  · rw [fbits_fneg, copysign, copysign, fbits_packSign (fbits_lt _), fbits_packSign (fbits_lt _)]

theorem fabs_fneg (p : Word) : fabs (fneg p) = fabs p := by unfold fabs; rw [fbits_fneg]

theorem distSample_of_product (vc : Voice) (x p : Word) (e : fmul x vc.ddrive = p) (h : isnan p = false) :
    distSample vc x = if iszero p then p else copysign (fpow (fabs p) vc.dexp) p := by
  unfold distSample; rw [e, h]; rfl

theorem distSample_fneg (vc : Voice) (x : Word) (h : isnan (fmul x vc.ddrive) = false) :
    distSample vc (fneg x) = fneg (distSample vc x) := by
  have h' : isnan (fneg (fmul x vc.ddrive)) = false := by rw [isnan_congr (fbits_fneg _)]; exact h
  rw [distSample_of_product vc (fneg x) _ (fmul_fneg_left x vc.ddrive h) h', distSample_of_product vc x _ rfl h,
    iszero_congr (fbits_fneg _), fabs_fneg, copysign_fneg]
  split <;> rfl

theorem distSample_of_nan (vc : Voice) (x : Word) (h : isnan (fmul x vc.ddrive) = true) : distSample vc x = fNaN := by
  unfold distSample; rw [if_pos h]

end Sys2Proof.Machine
end

