-- ==== Sys2Proof/Laws/Fill.lean ====
section
/-! SUPPORT. `FILL` as one equation, and its sums for one and for two voices (44_mixer.md R174 to R183). -/

namespace Sys2Proof.Machine

theorem countLive_zero {nv : Nat} {vs : List Voice} : countLive nv vs = 0 ↔ ∀ v, liveVoice nv vs v = none := by
  unfold countLive isLive
  rw [List.countP_eq_zero]
  constructor
  · intro h v
    by_cases hv : v < nv
    · have := h v (List.mem_range.2 hv); simpa using this
    · unfold liveVoice; rw [if_neg hv]
  · intro h v _; rw [h v]; simp

theorem live_of_mem {s : State} (hs : shaped s) {vc : Voice} (hm : vc ∈ s.voices) (hv : vc.valid = true) : ∃ v,
    holdsVoice s v vc := by
  obtain ⟨i, hi, rfl⟩ := List.mem_iff_getElem.1 hm
  exact ⟨i, liveVoice_eq_some.2 ⟨by rw [← hs.1]; exact hi, by simp [List.getElem?_eq_getElem hi], hv⟩⟩

theorem fillEffect_completes {s : State} {n : Nat} (hl : s.params.legal = true) (h1 : n ≤ s.params.sr)
    (ht : ∀ v vc, holdsVoice s v vc → tableWritten s.params vc n vc.offset.toNat
      s.mem) : ∃ u, fillEffect n s () = .ok u := by
  obtain ⟨ws, wo⟩ := windows_of_legal hl h1
  unfold fillEffect
  by_cases hc : countLive s.params.nvoice s.voices = 0
  · exact ⟨_, by simp only [hc, if_true]; rfl⟩
  · obtain ⟨⟨vs, m⟩, hr⟩ := fillLoop_completes (s := s) ws wo ht
    have hP := fillLoop_ok ws wo hr
    obtain ⟨m', hm⟩ := scaleOut_completes (mixScale (countLive s.params.nvoice s.voices)) (n := n) (m := m)
        (fun k hk => Option.isSome_iff_exists.2 ⟨_, hP.sums k hk⟩)
    simp only [hc, if_false]
    unfold fillMix
    have hr' : forEach (fillVoice (setRcount (countLive s.params.nvoice s.voices)
      (setMem (fillWords outBase fZero 0 n s.mem) s)).params n) 0
          (setRcount (countLive s.params.nvoice s.voices) (setMem (fillWords outBase fZero 0 n s.mem) s)).params.nvoice
          ((setRcount (countLive s.params.nvoice s.voices) (setMem (fillWords outBase fZero 0 n s.mem) s)).voices,
            (setRcount (countLive s.params.nvoice s.voices) (setMem (fillWords outBase fZero 0 n s.mem)
              s)).mem) = .ok (vs, m) := hr
    rw [hr']
    simp only [hm]
    exact ⟨_, rfl⟩

/-- `FILL` as one equation (44_mixer.md R174 to R178). -/
theorem fill_runs {s : State} {n : Nat} (hl : s.params.legal = true) (hs : shaped s) (h1 : n ≤ s.params.sr)
    (h2 : ∀ v vc, holdsVoice s v vc → vc.offset.toNat + n < 2 ^ 32)
    (ht : ∀ v vc, holdsVoice s v vc → tableWritten s.params vc n vc.offset.toNat s.mem) :
    ∃ m, exec (.fill n) s = .next { s with
          mem := m, rcount := BitVec.ofNat 7 (countLive s.params.nvoice s.voices), last := okByte,
          voices := if countLive s.params.nvoice s.voices = 0 then s.voices else removeFinished (s.voices.map
            (afterRender n)) } ∧
      (∀ k, k < n → readOut m k = some (if countLive s.params.nvoice s.voices = 0 then fZero
        else fmul (mixSum s k s.params.nvoice) (mixScale (countLive s.params.nvoice s.voices)))) ∧
      sameOutsideBuffers n s.mem m := by
  obtain ⟨u, hu⟩ := fillEffect_completes hl h1 ht
  obtain ⟨vs, m, rfl, rfl, o1, _, _, o2, _⟩ := fillEffect_ok hs.1 hl h1 hu
  exact ⟨m, runCommand_ok s (fillCheck_ok (u := ()) |>.2 ⟨h1, h2⟩) (effect := fillEffect n s) hu, o1, o2⟩

theorem removeFinished_afterRender (n : Nat) (vs : List Voice) : removeFinished (vs.map (afterRender n)) =
    vs.map fun vc => if vc.valid then { producedVoice n vc with valid := !(producedVoice n vc).fin } else vc := by
  unfold removeFinished
  rw [List.map_map]
  apply List.map_congr_left
  intro vc _
  cases hv : vc.valid
  · simp [afterRender, hv]
  · have hp := producedVoice_valid n vc
    rw [hv] at hp
    simp only [Function.comp, afterRender, hv, if_true, hp, Bool.true_and]
    cases hf : (producedVoice n vc).fin
    · simp only [Bool.false_eq_true, if_false, Bool.not_false]
      generalize producedVoice n vc = w at hp hf ⊢
      cases w
      simp_all
    · simp

/-- with one live voice the count is 1 -/
theorem countLive_one {nv : Nat} {vs : List Voice} {v : Nat} {vc : Voice} (h : liveVoice nv vs v = some vc)
    (ho : ∀ u, u < nv → u ≠ v → liveVoice nv vs u = none) : countLive nv vs = 1 := by
  have hv := (liveVoice_eq_some.1 h).1
  unfold countLive
  have : (List.range nv).countP (isLive nv vs) = (List.range nv).countP (· == v) := by
    apply List.countP_congr
    intro u hu
    by_cases e : u = v
    · subst e; simp [isLive, h]
    · simp [isLive, ho u (List.mem_range.1 hu) e, e]
  rw [this, ← List.count, List.count_eq_one_of_mem List.nodup_range (List.mem_range.2 hv)]

theorem mixSum_none {s : State} {k a : Nat} (b : Nat) (h : ∀ u, a ≤ u → u < a + b → liveVoice s.params.nvoice s.voices
    u = none) :
    mixSum s k (a + b) = mixSum s k a := by
  induction b with
  | zero => rfl
  | succ b ih =>
    rw [← Nat.add_assoc, mixSum, h (a + b) (by omega) (by omega)]
    exact ih fun u hu hu' => h u hu (by omega)

theorem mixSum_zero {s : State} {k v : Nat} (h : ∀ u, u < v → liveVoice s.params.nvoice s.voices u = none) : mixSum s
    k v = fZero := by
  have := mixSum_none (s := s) (k := k) (a := 0) v (fun u _ hu => h u (by omega))
  rwa [Nat.zero_add] at this

theorem countLive_two {nv : Nat} {vs : List Voice} {u v : Nat} {vu vv : Voice} (hu : liveVoice nv vs u = some vu)
    (hv : liveVoice nv vs v = some vv)
    (huv : u ≠ v) (ho : ∀ w, w < nv → w ≠ u → w ≠ v → liveVoice nv vs w = none) : countLive nv vs = 2 := by
  have hu' := (liveVoice_eq_some.1 hu).1
  have hv' := (liveVoice_eq_some.1 hv).1
  unfold countLive
  have e : (List.range nv).countP (isLive nv vs) = (List.range nv).countP (fun w => w == u || w == v) := by
    apply List.countP_congr
    intro w hw
    by_cases e : w = u
    · subst e; simp [isLive, hu]
    · by_cases e' : w = v
      · subst e'; simp [isLive, hv]
      · simp [isLive, ho w (List.mem_range.1 hw) e e', e, e']
  rw [e]
  have h2 : ∀ l : List Nat, l.countP (fun w => w == u || w == v) = l.count u + l.count v := by
    intro l
    induction l with
    | nil => rfl
    | cons a l ih =>
      rw [List.countP_cons, ih, List.count_cons, List.count_cons]
      by_cases e1 : a = u
      · subst e1; have : ¬ a = v := huv; simp [this]; omega
      · by_cases e2 : a = v
        · subst e2; simp [e1]; omega
        · simp [e1, e2]
  rw [h2, List.count_eq_one_of_mem List.nodup_range (List.mem_range.2 hu'), List.count_eq_one_of_mem List.nodup_range
    (List.mem_range.2 hv')]

theorem mix_two {s : State} {k u v : Nat} {vc : Voice} (huv : u < v) (hu : holdsVoice s u vc) (hv : holdsVoice s v vc)
    (ho : ∀ w, w < s.params.nvoice → w ≠ u → w ≠ v → liveVoice s.params.nvoice s.voices w = none) :
    mixSum s k s.params.nvoice = fadd (fadd fZero (voiceSample vc k (tableEntry s.params s.mem vc k))) (voiceSample vc
      k (tableEntry s.params s.mem vc k)) := by
  have hv' := (liveVoice_eq_some.1 hv).1
  obtain ⟨d, hd⟩ : ∃ d, s.params.nvoice = v + 1 + d := ⟨s.params.nvoice - (v + 1), by omega⟩
  obtain ⟨e, he⟩ : ∃ e, v = u + 1 + e := ⟨v - (u + 1), by omega⟩
  rw [hd, mixSum_none d (fun w hw hw' => ho w (by omega) (by omega) (by omega)), mixSum, hv]
  simp only
  congr 1
  conv => lhs; rw [he]
  rw [mixSum_none e (fun w hw hw' => ho w
    (by omega) (by omega) (by omega)), mixSum, hu, mixSum_zero (fun w hw => ho w (by omega) (by omega) (by omega))]

/-- A finite double has a finite half (44_mixer.md R181). -/
theorem double_finite {y : Word} (h : isFinite y = true) (h2 : isFinite (fadd y y) = true) : fbits y < 0x7F000000 := by
  by_contra hc
  have hn' : isnan y = false ∧ isinf y = false := by simpa [isFinite] using h
  have hlt := isnan_false_lt hn'.1 hn'.2
  have hm : 2 ^ 276 ≤ fmag y := by
    have := magOfBits_mono (show 0x7F000000 ≤ fbits y by omega) hlt
    have e : magOfBits 0x7F000000 = 2 ^ 276 := by decide
    unfold fmag; omega
  have hne : fint y + fint y ≠ 0 := by unfold fint; split <;> omega
  have habs : (fint y + fint y).natAbs = 2 * fmag y := by unfold fint; split <;> omega
  have hb : fbits (fadd y y) = 0x7F800000 := by
    unfold fadd
    simp only [hn'.1, hn'.2, Bool.or_self, Bool.false_eq_true, if_false]
    rw [if_neg hne, fbits_roundTo, habs]
    have := (overflow_iff (num := 2 * fmag y) (den := 1) (by decide)).2 (by omega)
    unfold roundBits
    simp only
    omega
  simp [isFinite, isinf, hb] at h2

theorem fillCode_ne (c : Code) : c.byte ≠ okByte := by cases c <;> decide

/-- what a completed FILL needed -/
theorem fillLoop_tables {s : State} {n : Nat} {a : List Voice × Memory} (hs : scrBase + n ≤ outBase)
    (ho : outBase + n ≤ tblBase)
    (h : forEach (fillVoice s.params n) 0 s.params.nvoice (s.voices, fillWords outBase fZero 0 n s.mem) = .ok a) {v :
      Nat} {vc : Voice} (hv : holdsVoice s v vc) :
    tableWritten s.params vc n vc.offset.toNat s.mem := by
  have := forEach_induct (fun i b => FillProgress s n i b ∧ (v < i → tableWritten s.params vc n vc.offset.toNat
    s.mem)) h ⟨progress_start s n, fun hh => by omega⟩
    fun i b b' _ hi ⟨hb, hb2⟩ hf => ⟨fillVoice_progress (by omega) hs ho hb hf, fun hlt => by
      by_cases e : v < i
      · exact hb2 e
      · have : v = i := by omega
        subst this
        unfold fillVoice at hf
        rw [liveVoice_of_progress hb, hv] at hf
        simp only at hf
        split at hf
        · cases hf
        · rename_i vc' m hp
          have hbb : scrBase + n ≤ tblBase := by have : outBase ≤ tblBase := by decide
                                                 omega
          obtain ⟨_, p2, _⟩ := produce_ok hp hbb
          intro k hk
          obtain ⟨t, ht, _⟩ := p2 k hk
          rw [readTbl_of_sameOutsideBuffers hb.frame hbb ho] at ht
          exact Option.isSome_iff_exists.2 ⟨t, ht⟩⟩
  exact this.2 (by have := (liveVoice_eq_some.1 hv).1; omega)

end Sys2Proof.Machine
end

