-- ==== Sys2Proof/Laws/Samples.lean ====
section
/-! SUPPORT. Zeros, finite gains and the split of a run of samples (41_envelope.md R144, 43_voice.md R167,
  60_exceptions.md R207). -/

namespace Sys2Proof.Machine

theorem iszero_volSample {vc : Voice} {y : Word} (h : iszero y = true) (hv : isFinite vc.vol = true) : iszero
    (volSample vc y) = true := by
  have hv' : isnan vc.vol = false ∧ isinf vc.vol = false := by simpa [isFinite] using hv
  unfold volSample
  split
  · exact iszero_fmul (.inl h) (not_nan_of_zero h).1 hv'.1 (not_nan_of_zero h).2 hv'.2
  · exact h

theorem iszero_distSample {vc : Voice} {y : Word} (h : iszero y = true) (hv : isFinite vc.ddrive = true) : iszero
    (distSample vc y) = true := by
  have hv' : isnan vc.ddrive = false ∧ isinf vc.ddrive = false := by simpa [isFinite] using hv
  have hz := iszero_fmul (.inl h) (not_nan_of_zero h).1 hv'.1 (not_nan_of_zero h).2 hv'.2
  rw [distSample_of_product vc y _ rfl (not_nan_of_zero hz).1, if_pos hz]; exact hz

theorem iszero_distStepSample {vc : Voice} {y : Word} (h : iszero y = true) (hv : isFinite vc.ddrive = true) : iszero
    (distStepSample vc y) = true := by
  unfold distStepSample
  split
  · exact iszero_distSample h hv
  · exact h

theorem finish_offset (n : Nat) (vc : Voice) : finishProduce n vc = if vc.state = .done then { vc with fin := true }
    else { vc with offset := vc.offset + BitVec.ofNat 32 n } := by
  unfold finishProduce; cases h : vc.state <;> simp

theorem envTrace_done_of (off : Nat) (vc : Voice) {N : Nat} (h : (envTrace off vc N).state = .done) (M : Nat) :
    envTrace off vc (N + M) = envTrace off vc N := by
  rw [envTrace_split]; exact envTrace_done _ h _

/-- the envelope does not look at OFFSET or FIN -/
theorem envAdvance_with (vc : Voice) (o : Word) (f : Bool) (i : Nat) :
    envAdvance { vc with offset := o, fin := f } i = { envAdvance vc i with offset := o, fin := f } := by
  have a : attackGain { vc with offset := o, fin := f } i = attackGain vc i := rfl
  have d : decayGain { vc with offset := o, fin := f } i = decayGain vc i := rfl
  have r : releaseGain { vc with offset := o, fin := f } i = releaseGain vc i := rfl
  unfold envAdvance
  rw [a, d, r]
  cases hs : vc.state
  · cases fge (attackGain vc i) fOne
    · simp [hs]
    · cases iszero vc.sush <;> rfl
  · cases fle (decayGain vc i) vc.sush
    · simp [hs]
    · rfl
  · cases fle (releaseGain vc i) fZero
    · simp [hs]
    · rfl
  · simp [hs]

theorem envTrace_with (off : Nat) (vc : Voice) (o : Word) (f : Bool) (k : Nat) :
    envTrace off { vc with offset := o, fin := f } k = { envTrace off vc k with offset := o, fin := f } := by
  induction k with
  | zero => rfl
  | succ k ih => rw [envTrace, ih, envAdvance_with]; rfl

/-- Below half a step above the largest finite value a rounded magnitude is finite (00_scope.md R11). -/
theorem roundBits_finite {num den : Nat} (hd : 0 < den) (h : num < (2 ^ 25 - 1) * 2 ^ 252 * den) :
    roundBits num den < 0x7F800000 := by
  have hno := mt (overflow_iff (num := num) hd).1 (by omega)
  unfold roundBits
  simp only
  omega

theorem isFinite_iff {w : Word} : isFinite w = true ↔ fbits w < 0x7F800000 := by
  simp only [isFinite, isnan, isinf, Bool.and_eq_true, Bool.not_eq_true', decide_eq_false_iff_not]
  omega

theorem isFinite_roundTo {neg : Bool} {num den : Nat} (hd : 0 < den) (h : num < (2 ^ 25 - 1) * 2 ^ 252 * den) :
    isFinite (roundTo neg num den) = true := by
  rw [isFinite_iff, fbits_roundTo]; exact roundBits_finite hd h

theorem fmag_lt_max {w : Word} (h : isFinite w = true) : fmag w < (2 ^ 25 - 1) * 2 ^ 252 := by
  rw [isFinite_iff] at h
  have := magOfBits_mono (show fbits w ≤ 0x7F7FFFFF by omega) (by decide)
  have e : magOfBits 0x7F7FFFFF < (2 ^ 25 - 1) * 2 ^ 252 := by decide
  exact Nat.lt_of_le_of_lt this e

theorem isFinite_parts {w : Word} (h : isFinite w = true) : isnan w = false ∧ isinf w = false := by simpa [isFinite]
    using h

theorem isFinite_fmul {x g : Word} (hx : fle (fabs x) fOne = true) (hg : isFinite g = true) : isFinite (fmul x g) =
    true := by
  have hxb : fbits x ≤ 0x3F800000 := by
    have hs : fsign fOne = false := by decide
    have hb : fbits fOne = 0x3F800000 := by decide
    simp only [fle, fkey, fsign_fabs, fbits_fabs, hs, hb, Bool.and_eq_true, decide_eq_true_eq, Bool.false_eq_true,
      if_false] at hx
    omega
  have hfx : isFinite x = true := isFinite_iff.2 (by omega)
  obtain ⟨n1, i1⟩ := isFinite_parts hfx
  obtain ⟨n2, i2⟩ := isFinite_parts hg
  have hm : fmag x ≤ 2 ^ 149 := by
    have := magOfBits_mono hxb (by decide)
    have e : magOfBits 0x3F800000 = 2 ^ 149 := by decide
    exact e ▸ this
  unfold fmul
  simp only [n1, n2, i1, i2, Bool.or_self, Bool.false_and, Bool.and_false, Bool.false_eq_true, if_false]
  refine isFinite_roundTo (by decide) ?_
  calc fmag x * fmag g ≤ 2 ^ 149 * fmag g := Nat.mul_le_mul_right _ hm
    _ < 2 ^ 149 * ((2 ^ 25 - 1) * 2 ^ 252) := Nat.mul_lt_mul_of_pos_left (fmag_lt_max hg) (by decide)
    _ = (2 ^ 25 - 1) * 2 ^ 252 * 2 ^ 149 := Nat.mul_comm _ _

theorem isFinite_fsub {a b : Word} (ha : isFinite a = true) (hb : isFinite b = true)
    (hs : fsign a = fsign b ∨ iszero a = true ∨ iszero b = true) : isFinite (fsub a b) = true := by
  obtain ⟨n1, i1⟩ := isFinite_parts ha
  obtain ⟨n2, i2⟩ := isFinite_parts hb
  have h1 := fmag_lt_max ha
  have h2 := fmag_lt_max hb
  unfold fsub fadd
  simp only [n1, n2, i1, i2, isnan_fneg, isinf_fneg, Bool.or_self, Bool.false_eq_true, if_false]
  split
  · split <;> decide
  · refine isFinite_roundTo (by decide) ?_
    have hz : ∀ {w : Word}, iszero w = true → fmag w = 0 := fun h => fmag_eq_zero.2 h
    unfold fint
    rw [fsign_fneg, fmag_fneg]
    generalize (2 ^ 25 - 1) * 2 ^ 252 = M at *
    have : (fsign a = fsign b) ∨ fmag a = 0 ∨ fmag b = 0 := by
      rcases hs with h | h | h
      · exact .inl h
      · exact .inr (.inl (hz h))
      · exact .inr (.inr (hz h))
    cases hsa : fsign a <;> cases hsb : fsign b <;> simp_all <;> omega

/-- A ramp product of a legal slope is `+inf`, or finite with sign clear. -/
theorem rampProduct_ok {m : Nat} {s : Word} (hm : m < 2 ^ 32) (hs : slopeOk s) :
    isposinf (rampProduct m s) = false → isFinite (rampProduct m s) = true ∧ fsign (rampProduct m s) = false := by
  intro h
  have hu : isnan (u2f m) = false ∧ isinf (u2f m) = false ∧ fsign (u2f m) = false := by
    have := u2f_lt hm
    refine ⟨by simp [u2f], ?_, by simp [u2f]⟩
    rw [isinf, u2f, fbits_roundTo, decide_eq_false_iff_not]; omega
  unfold rampProduct at h ⊢
  split at h
  · exact absurd h (by decide)
  · rename_i hinf
    rw [if_neg hinf]
    have hi : isinf s = false := by
      cases hi : isinf s
      · rfl
      · exfalso; apply hinf
        have hb : fbits s = 0x7F800000 := by simpa [isinf] using hi
        have : s = fInf := eq_of_sign_bits (by rw [hs.2]; decide) (by rw [hb]; decide)
        rw [this]; decide
    have hn : isnan (fmul (u2f m) s) = false := by rw [isnan_fmul, hu.1, hs.1, hu.2.1, hi]; simp
    have hsg : fsign (fmul (u2f m) s) = false := by
      rcases fmul_cases (u2f m) s with e | ⟨_, e⟩
      · rw [e] at hn; exact absurd hn (by decide)
      · rw [e, hu.2.2, hs.2]; rfl
    refine ⟨?_, hsg⟩
    have hni : isinf (fmul (u2f m) s) = false := by
      cases hi' : isinf (fmul (u2f m) s)
      · rfl
      · exfalso
        have hb : fbits (fmul (u2f m) s) = 0x7F800000 := by simpa [isinf] using hi'
        have : fmul (u2f m) s = fInf := eq_of_sign_bits (by rw [hsg]; decide) (by rw [hb]; decide)
        rw [this] at h; exact absurd h (by decide)
    simp [isFinite, hn, hni]

theorem gains_finite {p : Params} {fl : List Bool} {vc : Voice} (h : voiceOk p fl vc) {i : Nat} (hi : i < 2 ^ 32) :
    isFinite (attackGain vc i) = true ∧ isFinite (decayGain vc i) = true ∧ isFinite (releaseGain vc i) = true := by
  obtain ⟨_, _, h1, h1', _, _, ha, hd, hr, _⟩ := h
  have hs : fsign vc.sush = false ∨ iszero vc.sush = true := (fge_zero.1 h1').2
  have hri : rampIndex i vc.start < 2 ^ 32 := by
    unfold rampIndex; split
    · omega
    · exact BitVec.isLt _
  have fin1 : isFinite fOne = true := by decide
  refine ⟨?_, ?_, ?_⟩
  · unfold attackGain
    cases hp : isposinf (rampProduct i vc.aslope)
    · simpa using (rampProduct_ok hi ha hp).1
    · exact fin1
  · unfold decayGain
    cases hp : isposinf (rampProduct (rampIndex i vc.start) vc.dslope)
    · obtain ⟨q1, q2⟩ := rampProduct_ok hri hd hp
      simp only [Bool.false_eq_true, if_false]
      exact isFinite_fsub fin1 q1 (.inl (by rw [q2]; decide))
    · exact h1
  · unfold releaseGain
    cases hp : isposinf (rampProduct (rampIndex i vc.start) vc.rslope)
    · obtain ⟨q1, q2⟩ := rampProduct_ok hri hr hp
      simp only [Bool.false_eq_true, if_false]
      refine isFinite_fsub h1 q1 ?_
      rcases hs with h | h
      · exact .inl (by rw [q2, h])
      · exact .inr (.inl h)
    · rw [if_pos rfl]; decide

end Sys2Proof.Machine
end

