-- ==== Sys2Proof/Laws/Invariant.lean ====
section
/-! SUPPORT. What every command and every step keep: parameters, list lengths, canonical memory inside its windows,
voices (10_state.md R35). -/

namespace Sys2Proof.Machine

/-- No command changes the parameters (00_scope.md R6). -/
theorem exec_params {i : Instr} {s t : State} (h : exec i s = .next t) : t.params = s.params := by
  cases i with
  | osc v n =>
    rcases runCommand_next.1 h with ⟨c, _, rfl⟩ | ⟨vc, u, _, he, rfl⟩
    · rfl
    · unfold oscEffect at he
      split at he <;> cases he
      rfl
  | env v n =>
    rcases runCommand_next.1 h with ⟨c, _, rfl⟩ | ⟨vc, u, _, he, rfl⟩
    · rfl
    · unfold envEffect at he
      split at he <;> cases he
      rfl
  | dist v n =>
    rcases runCommand_next.1 h with ⟨c, _, rfl⟩ | ⟨vc, u, _, he, rfl⟩
    · rfl
    · unfold distEffect at he
      split at he <;> cases he
      rfl
  | vol v n =>
    rcases runCommand_next.1 h with ⟨c, _, rfl⟩ | ⟨vc, u, _, he, rfl⟩
    · rfl
    · unfold volEffect at he
      split at he <;> cases he
      rfl
  | prod v n =>
    rcases runCommand_next.1 h with ⟨c, _, rfl⟩ | ⟨vc, u, _, he, rfl⟩
    · rfl
    · unfold prodEffect at he
      split at he <;> cases he
      rfl
  | enq =>
    rcases runCommand_next.1 (show execEnq s = .next t from h) with ⟨c, _, rfl⟩ | ⟨v, u, _, he, rfl⟩
    · rfl
    · cases he
      rfl
  | fill n =>
    rcases runCommand_next.1 h with ⟨c, _, rfl⟩ | ⟨_, u, _, he, rfl⟩
    · rfl
    · unfold fillEffect fillMix at he
      simp only at he
      split at he
      · cases he
        rfl
      · split at he
        · cases he
        · split at he <;> cases he
          rfl
  | tseal b =>
    rcases runCommand_next.1 (show execTseal b s = .next t from h) with ⟨c, _, rfl⟩ | ⟨_, u, _, he, rfl⟩
    · rfl
    · cases he
      rfl

theorem producedVoice_eq (n : Nat) (vc : Voice) : producedVoice n vc =
    if (envTrace vc.offset.toNat vc n).state = .done then { envTrace vc.offset.toNat vc n with fin := true }
    else { envTrace vc.offset.toNat vc n with offset := (envTrace vc.offset.toNat vc n).offset + BitVec.ofNat 32 n
      } := finish_offset n _

theorem producedVoice_fin (n : Nat) (vc : Voice) : (vc.fin = true → (producedVoice n vc).fin = true) ∧
    ((producedVoice n vc).fin = true → vc.fin = true ∨ (producedVoice n vc).state = .done) := by
  have hf : (envTrace vc.offset.toNat vc n).fin = vc.fin := by simp
  rw [producedVoice_eq]
  split
  · rename_i h; exact ⟨fun _ => rfl, fun _ => .inr h⟩
  · exact ⟨fun h => hf.trans h, fun h => .inl (hf ▸ h)⟩

theorem producedVoice_consts (n : Nat) (vc : Voice) : (producedVoice n vc).aslope = vc.aslope ∧
    (producedVoice n vc).dslope = vc.dslope ∧ (producedVoice n vc).sush = vc.sush ∧ (producedVoice n
      vc).rslope = vc.rslope ∧
      (producedVoice n vc).dexp = vc.dexp ∧ (producedVoice n vc).ddrive = vc.ddrive ∧ (producedVoice n
        vc).vol = vc.vol ∧ (producedVoice n vc).tsel = vc.tsel ∧ (producedVoice n vc).distEn = vc.distEn := by
  rw [producedVoice_eq]; split <;> simp

/-- memory of a command -/
theorem exec_memory {i : Instr} {s t : State} (hl : s.params.legal = true) (hs : shaped s) (h : exec i s = .next t) :
    ∃ n, n ≤ s.params.sr ∧ sameOutsideBuffers n s.mem t.mem ∧
      ((∀ n, i ≠ .fill n) → sameOutside scrBase n s.mem t.mem) ∧
      (i = .enq ∨ (∃ b, i = .tseal b) → t.mem = s.mem) ∧
      (∀ v k, i = .osc v k ∨ i = .env v k ∨ i = .dist v k ∨ i = .vol v k ∨ i = .prod v k → sameOutside scrBase k s.mem
        t.mem) ∧
      (∀ k, i = .fill k → sameOutsideBuffers k s.mem t.mem) := by
  have wide : ∀ {n m}, sameOutside scrBase n s.mem m → sameOutsideBuffers n s.mem m := fun h x hx _ => h x hx
  rcases exec_next hl hs h with ⟨c, rfl⟩ | hx
  · have r : ∀ n, sameOutside scrBase n s.mem s.mem := fun n => sameOutside_refl _ _ _
    exact ⟨0, by omega, wide (r 0), fun _ => r 0, fun _ => rfl, fun _ k _ => r k, fun k _ => wide (r k)⟩
  · cases i with
    | osc v n =>
      obtain ⟨_, m, _, h1, _, rfl, hm, _⟩ := hx
      exact ⟨n, h1, wide hm, fun _ => hm, fun h => (by rcases h with h | ⟨_, h⟩
        <;> cases h), fun w k h => (by rcases h with h | h | h | h | h <;> cases h; exact hm), fun _ h => (by cases h)⟩
    | env v n =>
      obtain ⟨_, m, _, h1, _, rfl, hm, _⟩ := hx
      exact ⟨n, h1, wide hm, fun _ => hm, fun h => (by rcases h with h | ⟨_, h⟩
        <;> cases h), fun w k h => (by rcases h with h | h | h | h | h <;> cases h; exact hm), fun _ h => (by cases h)⟩
    | dist v n =>
      obtain ⟨_, m, _, h1, rfl, hm, _⟩ := hx
      exact ⟨n, h1, wide hm, fun _ => hm, fun h => (by rcases h with h | ⟨_, h⟩
        <;> cases h), fun w k h => (by rcases h with h | h | h | h | h <;> cases h; exact hm), fun _ h => (by cases h)⟩
    | vol v n =>
      obtain ⟨_, m, _, h1, rfl, hm, _⟩ := hx
      exact ⟨n, h1, wide hm, fun _ => hm, fun h => (by rcases h with h | ⟨_, h⟩
        <;> cases h), fun w k h => (by rcases h with h | h | h | h | h <;> cases h; exact hm), fun _ h => (by cases h)⟩
    | prod v n =>
      obtain ⟨_, m, _, h1, _, rfl, hm, _⟩ := hx
      exact ⟨n, h1, wide hm, fun _ => hm, fun h => (by rcases h with h | ⟨_, h⟩
        <;> cases h), fun w k h => (by rcases h with h | h | h | h | h <;> cases h; exact hm), fun _ h => (by cases h)⟩
    | enq =>
      obtain ⟨w, hc, rfl⟩ := hx
      exact ⟨0, by omega, fun _ _ _ => rfl, fun _ _ _ => rfl, fun _ => rfl,
        fun w k h => (by rcases h with h | h | h | h | h <;> cases h), fun _ h => (by cases h)⟩
    | tseal b =>
      obtain ⟨_, _, rfl⟩ := hx
      exact ⟨0, by omega, fun _ _ _ => rfl, fun _ _ _ => rfl, fun _ => rfl,
        fun w k h => (by rcases h with h | h | h | h | h <;> cases h), fun _ h => (by cases h)⟩
    | fill n =>
      obtain ⟨vs, m, h1, _, rfl, _, hm, _⟩ := hx
      exact ⟨n, h1, hm, fun h => absurd rfl (h n), fun h => (by rcases h with h | ⟨_, h⟩
        <;> cases h), fun w k h => (by rcases h with h | h | h | h | h <;> cases h), fun k h => by cases h; exact hm⟩

theorem exec_seal {i : Instr} {s t : State} (hl : s.params.legal = true) (hs : shaped s) (h : exec i s = .next t) :
    t.sealFlags = s.sealFlags ∨ ∃ b, i = .tseal b ∧ b < s.params.ntable ∧ t.sealFlags = s.sealFlags.set b true := by
  rcases exec_next hl hs h with ⟨c, rfl⟩ | hx
  · exact .inl rfl
  cases i with
  | osc v n => obtain ⟨_, m, _, h1, _, rfl, hm, _⟩ := hx; exact .inl rfl
  | env v n => obtain ⟨_, m, _, h1, _, rfl, hm, _⟩ := hx; exact .inl rfl
  | dist v n => obtain ⟨_, m, _, h1, rfl, hm, _⟩ := hx; exact .inl rfl
  | vol v n => obtain ⟨_, m, _, h1, rfl, hm, _⟩ := hx; exact .inl rfl
  | prod v n => obtain ⟨_, m, _, h1, _, rfl, hm, _⟩ := hx; exact .inl rfl
  | enq => obtain ⟨w, hc, rfl⟩ := hx; exact .inl rfl
  | tseal b => obtain ⟨h1, _, rfl⟩ := hx; exact .inr ⟨b, rfl, h1, rfl⟩
  | fill n => obtain ⟨vs, m, h1, _, rfl, _, hm, _⟩ := hx; exact .inl rfl

theorem getD_set (l : List Bool) (b c : Nat) : (l.set b true).getD c false = if c = b ∧ b < l.length then true else
    l.getD c false := by
  rw [List.getD_eq_getElem?_getD, List.getD_eq_getElem?_getD]
  by_cases e : c = b
  · subst e
    by_cases h : c < l.length
    · rw [List.getElem?_set_self h, if_pos ⟨rfl, h⟩]; rfl
    · rw [if_neg (by tauto), List.set_eq_of_length_le (by omega)]
  · rw [List.getElem?_set_ne (Ne.symm e), if_neg (by tauto)]

theorem tblAddr_lt {p : Params} (hl : p.legal = true) {b b' i : Nat} (hi : i < 2 * p.sr) (h : b' ≠ b) (x : Nat)
    (h1 : 4 * tblAddr b 0 ≤ x) (h2 : x < 4 * (tblAddr b 0 + 2 * p.sr)) :
    x < 4 * tblAddr b' i ∨ 4 * tblAddr b' i + 4 ≤ x := by
  simp only [Params.legal, Bool.and_eq_true, decide_eq_true_eq] at hl
  have hst : 2 * p.sr ≤ tblStride := by unfold tblStride; omega
  unfold tblAddr at *
  rcases Nat.lt_or_gt_of_ne h with h | h
  · have := Nat.mul_le_mul_right tblStride (show b' + 1 ≤ b by omega)
    rw [Nat.add_mul] at this
    right; omega
  · have := Nat.mul_le_mul_right tblStride (show b + 1 ≤ b' by omega)
    rw [Nat.add_mul] at this
    left; omega

/-- a command that commutes with a change of what it does not read -/
theorem runCommand_map {α : Type} (f : State → State) {check check' : Except Code α}
    {eff eff' : α → Except Fault State} {s : State}
    (hc : check' = check) (hr : ∀ c, refuse c (f s) = f (refuse c s)) (hk : ∀ u, complete (f u) = f (complete u))
    (he : ∀ a, eff' a = match eff a with | .ok u => .ok (f u) | .error e => .error e) :
    runCommand check' eff' (f s) = mapNext f (runCommand check eff s) := by
  subst hc
  unfold runCommand
  cases check' with
  | error c => simp only [mapNext, hr]
  | ok a =>
    simp only [he]
    cases eff a with
    | error e => rfl
    | ok u => simp only [mapNext, hk]

theorem stage_same (g s : State) : (withStaging g s).params = s.params ∧ (withStaging g s).mem = s.mem ∧
    (withStaging g s).voices = s.voices ∧ (withStaging g s).sealFlags = s.sealFlags := ⟨rfl, rfl, rfl, rfl⟩

theorem others_staging (i : Instr) (s g : State) (h1 : i ≠ .enq) (h2 : ∀ v n, i ≠ .osc v n ∧ i ≠ .env v n) :
    exec i (withStaging g s) = mapNext (withStaging g) (exec i s) := by
  have hr : ∀ c, refuse c (withStaging g s) = withStaging g (refuse c s) := fun c => rfl
  have hk : ∀ u, complete (withStaging g u) = withStaging g (complete u) := fun u => rfl
  obtain ⟨ep, em, ev, es⟩ := stage_same g s
  cases i with
  | enq => exact absurd rfl h1
  | osc v n => exact absurd rfl (h2 v n).1
  | env v n => exact absurd rfl (h2 v n).2
  | dist v n =>
    refine runCommand_map (withStaging g) rfl hr hk fun a => ?_
    unfold distEffect; rw [em]; cases distApply a n s.mem <;> rfl
  | vol v n =>
    refine runCommand_map (withStaging g) rfl hr hk fun a => ?_
    unfold volEffect; rw [em]; cases volApply a n s.mem <;> rfl
  | prod v n =>
    refine runCommand_map (withStaging g) rfl hr hk fun a => ?_
    unfold prodEffect; rw [em, ep]; cases produce s.params n a s.mem <;> rfl
  | tseal b => exact runCommand_map (withStaging g) (check := tsealCheck b s) (check' := tsealCheck b
    (withStaging g s)) (eff := tsealEffect b s) (eff' := tsealEffect b (withStaging g s)) rfl hr hk fun a => rfl
  | fill n =>
    refine runCommand_map (withStaging g) rfl hr hk fun a => ?_
    unfold fillEffect
    simp only [em, ep, ev]
    by_cases hc : countLive s.params.nvoice s.voices = 0
    · rw [if_pos hc, if_pos hc]; rfl
    · rw [if_neg hc, if_neg hc]
      generalize hA : setRcount (countLive s.params.nvoice s.voices) (setMem (fillWords outBase fZero 0 n s.mem) s) = A
      have : setRcount (countLive s.params.nvoice s.voices) (setMem (fillWords outBase fZero 0 n s.mem)
        (withStaging g s)) = withStaging g A := by rw [← hA]; rfl
      rw [this]
      obtain ⟨ep, em, ev, es⟩ := stage_same g A
      unfold fillMix
      rw [ep, em, ev]
      cases forEach (fillVoice A.params n) 0 A.params.nvoice (A.voices, A.mem) with
      | error e => rfl
      | ok r =>
        obtain ⟨vs, m⟩ := r
        simp only
        cases scaleOut (mixScale (countLive s.params.nvoice s.voices)) n m <;> rfl

theorem envAdvance_contiguous {vc : Voice} {i : Nat} {B : Nat} (hi : i < B) (hB : B ≤ 2 ^ 32)
    (h : vc.state = .decay ∨ vc.state = .release → vc.start.toNat < B) :
    (envAdvance vc i).state = .decay ∨ (envAdvance vc i).state = .release → (envAdvance vc i).start.toNat < B := by
  rcases envAdvance_cases vc i with e | ⟨_, _, _, e⟩ | ⟨_, _, _, e⟩ | ⟨_, _, e⟩ | ⟨_, _, e⟩ <;> rw [e]
  · exact h
  · simp
  · intro _; simp only [BitVec.toNat_ofNat]; omega
  · intro _; simp only [BitVec.toNat_ofNat]; omega
  · simp

theorem producedVoice_contiguous {vc : Voice} {n : Nat} (ho : vc.offset.toNat + n < 2 ^ 32) (h : contiguous vc) :
    contiguous (producedVoice n vc) := by
  have key : ∀ k, k ≤ n → (envTrace vc.offset.toNat vc k).state = .decay ∨ (envTrace vc.offset.toNat vc
    k).state = .release → (envTrace vc.offset.toNat vc k).start.toNat < vc.offset.toNat + n := by
    intro k
    induction k with
    | zero => intro _ hh; have := h hh; simp only [envTrace]; omega
    | succ k ih => intro hk; exact envAdvance_contiguous (by omega) (by omega) (ih (by omega))
  rw [producedVoice_eq]
  split
  · rename_i hd
    intro hh; simp [hd] at hh
  · intro hh
    have := key n (Nat.le_refl n) hh
    have e : (envTrace vc.offset.toNat vc n).offset = vc.offset := by simp
    change (envTrace vc.offset.toNat vc n).start.toNat < ((envTrace vc.offset.toNat vc n).offset + BitVec.ofNat 32
      n).toNat
    rw [e, BitVec.toNat_add, BitVec.toNat_ofNat]; omega

theorem exec_lengths {i : Instr} {s t : State} (hl : s.params.legal = true) (hs : shaped s) (h : exec i s = .next t) :
    shaped t := by
  refine ⟨?_, ?_⟩
  · rw [exec_params h, ← hs.1]
    rcases exec_next hl hs h with ⟨c, rfl⟩ | hx
    · rfl
    cases i with
    | osc v n => obtain ⟨_, m, _, h1, _, rfl, hm, _⟩ := hx; rfl
    | env v n => obtain ⟨_, m, _, h1, _, rfl, hm, _⟩ := hx; exact List.length_set
    | dist v n => obtain ⟨_, m, _, h1, rfl, hm, _⟩ := hx; rfl
    | vol v n => obtain ⟨_, m, _, h1, rfl, hm, _⟩ := hx; rfl
    | prod v n => obtain ⟨_, m, _, h1, _, rfl, hm, _⟩ := hx; exact List.length_set
    | enq => obtain ⟨w, hc, rfl⟩ := hx; exact List.length_set
    | tseal b => obtain ⟨h1, _, rfl⟩ := hx; rfl
    | fill n =>
      obtain ⟨vs, m, h1, _, rfl, hvs, hm, _⟩ := hx
      change vs.length = _
      rw [hvs]; split
      · rfl
      · simp [removeFinished]
  · rw [exec_params h, ← hs.2]
    rcases exec_seal hl hs h with e | ⟨b, _, _, e⟩ <;> rw [e]
    exact List.length_set

/-- where the live voices of the next state come from -/
theorem step_voice {s t : State} (hl : s.params.legal = true) (hs : shaped s) (h : step s = .next t) (hr : noReset s)
    {v : Nat} {vc' : Voice} (hv : holdsVoice t v vc') :
    (nextCommand s = some .enq ∧ vc' = newVoice s) ∨ ∃ vc, holdsVoice s v vc ∧ (vc' = vc ∨
      (∃ n, nextCommand s = some (.env v n) ∧ s.offarg.toNat + n < 2 ^ 32 ∧ vc' = envTrace s.offarg.toNat vc n) ∨
      (∃ n, vc.offset.toNat + n < 2 ^ 32 ∧ vc' = producedVoice n vc)) := by
  cases hn : liveVoice s.params.nvoice s.voices v with
  | none =>
    obtain ⟨h1, _, _, h2⟩ := step_free hl hs h hr hn hv
    exact .inl ⟨h1, h2⟩
  | some vc =>
    refine .inr ⟨vc, hn, ?_⟩
    rcases step_live hl hs h hr hn with h1 | ⟨n, h0, h2, h1⟩ | ⟨n, h0, h2, h1⟩ | ⟨n, hc, h2, h1⟩
    · exact .inl (holdsVoice_unique hv h1)
    · exact .inr (.inl ⟨n, h0, h2, holdsVoice_unique hv h1⟩)
    · exact .inr (.inr ⟨n, h2, holdsVoice_unique hv h1⟩)
    · rw [show liveVoice t.params.nvoice t.voices v = some vc' from hv] at h1
      split at h1
      · cases h1
      · cases h1; exact .inr (.inr ⟨n, h2, rfl⟩)

theorem step_params {s t : State} (h : step s = .next t) : t.params = s.params := by
  cases hp : s.pending with
  | nil => rw [step_idle hp] at h; cases h; rfl
  | cons a rest =>
    rw [step_serve hp] at h
    rcases serve_next h with ⟨i, h1, h2⟩ | ⟨c, rfl⟩ | rfl | h1 | ⟨k, d, hk, rfl⟩ | ⟨b', i, d, hb', hi, hsl, rfl⟩ | ⟨r,
      n, rfl⟩ | ⟨h1, rfl⟩
    · have := exec_params h2; exact this
    · rfl
    · rfl
    · exact (staging_frame h1).1
    · rfl
    · rfl
    · rfl
    · rfl

theorem step_shaped {s t : State} (hl : s.params.legal = true) (hs : shaped s) (h : step s = .next t) : shaped t := by
  cases hp : s.pending with
  | nil => rw [step_idle hp] at h; cases h; exact hs
  | cons a rest =>
    rw [step_serve hp] at h
    rcases serve_next h with ⟨i, h1, h2⟩ | ⟨c, rfl⟩ | rfl | h1 | ⟨k, d, hk, rfl⟩ | ⟨b', i, d, hb', hi, hsl, rfl⟩ | ⟨r,
      n, rfl⟩ | ⟨h1, rfl⟩
    · exact exec_lengths (s := setRdata none (takeAction rest s)) hl hs h2
    · exact hs
    · exact hs
    · obtain ⟨e1, _, _, e2, _, e3, _⟩ := staging_frame h1
      exact ⟨by rw [e3, e1]; exact hs.1, by rw [e2, e1]; exact hs.2⟩
    · exact hs
    · exact hs
    · exact hs
    · exact ⟨by simp [hardwareReset, State.resetWith], by simp [hardwareReset, State.resetWith]⟩

theorem reset_or_not (s : State) : noReset s ∨ ∃ rest, s.pending = .reset :: rest := by
  unfold noReset
  cases hp : s.pending with
  | nil => exact .inl trivial
  | cons a rest =>
    by_cases e : a = .reset
    · exact .inr ⟨rest, by rw [e]⟩
    · exact .inl e

theorem mem_of_readByte {m : Memory} {x : Nat} {b : Byte} (h : readByte m x = some b) : (x, b) ∈ m := by
  induction m with
  | nil => cases h
  | cons c m ih =>
    obtain ⟨a, d⟩ := c
    unfold readByte at h
    split at h
    · rename_i e; cases h; subst e; exact List.mem_cons_self
    · exact List.mem_cons_of_mem _ (ih h)

theorem readByte_of_mem_from {lo : Nat} {m : Memory} (hw : risingFrom lo m = true) {x : Nat} {b : Byte}
    (h : (x, b) ∈ m) : readByte m x = some b ∧ lo ≤ x := by
  induction m generalizing lo with
  | nil => cases h
  | cons c m ih =>
    obtain ⟨a, d⟩ := c
    simp only [risingFrom, Bool.and_eq_true, decide_eq_true_eq] at hw
    rcases List.mem_cons.1 h with e | h
    · cases e; exact ⟨by simp [readByte], hw.1⟩
    · obtain ⟨h1, h2⟩ := ih hw.2 h
      refine ⟨?_, by omega⟩
      unfold readByte; rw [if_neg (by omega)]; exact h1

theorem readByte_of_mem {m : Memory} (hw : Memory.wf m = true) {c : Host.Cell} (h : c ∈ m) : readByte m c.1 = some c.2
    := by
  rw [wf_eq_risingFrom] at hw
  exact (readByte_of_mem_from hw h).1

/-- windows survive writes inside the buffers -/
theorem cells_of_buffers {p : Params} {m m' : Memory} {n : Nat} (hn : n ≤ p.sr) (hw : Memory.wf m' = true)
    (h : sameOutsideBuffers n m m') (hm : ∀ c ∈ m, inWindow p (c.1 / 4)) : ∀ c ∈ m', inWindow p (c.1 / 4) := by
  intro c hc
  have hr := readByte_of_mem hw hc
  by_cases h1 : outsideWords scrBase n c.1
  · by_cases h2 : outsideWords outBase n c.1
    · rw [h c.1 h1 h2] at hr
      exact hm _ (mem_of_readByte hr)
    · unfold outsideWords at h2
      exact .inr (.inl ⟨by omega, by omega⟩)
  · unfold outsideWords at h1
    exact .inl ⟨by omega, by omega⟩

theorem cells_of_write {p : Params} {m : Memory} {a : Nat} {w : Word} (hw : Memory.wf m = true) (ha : inWindow p a)
    (hm : ∀ c ∈ m, inWindow p (c.1 / 4)) : ∀ c ∈ writeWord m a w, inWindow p (c.1 / 4) := by
  intro c hc
  have hr := readByte_of_mem (wf_writeWord a w hw) hc
  by_cases h : c.1 < 4 * a ∨ 4 * a + 4 ≤ c.1
  · rw [readByte_writeWord_other _ _ h] at hr
    exact hm _ (mem_of_readByte hr)
  · rw [show c.1 / 4 = a by omega]; exact ha

theorem voiceOk_newVoice {s : State} {v : Nat} (hl : s.params.legal = true) (h : enqCheck s = .ok v) : voiceOk
    s.params s.sealFlags (newVoice s) := by
  obtain ⟨_, h2, h3, h4, h5, _⟩ := enqCheck_ok.1 h
  simp only [enqTableOk, Bool.and_eq_true, decide_eq_true_eq] at h2
  simp only [enqTimesOk, Bool.and_eq_true] at h3
  obtain ⟨⟨⟨a, d⟩, su⟩, r⟩ := h3
  have su' := isFiniteNonneg_iff.1 su
  have fin1 : isFinite fOne = true := by decide
  refine ⟨h2.1, h2.2, ?_, fge_zero.2 su'.1, h4, ?_, attackSlope_ok hl a, fallSlope_ok hl d su, fallSlope_ok hl r su,
    ?_, ?_, ?_⟩
  · have := su'.1.1; have := su'.2
    simp [isFinite, newVoice, *]
  · change isFinite (if ctlDistEn s.pCtl then s.pDrive else fOne) = true
    unfold enqDistOk at h5
    cases hd : ctlDistEn s.pCtl
    · exact fin1
    · rw [hd] at h5
      simp only [if_true, Bool.and_eq_true] at h5
      obtain ⟨q1, q2⟩ := isFiniteNonneg_iff.1 h5.2
      simp only [if_true, isFinite, q1.1, q2]; rfl
  · intro hd
    change (if ctlDistEn s.pCtl then distExponent s.pCrunch else fOne).toNat ≤ _
    have hd : ctlDistEn s.pCtl = true := hd
    unfold enqDistOk at h5
    rw [hd] at h5 ⊢
    simp only [if_true, Bool.and_eq_true, Bool.not_eq_true'] at h5
    exact distExponent_bounds h5.1.1 h5.1.2
  · intro hd
    have hd : ctlDistEn s.pCtl = false := hd
    change (if ctlDistEn s.pCtl then distExponent s.pCrunch else fOne) = fOne
    rw [hd]; rfl
  · intro h; cases h

theorem voiceOk_seal {p : Params} {f f' : List Bool} {vc : Voice} (h : voiceOk p f vc)
    (hf : isSealed f vc.tsel.toNat = true → isSealed f' vc.tsel.toNat = true) : voiceOk p f' vc :=
  ⟨h.1, hf h.2.1, h.2.2⟩

theorem voiceOk_trace {p : Params} {f : List Bool} {vc : Voice} (h : voiceOk p f vc) (off k : Nat) : voiceOk p f
    (envTrace off vc k) := by
  obtain ⟨a, b, c, d, e, f', g, hh, i, j, k', l⟩ := h
  refine ⟨by simpa using a, by simpa using b, by simpa using c, by simpa using d, by simpa using e,
    by simpa using f', by simpa using g, by simpa using hh, by simpa using i, by simpa using j, by simpa using k', fun hf => ?_⟩
  have hd := l (by simpa using hf)
  rw [envTrace_done _ hd]; exact hd

theorem voiceOk_produced {p : Params} {f : List Bool} {vc : Voice} (h : voiceOk p f vc) (n : Nat) : voiceOk p f
    (producedVoice n vc) := by
  have ht := voiceOk_trace h vc.offset.toNat n
  obtain ⟨a, b, c, d, e, f', g, hh, i, j, k', l⟩ := ht
  rw [producedVoice_eq]
  split
  · rename_i hd; exact ⟨a, b, c, d, e, f', g, hh, i, j, k', fun _ => hd⟩
  · exact ⟨a, b, c, d, e, f', g, hh, i, j, k', l⟩

theorem exec_voices {i : Instr} {s t : State} (hl : s.params.legal = true) (hs : shaped s) (h : exec i s = .next t)
    (hv : ∀ vc ∈ s.voices, vc.valid = true → voiceOk s.params s.sealFlags vc) :
    ∀ vc ∈ t.voices, vc.valid = true → voiceOk t.params t.sealFlags vc := by
  intro vc hm hval
  obtain ⟨v, hh⟩ := live_of_mem (exec_lengths hl hs h) hm hval
  have hmono : ∀ b, isSealed s.sealFlags b = true → isSealed t.sealFlags b = true := fun b hb => by
    rcases exec_seal hl hs h with e | ⟨b', _, _, e⟩
    · rw [e]; exact hb
    · rw [e]
      have := getD_set s.sealFlags b' b
      unfold isSealed at *
      rw [this]; split
      · rfl
      · exact hb
  rw [exec_params h]
  cases hn : liveVoice s.params.nvoice s.voices v with
  | none =>
    obtain ⟨rfl, _, _, rfl⟩ := exec_free hl hs h hn hh
    rcases exec_next hl hs h with ⟨c, rfl⟩ | ⟨w, hc, _⟩
    · rw [holdsVoice] at hh
      rw [show liveVoice (refuse c s).params.nvoice (refuse c s).voices v = none from hn] at hh
      cases hh
    · exact voiceOk_seal (voiceOk_newVoice hl hc) (hmono _)
  | some w =>
    have hw := hv w (holds_mem hn).1 (holds_mem hn).2
    rcases exec_live hl hs h hn with h1 | ⟨n, _, _, h1⟩ | ⟨n, _, _, h1⟩ | ⟨n, _, _, h1⟩
    · rw [holdsVoice_unique hh h1]; exact voiceOk_seal hw (hmono _)
    · rw [holdsVoice_unique hh h1]; exact voiceOk_seal (voiceOk_trace hw _ _) (hmono _)
    · rw [holdsVoice_unique hh h1]; exact voiceOk_seal (voiceOk_produced hw _) (hmono _)
    · rw [show liveVoice t.params.nvoice t.voices v = some vc from hh] at h1
      split at h1
      · cases h1
      · cases h1; exact voiceOk_seal (voiceOk_produced hw _) (hmono _)

theorem countLive_le (nv : Nat) (vs : List Voice) : countLive nv vs ≤ nv := by
  unfold countLive
  have := List.countP_le_length (p := isLive nv vs) (l := List.range nv)
  rwa [List.length_range] at this

theorem exec_slot_count {i : Instr} {s t : State} (hl : s.params.legal = true) (hs : shaped s) (h : exec i s = .next t)
    (h1 : s.rslot.toNat < s.params.nvoice) (h2 : s.rcount.toNat ≤
      s.params.nvoice) : t.rslot.toNat < s.params.nvoice ∧ t.rcount.toNat ≤ s.params.nvoice := by
  have hl' := hl
  simp only [Params.legal, Bool.and_eq_true, decide_eq_true_eq] at hl'
  rcases exec_next hl hs h with ⟨c, rfl⟩ | hx
  · exact ⟨h1, h2⟩
  cases i with
  | osc v n => obtain ⟨_, m, _, _, _, rfl, hm, _⟩ := hx; exact ⟨h1, h2⟩
  | env v n => obtain ⟨_, m, _, _, _, rfl, hm, _⟩ := hx; exact ⟨h1, h2⟩
  | dist v n => obtain ⟨_, m, _, _, rfl, hm, _⟩ := hx; exact ⟨h1, h2⟩
  | vol v n => obtain ⟨_, m, _, _, rfl, hm, _⟩ := hx; exact ⟨h1, h2⟩
  | prod v n => obtain ⟨_, m, _, _, _, rfl, hm, _⟩ := hx; exact ⟨h1, h2⟩
  | enq =>
    obtain ⟨w, hc, rfl⟩ := hx
    have := (freeSlot_eq_some.1 (enqCheck_ok.1 hc).2.2.2.2.2).1
    refine ⟨?_, h2⟩
    change (BitVec.ofNat 6 w).toNat < _
    rw [BitVec.toNat_ofNat, Nat.mod_eq_of_lt (by omega)]; exact this
  | tseal b => obtain ⟨_, _, rfl⟩ := hx; exact ⟨h1, h2⟩
  | fill n =>
    obtain ⟨vs, m, _, _, rfl, hvs, hm, _⟩ := hx
    refine ⟨h1, ?_⟩
    have := countLive_le s.params.nvoice s.voices
    change (BitVec.ofNat 7 (countLive s.params.nvoice s.voices)).toNat ≤ _
    rw [BitVec.toNat_ofNat, Nat.mod_eq_of_lt (by omega)]; exact this

theorem exec_wf {i : Instr} {s t : State} (hl : s.params.legal = true) (hs : shaped s) (h : exec i s = .next t)
    (hw : Memory.wf s.mem = true) : Memory.wf t.mem = true := by
  rcases exec_next hl hs h with ⟨c, rfl⟩ | hx
  · exact hw
  cases i with
  | osc v n => obtain ⟨_, m, _, _, _, rfl, _, hm⟩ := hx; exact hm hw
  | env v n => obtain ⟨_, m, _, _, _, rfl, _, hm⟩ := hx; exact hm hw
  | dist v n => obtain ⟨_, m, _, _, rfl, _, hm⟩ := hx; exact hm hw
  | vol v n => obtain ⟨_, m, _, _, rfl, _, hm⟩ := hx; exact hm hw
  | prod v n => obtain ⟨_, m, _, _, _, rfl, _, hm⟩ := hx; exact hm hw
  | enq => obtain ⟨w, hc, rfl⟩ := hx; exact hw
  | tseal b => obtain ⟨_, _, rfl⟩ := hx; exact hw
  | fill n => obtain ⟨vs, m, _, _, rfl, hvs, _, hm⟩ := hx; exact hm hw

theorem code_le (c : Code) : c.byte.toNat ≤ 0x0B ∧ c.byte ≠ okByte := by cases c <;> decide

theorem status_refuse (c : Code) {s : State} (h1 : s.err.toNat ≤ 0x0B) : (refuse c s).err.toNat ≤ 0x0B ∧
    (refuse c s).last.toNat ≤ 0x0B ∧ ((refuse c s).err = okByte → (refuse c s).last = okByte) := by
  obtain ⟨c1, c2⟩ := code_le c
  simp only [refuse]
  split
  · exact ⟨c1, c1, id⟩
  · exact ⟨h1, c1, fun h => by contradiction⟩

end Sys2Proof.Machine
end

