-- ==== Sys2Proof/Laws/PerInstr.lean ====
section
/-! SUPPORT. One lemma per command: the opcode its word carries (30_encoding.md R104). -/

namespace Sys2Proof.Laws.EncodedOpcode

/-- Field `OP` of each command (30_encoding.md R104). -/
def opcode : Instr → Nat
  | .osc _ _ => 0x1
  | .env _ _ => 0x2
  | .dist _ _ => 0x3
  | .vol _ _ => 0x4
  | .prod _ _ => 0x5
  | .enq => 0x6
  | .fill _ => 0x7
  | .tseal _ => 0x8

/-- The word of a well-formed command carries its opcode in field `OP`. -/
def Statement (i : Instr) : Prop := i.wellFormed = true → fieldOp (encode i) = opcode i

/-- A well-formed pair of operands fits its fields. -/
theorem fits {v n : Nat} (h : (fitsV v && fitsN n) = true) : v < 64 ∧ n < 4194304 := by
  simpa [fitsV, fitsN] using h

theorem osc (v n : Nat) : Statement (.osc v n) := fun h =>
  (Machine.fields_pack (op := 1) (by decide) (fits h).1 (fits h).2).1

theorem env (v n : Nat) : Statement (.env v n) := fun h =>
  (Machine.fields_pack (op := 2) (by decide) (fits h).1 (fits h).2).1

theorem dist (v n : Nat) : Statement (.dist v n) := fun h =>
  (Machine.fields_pack (op := 3) (by decide) (fits h).1 (fits h).2).1

theorem vol (v n : Nat) : Statement (.vol v n) := fun h =>
  (Machine.fields_pack (op := 4) (by decide) (fits h).1 (fits h).2).1

theorem prod (v n : Nat) : Statement (.prod v n) := fun h =>
  (Machine.fields_pack (op := 5) (by decide) (fits h).1 (fits h).2).1

theorem enq : Statement .enq := fun _ => by decide

theorem fill (n : Nat) : Statement (.fill n) := fun h =>
  (Machine.fields_pack (op := 7) (v := 0) (by decide) (by decide)
    (show n < 4194304 by simpa [Instr.wellFormed, fitsN] using h)).1

theorem tseal (b : Nat) : Statement (.tseal b) := fun h =>
  (Machine.fields_pack (op := 8) (n := 0) (by decide) (show b < 64 by simpa [Instr.wellFormed, fitsV] using h)
    (by decide)).1

end Sys2Proof.Laws.EncodedOpcode
end

