-- ==== Sys2Proof/Tests/Slice0.lean ====
section
/-! SUPPORT. Tests of the model on the vectors of spec/95_test_vectors.md (the expected values are the spec's, not the
model's), the smoke tests of WellFormed, the decoding of words written out from the spec, and for every statement with
hypotheses a witness: a concrete state and operands that meet them all. -/

namespace Sys2Proof.Tests

open Machine

/-! ### Small states -/

/-- The parameters of spec/95_test_vectors.md. -/
def smallParams : Params := { sr := 8, nvoice := 2, ntable := 2 }

/-- Words written from word address `lo` on. -/
def putWords : Nat → List Word → Memory → Memory
  | _, [], m => m
  | lo, w :: ws, m => writeWord (putWords (lo + 1) ws m) lo w

/-- One period of the table SAW8. -/
def saw : List Word :=
  [0x3F800000#32, 0x3F600000#32, 0x3F400000#32, 0x3F200000#32, 0x3F000000#32, 0x3EC00000#32, 0x3E800000#32,
    0x3E000000#32]

/-- SAW8 in bank 0. -/
def sawMem : Memory := putWords (tblAddr 0 0) (saw ++ saw) []

/-- The voice ADSR8. -/
def adsr : Voice :=
  { Voice.blank with
    valid := true, aslope := 0x3E800000#32, dslope := 0x3E800000#32, sush := 0x3F000000#32, rslope := 0x3E800000#32,
    dexp := fOne, ddrive := fOne, vol := fOne }

/-- ADSR8 with a distortion of the given exponent and drive. -/
def distVoice (dexp ddrive : Word) : Voice := { adsr with distEn := true, dexp := dexp, ddrive := ddrive }

/-- Bank 0 holds SAW8 and is sealed, slot 0 holds `vc`, slot 1 is free, `SCR` holds `scr`, `G.OFFARG` is `off`. -/
def withVoice (vc : Voice) (scr : List Word) (off : Word) : State :=
  { State.resetWith smallParams with
    voices := [vc, Voice.blank], sealFlags := [true, false], mem := putWords scrBase scr sawMem, offarg := off }

/-- Eight input samples `1.0`. -/
def ones : List Word := List.replicate 8 fOne

/-- ADSR8 with eight samples `1.0`. -/
def start : State := withVoice adsr ones 0#32

/-- The staging registers of ADSR8 with bank 0 sealed and both slots free. -/
def staged : State :=
  { State.resetWith smallParams with
    sealFlags := [true, false], pAttack := 0x3F000000#32, pDecay := fOne, pSustain := 0x3F000000#32, pRelease := fOne,
    pVolume := fOne }

/-- A state with one pending host action. -/
def does (a : HostAction) (s : State) : State := { s with pending := [a] }

/-- The next state, if there is one. -/
def after : Host.Outcome State Fault Refusal → Option State
  | .next t => some t
  | .fault _ => none
  | .refused _ => none

/-- The outcome is a next state with the property `p`. -/
def nextWith (p : State → Bool) (o : Host.Outcome State Fault Refusal) : Bool :=
  match after o with
  | some t => p t
  | none => false

theorem exists_next {p : State → Bool} {o : Host.Outcome State Fault Refusal} (h : nextWith p o = true) :
    ∃ t, o = .next t ∧ p t = true := by
  cases o with
  | next t => exact ⟨t, rfl, h⟩
  | fault e => cases h
  | refused r => cases h

/-- The first `n` samples of `SCR` after a command. -/
def scrAfter (n : Nat) (i : Instr) (s : State) : Option (List (Option Word)) :=
  (after (exec i s)).map fun t => (List.range n).map (readScr t.mem)

/-- Slot 0, `G.RSTATE` and `G.LAST` after a command. -/
def statusAfter (i : Instr) (s : State) : Option (Option Voice × BitVec 2 × BitVec 8) :=
  (after (exec i s)).map fun t => (t.voices[0]?, t.rstate, t.last)

/-! ### WellFormed -/

theorem test_wellFormed_accepts_the_largest_operands :
    ∀ i ∈ [Instr.osc 63 4194303, .env 63 4194303, .dist 63 4194303, .vol 63 4194303, .prod 63 4194303, .enq,
      .fill 4194303, .tseal 63], i.wellFormed = true := by decide

theorem test_wellFormed_refuses_a_slot_above_the_field :
    ∀ i ∈ [Instr.osc 64 0, .env 64 0, .dist 64 0, .vol 64 0, .prod 64 0, .tseal 64], i.wellFormed = false := by decide

theorem test_wellFormed_refuses_a_length_above_the_field :
    ∀ i ∈ [Instr.osc 0 4194304, .env 0 4194304, .dist 0 4194304, .vol 0 4194304, .prod 0 4194304, .fill 4194304],
      i.wellFormed = false := by decide

/-! ### Decoding (30_encoding.md R109, T-ENC-1, T-ENC-2) -/

theorem test_decode_osc : decode 0b00010000010000000000000000000100#32 = .ok (.osc 1 4) := by decide

theorem test_decode_env : decode 0b00100000110000000000000001100100#32 = .ok (.env 3 100) := by decide

theorem test_decode_dist : decode 0b00110000010000000000000000001000#32 = .ok (.dist 1 8) := by decide

theorem test_decode_vol : decode 0b01000000000000000000000000000010#32 = .ok (.vol 0 2) := by decide

theorem test_decode_prod : decode 0b01010000100000001010110001000100#32 = .ok (.prod 2 44100) := by decide

theorem test_decode_enq : decode 0b01100000000000000000000000000000#32 = .ok .enq := by decide

theorem test_decode_fill : decode 0b01110000000000001010110001000100#32 = .ok (.fill 44100) := by decide

theorem test_decode_tseal : decode 0b10000001010000000000000000000000#32 = .ok (.tseal 5) := by decide

theorem test_decode_refuses :
    decode 0x00000000#32 = .error .reservedOp ∧ decode 0xFFFFFFFF#32 = .error .reservedOp ∧
      decode 0x90000000#32 = .error .reservedOp ∧ decode 0x60000001#32 = .error .enqOperand ∧
      decode 0x60400000#32 = .error .enqOperand ∧ decode 0x70400004#32 = .error .fillVoice ∧
      decode 0x80000001#32 = .error .tsealLength := by decide

/-- Every row of the opcode table decodes from its match word and runs as the first command after reset. -/
theorem test_rows_decode_and_run :
    ∀ w ∈ [0x10000000, 0x20000000, 0x30000000, 0x40000000, 0x50000000, 0x60000000, 0x70000000, 0x80000000],
      (decodeTableWord 32 w).isSome = true ∧
        nextWith (fun _ => true) (step (State.reset.withFetchWord 32 w)) = true := by decide

/-! ### Numbers (T-NUM-1 to T-NUM-3, T-INIT-1, T-DIST-1) -/

theorem test_u2f :
    u2f 8 = 0x41000000#32 ∧ u2f 44100 = 0x472C4400#32 ∧ u2f (2 ^ 24 + 1) = 0x4B800000#32 ∧
      u2f (2 ^ 24 + 3) = 0x4B800002#32 ∧ u2f (2 ^ 32 - 1) = 0x4F800000#32 := by decide

theorem test_fdiv :
    fdiv fOne (u2f 2) = 0x3F000000#32 ∧ fdiv fOne (u2f 3) = 0x3EAAAAAB#32 ∧ fdiv fOne (u2f 5) = 0x3E4CCCCD#32 ∧
      fdiv fOne (u2f 64) = 0x3C800000#32 := by decide

theorem test_fsub_fmul_fadd :
    fsub fOne fC001 = 0x3F7D70A4#32 ∧ fmul fInf fZero = fNaN ∧ fadd fZero fNegZero = fZero ∧
      fmul 0xBF000000#32 fZero = fNegZero ∧ fmul 0x7FA00001#32 0x40000000#32 = fNaN ∧
      fmul 0x7F7FFFFF#32 0x40000000#32 = fInf := by decide

theorem test_slopes :
    attackSlope Params.default 0x3DCCCCCD#32 = 0x396DC5B8#32 ∧
      fallSlope Params.default 0x3E4CCCCD#32 0x3F000000#32 = 0x396DC5B8#32 ∧
      fallSlope Params.default 0x3E99999A#32 0x3F000000#32 = 0x391E83CF#32 ∧
      attackSlope Params.default 0x80000000#32 = fInf := by decide

theorem test_distortion_exponent :
    distExponent 0x3F000000#32 = 0x3F000000#32 ∧ distExponent fZero = 0x3F7D70A4#32 ∧
      distExponent fC001 = 0x3F7D70A4#32 ∧ distExponent 0x3CA3D70A#32 = 0x3F7AE148#32 ∧ distExponent fOne = fZero ∧
      distExponent 0xC0400000#32 = 0x3F7D70A4#32 ∧ distExponent fNegInf = 0x3F7D70A4#32 := by decide

/-! ### Commands -/

/-- T-OSC-1. -/
theorem test_osc_reads_modulo_the_rate :
    scrAfter 4 (.osc 0 3) (withVoice adsr [fZero, fZero, fZero, 0x41100000#32] 13#32) =
      some [some 0x3EC00000#32, some 0x3E800000#32, some 0x3E000000#32, some 0x41100000#32] := by decide

/-- T-OSC-5. -/
theorem test_osc_offset_limit :
    (after (exec (.osc 0 3) (withVoice adsr ones 0xFFFFFFFD#32))).map (fun t => t.last) = some 0x04#8 ∧
      (after (exec (.osc 0 2) (withVoice adsr ones 0xFFFFFFFD#32))).map (fun t => t.last) = some 0x00#8 := by decide

/-- T-ENV-1. -/
theorem test_env_whole_envelope :
    scrAfter 8 (.env 0 8) start =
        some [some 0x00000000#32, some 0x3E800000#32, some 0x3F000000#32, some 0x3F400000#32, some 0x3F800000#32,
          some 0x3F400000#32, some 0x3F000000#32, some 0x3E800000#32] ∧
      statusAfter (.env 0 8) start = some (some { adsr with state := .release, start := 6#32 }, 2#2, 0x00#8) := by decide

/-- T-ENV-5. -/
theorem test_env_does_not_clamp :
    scrAfter 8 (.env 0 8) (withVoice
        { adsr with aslope := 0x3ECCCCCD#32, dslope := 0x3F000000#32, rslope := 0x3F2AAAAB#32 } ones 0#32) =
      some [some 0x00000000#32, some 0x3ECCCCCD#32, some 0x3F4CCCCD#32, some 0x3F99999A#32, some 0x3F000000#32,
        some 0xBE2AAAAC#32, some 0x00000000#32, some 0x00000000#32] := by decide

/-- T-DIST-4. -/
theorem test_dist_hard_clip :
    scrAfter 5 (.dist 0 5) (withVoice (distVoice fZero 0x40000000#32)
        [0x3A83126F#32, 0xC0E00000#32, 0x00000000#32, 0x80000000#32, 0x00000001#32] 0#32) =
      some [some 0x3F800000#32, some 0xBF800000#32, some 0x00000000#32, some 0x80000000#32, some 0x3F800000#32] := by
  decide

/-- T-DIST-3, the three samples that hold for every `POW`, and T-DIST-6. -/
theorem test_dist_special_values :
    scrAfter 3 (.dist 0 3) (withVoice (distVoice 0x3F000000#32 fOne) [0x80000000#32, 0x7FA00001#32, fInf] 0#32) =
        some [some 0x80000000#32, some 0x7FC00000#32, some 0x7F800000#32] ∧
      (after (exec (.dist 0 1) start)).map (fun t => (t.last, t.err)) = some (0x06#8, 0x06#8) := by decide

/-- T-VOL-1. -/
theorem test_vol_scales :
    scrAfter 2 (.vol 0 2) (withVoice { adsr with vol := 0x3F000000#32 } [fOne, 0xBE800000#32] 0#32) =
      some [some 0x3F000000#32, some 0xBE000000#32] := by decide

/-- T-VOL-2. -/
theorem test_vol_one_touches_nothing :
    scrAfter 1 (.vol 0 1) (withVoice adsr [0x7FA00001#32] 0#32) = some [some 0x7FA00001#32] ∧
      scrAfter 1 (.vol 0 1) (withVoice { adsr with vol := 0x40000000#32 } [0x7FA00001#32] 0#32) =
        some [some 0x7FC00000#32] := by decide

/-- T-PROD-1, the first call. -/
theorem test_prod_first_call :
    scrAfter 5 (.prod 0 4) (withVoice adsr (List.replicate 8 0x41100000#32) 0#32) =
        some [some 0x00000000#32, some 0x3E600000#32, some 0x3EC00000#32, some 0x3EF00000#32, some 0x41100000#32] ∧
      statusAfter (.prod 0 4) start = some (some { adsr with offset := 4#32 }, 0#2, 0x00#8) := by decide

/-- T-PROD-1, the second call: the envelope ends, the offset stays. -/
theorem test_prod_to_the_end :
    scrAfter 8 (.prod 0 8) (withVoice { adsr with offset := 4#32 } ones 0#32) =
        some [some 0x3F000000#32, some 0x3E900000#32, some 0x3E000000#32, some 0x3D000000#32, some 0x00000000#32,
          some 0x00000000#32, some 0x00000000#32, some 0x00000000#32] ∧
      statusAfter (.prod 0 8) (withVoice { adsr with offset := 4#32 } ones 0#32) =
        some (some { adsr with state := .done, start := 6#32, offset := 4#32, fin := true }, 3#2, 0x00#8) := by decide

/-- The voice ADSR8 as `ENQ` builds it, and the next slot. -/
theorem test_enq_builds_adsr :
    (after (exec .enq staged)).map (fun t => (t.voices, t.rslot, t.last)) =
        some ([adsr, Voice.blank], 0#6, 0x00#8) ∧
      (after (exec .enq { staged with voices := [adsr, Voice.blank] })).map (fun t => t.rslot) = some 1#6 ∧
      (after (exec .enq { staged with voices := [adsr, adsr] })).map (fun t => t.last) = some 0x09#8 := by decide

/-- T-ENQ-1. -/
theorem test_enq_refusals :
    ([{ staged with pCtl := 0x20#32 }, { staged with pCtl := 0x21#32 }, { staged with pCtl := 0x01#32 },
        { staged with pCtl := 0x02#32 }, { staged with pAttack := fNaN }, { staged with pDecay := 0xBF800000#32 },
        { staged with pRelease := fInf }, { staged with pVolume := fNegInf }, { staged with pAttack := fNegZero },
        { staged with pSustain := 0x40000000#32 }, { staged with pVolume := 0xC0000000#32 },
        { staged with pCrunch := fNaN }, { staged with pCtl := 0x100#32, pCrunch := 0x3FC00000#32 }].map fun s =>
          (after (exec .enq s)).map fun t => t.last) =
      [some 7#8, some 7#8, some 8#8, some 8#8, some 7#8, some 7#8, some 7#8, some 7#8, some 0#8, some 0#8, some 0#8,
        some 0#8, some 7#8] := by decide

/-- Program P2: two equal voices give the samples of one. -/
theorem test_fill_of_two_equal_voices :
    (after (exec (.fill 4) { start with voices := [adsr, adsr] })).map (fun t =>
        ((List.range 4).map (readOut t.mem), t.rcount, t.voices)) =
      some ([some 0x00000000#32, some 0x3E600000#32, some 0x3EC00000#32, some 0x3EF00000#32], 2#7,
        [{ adsr with offset := 4#32 }, { adsr with offset := 4#32 }]) := by decide

/-- The end of T-PROD-1, and S8: silence. -/
theorem test_fill_removes_and_is_silent :
    (after (exec (.fill 0) (withVoice { adsr with state := .done, fin := true } [] 0#32))).map (fun t =>
        (t.rcount, t.voices.map (fun vc => vc.valid))) = some (1#7, [false, false]) ∧
      (after (exec (.fill 2) (State.resetWith smallParams))).map (fun t =>
        ((List.range 2).map (readOut t.mem), t.rcount)) = some ([some 0#32, some 0#32], 0#7) := by decide

/-- T-SEAL-1. -/
theorem test_tseal :
    (after (exec (.tseal 1) start)).map (fun t => (t.sealFlags, globalValue .tsealed t)) = some ([true, true], 3#32) ∧
      ([Instr.tseal 0, .tseal 2].map fun i => (after (exec i start)).map fun t => t.last) =
        [some 0x08#8, some 0x08#8] := by decide

/-! ### The bus (T-BUS-1, T-SEAL-1) -/

theorem test_bus_refusals :
    ([HostAction.write 0x00000001#32 0#32, .write 0x00200000#32 0#32, .write 0x00001000#32 0#32, .read 0x0000000C#32,
        .read 0x00100008#32, .read 0x00001020#32, .read 0x0000100A#32, .read 0x04400000#32, .read 0x04000010#32,
        .write 0x04000000#32 fOne, .read 0x00000000#32, .readBytes 0x2#34 4, .readBytes 0x0#34 2].map fun a =>
          (after (step (does a start))).map fun t => (t.last, t.rdata)) =
      [some (0x0B#8, none), some (0x0B#8, none), some (0x0B#8, none), some (0x0B#8, some 0#32),
        some (0x0B#8, some 0#32), some (0x0B#8, some 0#32), some (0x0B#8, some 0#32), some (0x0B#8, some 0#32),
        some (0x0B#8, some 0#32), some (0x0A#8, none), some (0x00#8, some 0#32), some (0x0B#8, some 0#32),
        some (0x0B#8, some 0#32)] := by decide

theorem test_bus_reads :
    ([0x00000008#32, 0x00000009#32, 0x0000000A#32, 0x00001000#32, 0x04000001#32, 0x00000006#32].map fun a =>
        (after (step (does (.read a) { start with voices := [{ adsr with state := .done, fin := true }, adsr] }))).map
          fun t => t.rdata) =
      [some (some 8#32), some (some 2#32), some (some 2#32), some (some 0x33#32), some (some 0x3F600000#32),
        some (some 2#32)] := by decide

/-- R62: the low byte of a word lies at the lowest byte address. -/
theorem test_byte_bus_order :
    (after (step (does (.writeBytes 0x2C#34 [0x78#8, 0x56#8, 0x34#8, 0x12#8]) start))).map (fun t => t.offarg) =
      some 0x12345678#32 := by decide

/-! ### Witnesses: states and operands that meet the hypotheses of the statements -/

theorem exists_next_of {P : State → Prop} [DecidablePred P] {o : Host.Outcome State Fault Refusal}
    (h : nextWith (fun t => decide (P t)) o = true) : ∃ t, o = .next t ∧ P t := by
  obtain ⟨t, ht, hp⟩ := exists_next h
  exact ⟨t, ht, of_decide_eq_true hp⟩

theorem noReset_does_write (a w : Word) (s : State) : noReset (does (.write a w) s) := fun h => nomatch h

/-- The host writes a command word next. -/
def issues (w : Word) (s : State) : State := does (.write cmdAddr w) s

/-- ADSR8 in Decay since sample 4, in Release since sample 6, and Done. -/
def decaying : Voice := { adsr with state := .decay, start := 4#32 }

@[inherit_doc decaying] def releasing : Voice := { adsr with state := .release, start := 6#32 }

@[inherit_doc decaying] def finished : Voice := { adsr with state := .done, start := 6#32 }

/-- `SCR` after its first five samples were moved away: three samples `1.0` and a written bank. -/
def movedMem (n : Nat) : Memory := putWords scrBase (List.replicate n fOne) sawMem

theorem witness_DecodeAfterEncode :
    Instr.wellFormed (.osc 0 0) = true ∧ Instr.wellFormed (.osc 63 4194303) = true ∧
      Instr.wellFormed (.env 63 4194303) = true ∧ Instr.wellFormed (.dist 63 4194303) = true ∧
      Instr.wellFormed (.vol 63 4194303) = true ∧ Instr.wellFormed (.prod 63 4194303) = true ∧
      Instr.wellFormed .enq = true ∧ Instr.wellFormed (.fill 4194303) = true ∧
      Instr.wellFormed (.tseal 63) = true := by decide

theorem witness_EncodeAfterDecode :
    decode 0x1FFFFFFF#32 = .ok (.osc 63 4194303) ∧ decode 0x8FC00000#32 = .ok (.tseal 63) := by decide

theorem witness_RowsOfTheOpcodeMap :
    0x1FFFFFFF#32 &&& 0xF0000000#32 = 0x10000000#32 ∧ 0x2FFFFFFF#32 &&& 0xF0000000#32 = 0x20000000#32 ∧
      0x3FFFFFFF#32 &&& 0xF0000000#32 = 0x30000000#32 ∧ 0x4FFFFFFF#32 &&& 0xF0000000#32 = 0x40000000#32 ∧
      0x5FFFFFFF#32 &&& 0xF0000000#32 = 0x50000000#32 ∧ 0x60000000#32 &&& 0xFFFFFFFF#32 = 0x60000000#32 ∧
      0x703FFFFF#32 &&& 0xFFC00000#32 = 0x70000000#32 ∧ 0x8FC00000#32 &&& 0xF03FFFFF#32 = 0x80000000#32 := by decide

theorem witness_IllegalWordsAreRefused :
    (∀ w ∈ [0x10000000, 0x60000000, 0x703FFFFF, 0x8FC00000], ¬ illegalWord (BitVec.ofNat 32 w)) ∧
      (∀ w ∈ [0x0FFFFFFF, 0x90000000, 0x60000001, 0x68000000, 0x70400000, 0x7FC00000, 0x80000001, 0x80200000],
        illegalWord (BitVec.ofNat 32 w)) ∧
      ∀ w, (issues w start).pending = .write cmdAddr w :: [] := ⟨by decide, by decide, fun _ => rfl⟩

theorem witness_StepRunsTheCommand :
    start.pending = [] ∧ (does .reset start).pending = .reset :: [] ∧
      (issues 0x5080AC44#32 start).pending = .write cmdAddr 0x5080AC44#32 :: [] ∧
      decode 0x5080AC44#32 = .ok (.prod 2 44100) := by decide

theorem witness_ArithmeticRoundsOnce :
    (isFinite 0x7F7FFFFF#32 = true ∧ isFinite 0x00000001#32 = true ∧
      fint 0x7F7FFFFF#32 + fint 0x00000001#32 ≠ 0 ∧ fint 0x80000001#32 + fint 0x00000001#32 = 0 ∧
      fint 0x7F7FFFFF#32 - fint 0x00000001#32 ≠ 0 ∧ fint 0x00000001#32 - fint 0x00000001#32 = 0 ∧
      iszero 0x00000001#32 = false) ∧
    (isnan fOne = false ∧ iszero fOne = false ∧ iszero fNegZero = true) ∧ (iszero fZero = true ∧ isinf fInf = true) ∧
    (isinf fNegInf = true ∧ isnan fOne = false ∧ isinf fOne = false) ∧ fsign fInf ≠ fsign fNegInf ∧
    isnan 0x7F800001#32 = true ∧ isnan (fadd fInf fNegInf) = true ∧ isnan (fsub fInf fInf) = true ∧
    isnan (fmul fZero fInf) = true ∧ isnan (fdiv fZero fZero) = true := by decide

theorem witness_IntegerConversionIsNearest : 2 ^ 32 - 1 < 2 ^ 32 ∧ 2 ^ 24 < 2 ^ 32 ∧ 2 ^ 24 ≤ 2 ^ 24 := by decide

theorem witness_PowerHasTheNamedProperties :
    (isnan 0x00000001#32 = false ∧ fgt 0x00000001#32 fZero = true ∧ (0x3F7D70A4#32).toNat ≤ 0x3F7D70A4 ∧
      fgt 0x3F7D70A4#32 fZero = true) ∧
    isnan fInf = false ∧ fgt fInf fZero = true ∧ fZero.toNat ≤ 0x3F7D70A4 := by decide

/-- Both voices at the last offset that leaves room for three samples. -/
def late : State := withVoice { adsr with offset := 0xFFFFFFFC#32 } ones 0xFFFFFFFC#32

theorem witness_RefusedForTheFirstReason :
    (∀ r ∈ [(Instr.osc 1 9, Code.voice), (.osc 2 0, .voice), (.osc 0 9, .len), (.osc 0 4, .offOvf), (.env 63 0, .voice),
        (.env 0 9, .len), (.env 0 4, .offOvf), (.dist 1 0, .voice), (.dist 0 9, .len), (.dist 0 8, .noDist),
        (.vol 1 9, .voice), (.vol 0 9, .len), (.prod 1 9, .voice), (.prod 0 9, .len), (.prod 0 4, .offOvf),
        (.fill 9, .len), (.fill 4, .offOvf), (.tseal 2, .table), (.tseal 0, .table)],
      firstReason late r.1 = some r.2) ∧
    firstReason (withVoice decaying ones 3#32) (.env 0 1) = some .offSeq ∧
    (∀ r ∈ [({ staged with pCtl := 0x21#32 }, Code.param), ({ staged with pCtl := 0x01#32 }, .table),
        ({ staged with pSustain := fNaN }, .param), ({ staged with pVolume := fInf }, .param),
        ({ staged with pCtl := 0x100#32, pDrive := fNaN }, .param), ({ staged with voices := [adsr, adsr] }, .full)],
      firstReason r.1 .enq = some r.2) ∧
    (∀ i ∈ [Instr.osc 0 3, .env 0 3, .vol 0 8, .prod 0 3, .fill 3, .tseal 1], firstReason late i = none ∧
      nextWith (fun _ => true) (exec i late) = true) ∧
    firstReason staged .enq = none ∧ nextWith (fun _ => true) (exec .enq staged) = true := by decide

theorem witness_RefusalWritesOnlyItsCode : ∃ t, exec (.dist 0 1) start = .next t ∧ t.last ≠ 0x00#8 :=
  exists_next_of (by decide)

theorem witness_OnlyUnwrittenWordsStop :
    blockInv start ∧ blockInv (withVoice adsr [] 0#32) ∧
      exec (.osc 0 1) (withVoice adsr [] 0#32) = .fault (.unwrittenWord scrBase) :=
  ⟨by decide, by decide, rfl⟩

theorem witness_OscAddsTheTable :
    liveVoice start.params.nvoice start.voices 1 = none ∧ liveVoice start.params.nvoice start.voices 2 = none ∧
      holdsVoice late 0 { adsr with offset := 0xFFFFFFFC#32 } ∧ late.params.sr < 9 ∧ 4 ≤ late.params.sr ∧
      2 ^ 32 ≤ late.offarg.toNat + 4 ∧ late.offarg.toNat + 3 < 2 ^ 32 ∧ written late.mem scrBase 3 ∧
      tableWritten late.params adsr 3 late.offarg.toNat late.mem := by decide

theorem witness_OscillatorSplits :
    (start.params.legal = true ∧ holdsVoice start 0 adsr ∧ 5 + 3 ≤ start.params.sr ∧
      start.offarg.toNat + (5 + 3) < 2 ^ 32 ∧ written start.mem scrBase (5 + 3) ∧
      tableWritten start.params adsr (5 + 3) start.offarg.toNat start.mem ∧
      start.offarg.toNat % start.params.sr + 5 < start.params.sr ∧
      (∀ k, k < 3 → readScr (movedMem 3) k = readScr start.mem (5 + k)) ∧
      ∀ j, j < 2 * start.params.sr → readTbl (movedMem 3) adsr.tsel.toNat j = readTbl start.mem adsr.tsel.toNat j) ∧
    ∀ s ∈ [withVoice adsr ones 6#32], 2 + 2 ≤ s.params.sr ∧ tableWritten s.params adsr (2 + 2) s.offarg.toNat s.mem ∧
      ¬ s.offarg.toNat % s.params.sr + 2 < s.params.sr ∧ periodicBank s.params s.mem adsr.tsel.toNat := by decide

theorem witness_EnvMultipliesByTheGain :
    liveVoice start.params.nvoice start.voices 1 = none ∧
    (holdsVoice start 0 adsr ∧ start.params.sr < 9 ∧ 8 ≤ start.params.sr ∧ start.offarg.toNat + 8 < 2 ^ 32 ∧
      ∀ k, k < 8 → (envTrace start.offarg.toNat adsr k).state = .done ∨ (readScr start.mem k).isSome = true) ∧
    2 ^ 32 ≤ late.offarg.toNat + 4 ∧
    (∀ s ∈ [withVoice decaying ones 3#32], holdsVoice s 0 decaying ∧ decaying.state = .decay ∧
      s.offarg < decaying.start) ∧
    (∀ s ∈ [withVoice releasing ones 6#32], holdsVoice s 0 releasing ∧ releasing.state = .release ∧
      releasing.start ≤ s.offarg) ∧
    ∀ s ∈ [withVoice finished [] 0#32], holdsVoice s 0 finished ∧ readScr s.mem 0 = none ∧
      ∀ k, k < 8 → (envTrace s.offarg.toNat finished k).state = .done := by decide

theorem witness_AttackSample :
    ∀ off ∈ [0, 4, 0xFFFFFFFE], ∀ vc ∈ [adsr, { adsr with aslope := fInf, sush := fZero }],
      ∀ s ∈ [withVoice vc ones (BitVec.ofNat 32 off)], holdsVoice s 0 vc ∧ vc.state = .attack ∧ 1 ≤ s.params.sr ∧
        s.offarg.toNat + 1 < 2 ^ 32 ∧ readScr s.mem 0 = some fOne := by decide

theorem witness_DecaySample :
    ∀ off ∈ [4, 6, 0xFFFFFFFE], ∀ vc ∈ [decaying, { decaying with dslope := fInf }],
      ∀ s ∈ [withVoice vc ones (BitVec.ofNat 32 off)], holdsVoice s 0 vc ∧ vc.state = .decay ∧ 1 ≤ s.params.sr ∧
        s.offarg.toNat + 1 < 2 ^ 32 ∧ vc.start ≤ s.offarg ∧ readScr s.mem 0 = some fOne := by decide

theorem witness_ReleaseSample :
    ∀ off ∈ [6, 8, 0xFFFFFFFE], ∀ vc ∈ [releasing, { releasing with rslope := fInf }],
      ∀ s ∈ [withVoice vc ones (BitVec.ofNat 32 off)], holdsVoice s 0 vc ∧ vc.state = .release ∧ 1 ≤ s.params.sr ∧
        s.offarg.toNat + 1 < 2 ^ 32 ∧ vc.start ≤ s.offarg ∧ readScr s.mem 0 = some fOne := by decide

theorem witness_DoneSamplesAreZero :
    ∀ s ∈ [withVoice finished [] 0#32], holdsVoice s 0 finished ∧ finished.state = .done ∧ 8 ≤ s.params.sr ∧
      s.offarg.toNat + 8 < 2 ^ 32 := by decide

theorem witness_EnvelopeSplits :
    (holdsVoice start 0 adsr ∧ 5 + 3 ≤ start.params.sr ∧ start.offarg.toNat + (5 + 3) < 2 ^ 32 ∧
      adsr.state = .attack ∧ written start.mem scrBase (5 + 3) ∧
      ∀ k, k < 3 → readScr (movedMem 3) k = readScr start.mem (5 + k)) ∧
    ∀ s ∈ [withVoice decaying ones 4#32], holdsVoice s 0 decaying ∧ decaying.start ≤ s.offarg := by decide

theorem witness_PhaseNeverRegresses :
    (start.params.legal = true ∧ shaped start ∧ holdsVoice start 0 adsr ∧
      (∃ t, step (issues 0x20000005#32 start) = .next t ∧ holdsVoice t 0 decaying) ∧
      (∃ t, step (issues 0x20000001#32 (withVoice finished ones 0#32)) = .next t ∧ holdsVoice t 0 finished)) ∧
    (∃ t, exec (.env 0 1) (withVoice adsr ones 4#32) = .next t ∧ holdsVoice t 0 decaying) ∧
    ∃ t, exec (.env 0 1) (withVoice { adsr with sush := fNegZero } ones 4#32) = .next t ∧
      holdsVoice t 0 { adsr with sush := fNegZero, state := .done } :=
  ⟨⟨by decide, by decide, by decide, exists_next_of (by decide), exists_next_of (by decide)⟩,
    exists_next_of (by decide), exists_next_of (by decide)⟩

theorem witness_PhaseNeverRegresses_noReset : noReset (issues 0x20000005#32 start) := noReset_does_write _ _ _

theorem witness_InstantPhases :
    (smallParams.legal = true ∧ Params.legal { sr := 1048576, nvoice := 64, ntable := 32 } = true ∧
      iszero fNegZero = true ∧ isnan 0x7F7FFFFF#32 = false ∧ isinf 0x7F7FFFFF#32 = false) ∧
    (∀ vc ∈ [{ adsr with aslope := fInf }, { adsr with aslope := fInf, sush := fZero }], ∀ s ∈ [withVoice vc ones 0#32],
      holdsVoice s 0 vc ∧ 1 ≤ s.params.sr ∧ s.offarg.toNat + 1 < 2 ^ 32 ∧ readScr s.mem 0 = some fOne ∧
        isnan fOne = false ∧ vc.state = .attack ∧ vc.aslope = fInf) ∧
    (∀ vc ∈ [{ decaying with dslope := fInf }], ∀ s ∈ [withVoice vc ones 4#32], holdsVoice s 0 vc ∧
      vc.start ≤ s.offarg ∧ vc.state = .decay ∧ vc.dslope = fInf ∧ isnan vc.sush = false ∧
        readScr s.mem 0 = some fOne) ∧
    ∀ vc ∈ [{ releasing with rslope := fInf }], ∀ s ∈ [withVoice vc ones 6#32], holdsVoice s 0 vc ∧
      vc.start ≤ s.offarg ∧ vc.state = .release ∧ vc.rslope = fInf ∧ readScr s.mem 0 = some fOne := by decide

/-- T-ENV-1: the attack of ADSR8 completes at sample 4, its decay at 6, its release not within eight samples. -/
theorem witness_WholeEnvelopeShape :
    (holdsVoice start 0 adsr ∧ adsr.state = .attack ∧ iszero adsr.sush = false ∧ start.offarg = 0#32 ∧
      8 ≤ start.params.sr ∧ 8 < 2 ^ 32 ∧ written start.mem scrBase 8) ∧
    ∃ pA pD pR gA gD gR : Nat → Word,
      (∀ i, pA i = if isposinf adsr.aslope then fInf else fmul (u2f i) adsr.aslope) ∧
      (∀ i, gA i = if isposinf (pA i) then fOne else pA i) ∧
      (∀ i, pD i = if isposinf adsr.dslope then fInf else fmul (u2f (i - 4)) adsr.dslope) ∧
      (∀ i, gD i = if isposinf (pD i) then adsr.sush else fsub fOne (pD i)) ∧
      (∀ i, pR i = if isposinf adsr.rslope then fInf else fmul (u2f (i - 6)) adsr.rslope) ∧
      (∀ i, gR i = if isposinf (pR i) then fZero else fsub adsr.sush (pR i)) ∧
      firstBelow 8 (fun i => fge (gA i) fOne = true) 4 ∧
      firstBelow 8 (fun i => 4 < i ∧ fle (gD i) adsr.sush = true) 6 ∧
      firstBelow 8 (fun i => 6 < i ∧ fle (gR i) fZero = true) 8 := by
  refine ⟨by decide, _, _, _, _, _, _, fun _ => rfl, fun _ => rfl, fun _ => rfl, fun _ => rfl, fun _ => rfl,
    fun _ => rfl, ⟨by decide, by decide⟩, ⟨by decide, by decide⟩, ⟨by decide, by decide⟩⟩

/-- ADSR8 with an instant attack and decay: its release completes at sample 3. -/
def quick : Voice := { adsr with aslope := fInf, dslope := fInf }

theorem witness_WholeEnvelopeShape_complete :
    (∀ s ∈ [withVoice quick ones 0#32], holdsVoice s 0 quick ∧ quick.state = .attack ∧ iszero quick.sush = false ∧
      s.offarg = 0#32 ∧ 8 ≤ s.params.sr ∧ written s.mem scrBase 8) ∧
    ∃ pA pD pR gA gD gR : Nat → Word,
      (∀ i, pA i = if isposinf quick.aslope then fInf else fmul (u2f i) quick.aslope) ∧
      (∀ i, gA i = if isposinf (pA i) then fOne else pA i) ∧
      (∀ i, pD i = if isposinf quick.dslope then fInf else fmul (u2f (i - 0)) quick.dslope) ∧
      (∀ i, gD i = if isposinf (pD i) then quick.sush else fsub fOne (pD i)) ∧
      (∀ i, pR i = if isposinf quick.rslope then fInf else fmul (u2f (i - 1)) quick.rslope) ∧
      (∀ i, gR i = if isposinf (pR i) then fZero else fsub quick.sush (pR i)) ∧
      firstBelow 8 (fun i => fge (gA i) fOne = true) 0 ∧
      firstBelow 8 (fun i => 0 < i ∧ fle (gD i) quick.sush = true) 1 ∧
      firstBelow 8 (fun i => 1 < i ∧ fle (gR i) fZero = true) 3 := by
  refine ⟨by decide, _, _, _, _, _, _, fun _ => rfl, fun _ => rfl, fun _ => rfl, fun _ => rfl, fun _ => rfl,
    fun _ => rfl, ⟨by decide, by decide⟩, ⟨by decide, by decide⟩, ⟨by decide, by decide⟩⟩

theorem witness_EnvelopeOutputIsFinite :
    holdsVoice start 0 adsr ∧ voiceOk start.params start.sealFlags adsr ∧
      (∀ k x, k < 8 → readScr start.mem k = some x → fle (fabs x) fOne = true) ∧
      ∃ t, exec (.env 0 8) start = .next t ∧ t.last = 0x00#8 := by
  refine ⟨by decide, by decide, fun k x hk hx => ?_, exists_next_of (by decide)⟩
  have h : ∀ k, k < 8 → readScr start.mem k = some fOne := by decide
  rw [h k hk] at hx
  cases hx
  decide

theorem witness_DistShapesTheBuffer :
    liveVoice start.params.nvoice start.voices 1 = none ∧ holdsVoice start 0 adsr ∧ start.params.sr < 9 ∧
      8 ≤ start.params.sr ∧ adsr.distEn = false ∧
      ∀ vc ∈ [distVoice 0x3F000000#32 fOne], ∀ s ∈ [withVoice vc ones 0#32], holdsVoice s 0 vc ∧ vc.distEn = true ∧
        written s.mem scrBase 8 := by decide

theorem witness_ZerosAndTheHardClip :
    (∀ vc ∈ [distVoice fZero 0x40000000#32], ∀ x ∈ [0x80000000, 0xC0E00000, 0x3F000000],
      ∀ s ∈ [withVoice vc [BitVec.ofNat 32 x] 0#32], holdsVoice s 0 vc ∧ 1 ≤ s.params.sr ∧ vc.distEn = true ∧
        isFinite vc.ddrive = true ∧ readScr s.mem 0 = some (BitVec.ofNat 32 x)) ∧
    iszero 0x80000000#32 = true ∧ isnan (fmul 0xC0E00000#32 0x40000000#32) = false ∧
    iszero (fmul 0xC0E00000#32 0x40000000#32) = false ∧ (distVoice fZero 0x40000000#32).dexp = fZero ∧
    fabs (fmul 0x3F000000#32 0x40000000#32) = fOne ∧
    ∀ vc ∈ [distVoice 0x3F000000#32 fZero], ∀ s ∈ [withVoice vc ones 0#32], holdsVoice s 0 vc ∧ vc.distEn = true ∧
      isFinite vc.ddrive = true ∧ isFinite fOne = true ∧ iszero vc.ddrive = true := by decide

theorem witness_DistortionIsOdd :
    ∀ vc ∈ [distVoice 0x3F000000#32 fOne, distVoice 0x3F000000#32 fNaN], ∀ s ∈ [withVoice vc ones 0#32],
      holdsVoice s 0 vc ∧ 1 ≤ s.params.sr ∧ vc.distEn = true ∧ isnan fOne = false ∧ readScr s.mem 0 = some fOne ∧
        readScr (putWords scrBase [0xBF800000#32] []) 0 = some (fOne ^^^ 0x80000000#32) := by decide

theorem witness_VolScalesTheBuffer :
    liveVoice start.params.nvoice start.voices 1 = none ∧ holdsVoice start 0 adsr ∧ start.params.sr < 9 ∧
      8 ≤ start.params.sr ∧ feq adsr.vol fOne = true ∧
      ∀ vc ∈ [{ adsr with vol := 0x3F000000#32 }], ∀ s ∈ [withVoice vc ones 0#32], holdsVoice s 0 vc ∧
        fne vc.vol fOne = true ∧ written s.mem scrBase 8 := by decide

theorem witness_ProdProducesTheVoice :
    liveVoice start.params.nvoice start.voices 1 = none ∧
    (holdsVoice start 0 adsr ∧ start.params.legal = true ∧ start.params.sr < 9 ∧ 8 ≤ start.params.sr ∧
      adsr.offset.toNat + 8 < 2 ^ 32 ∧ tableWritten start.params adsr 8 adsr.offset.toNat start.mem ∧
      (envTrace adsr.offset.toNat adsr 8).state ≠ .done) ∧
    (∀ vc ∈ [{ adsr with offset := 0xFFFFFFFC#32 }], holdsVoice late 0 vc ∧ 2 ^ 32 ≤ vc.offset.toNat + 4 ∧
      vc.offset.toNat + 3 < 2 ^ 32 ∧ tableWritten late.params vc 3 vc.offset.toNat late.mem) ∧
    (envTrace 4 { adsr with offset := 4#32 } 8).state = .done := by decide

/-- The units one after the other, from a zeroed buffer, for a voice with a distortion and one without. -/
theorem witness_ProdIsTheChainOfUnits :
    ∀ vc ∈ [adsr, { distVoice fZero fOne with vol := 0x3F000000#32 }], ∀ s ∈ [withVoice vc [] 0#32],
      s.params.legal = true ∧ holdsVoice s 0 vc ∧ 4 ≤ s.params.sr ∧ vc.offset.toNat + 4 < 2 ^ 32 ∧
        vc.state = .attack ∧ tableWritten s.params vc 4 vc.offset.toNat s.mem ∧
        ∀ m0 ∈ [putWords scrBase (List.replicate 4 fZero) s.mem], (∀ k, k < 4 → readScr m0 k = some fZero) ∧
          nextWith (fun s1 => nextWith (fun s2 => nextWith (fun s3 => nextWith (fun s4 => decide (holdsVoice s4 0 vc))
              (exec (.vol 0 4) s3))
              (if vc.distEn then exec (.dist 0 4) s2 else .next s2)) (exec (.env 0 4) s1))
            (exec (.osc 0 4) { s with mem := m0, offarg := vc.offset }) = true := by decide

theorem witness_DoneVoiceIsSilent :
    ∀ vc ∈ [finished, { distVoice fZero fOne with state := .done, vol := 0xBF000000#32 }],
      ∀ s ∈ [withVoice vc [] 0#32], s.params.legal = true ∧ holdsVoice s 0 vc ∧ vc.state = .done ∧
        isFinite vc.ddrive = true ∧ isFinite vc.vol = true ∧ 8 ≤ s.params.sr ∧ vc.offset.toNat + 8 < 2 ^ 32 ∧
        tableWritten s.params vc 8 vc.offset.toNat s.mem := by decide

theorem witness_ProdSplits :
    (∀ vc ∈ [adsr, { adsr with offset := 4#32 }], ∀ s ∈ [withVoice vc [] 0#32], s.params.legal = true ∧
      holdsVoice s 0 vc ∧ 5 + 3 ≤ s.params.sr ∧ vc.offset.toNat + (5 + 3) < 2 ^ 32 ∧
      tableWritten s.params vc (5 + 3) vc.offset.toNat s.mem ∧ periodicBank s.params s.mem vc.tsel.toNat) ∧
    ∀ s ∈ [{ start with mem := putWords (tblAddr 0 0) (saw ++ ones) [] }], holdsVoice s 0 adsr ∧
      tableWritten s.params adsr (7 + 1) adsr.offset.toNat s.mem ∧ adsr.offset.toNat % s.params.sr + 7 < s.params.sr ∧
      ¬ periodicBank s.params s.mem adsr.tsel.toNat := by decide

theorem witness_EnqBuildsTheVoice :
    0#5 = staged.pCtl.extractLsb' 0 5 ∧ false = staged.pCtl.getLsbD 8 ∧
      ∃ inv : Word → Word, ∀ p, inv p = if iszero p then fInf else fdiv fOne p := ⟨by decide, by decide, _, fun _ => rfl⟩

/-- Both slots hold a voice of bank 0. -/
def twoVoices : State := { start with voices := [adsr, { adsr with vol := 0x3F000000#32 }] }

theorem witness_FillMixesTheVoices :
    ∀ s ∈ [start, twoVoices], s.params.legal = true ∧ shaped s ∧ s.params.sr < 9 ∧ 8 ≤ s.params.sr ∧
      (∀ vc ∈ s.voices, vc.valid = true → vc.offset.toNat + 8 < 2 ^ 32) ∧
      (∀ vc ∈ s.voices, vc.valid = true → tableWritten s.params vc 8 vc.offset.toNat s.mem) ∧
      ∃ vc ∈ late.voices, vc.valid = true ∧ 2 ^ 32 ≤ vc.offset.toNat + 4 := by decide

theorem witness_FillOfNoVoiceIsSilence :
    ∀ s ∈ [State.resetWith smallParams], (∀ vc ∈ s.voices, vc.valid = false) ∧ 8 ≤ s.params.sr := by decide

theorem witness_FillOfOneVoiceIsTheVoice :
    start.params.legal = true ∧ shaped start ∧ holdsVoice start 0 adsr ∧
      (∀ u, u < start.params.nvoice → u ≠ 0 → liveVoice start.params.nvoice start.voices u = none) ∧
      8 ≤ start.params.sr ∧ adsr.offset.toNat + 8 < 2 ^ 32 ∧
      tableWritten start.params adsr 8 adsr.offset.toNat start.mem := by decide

theorem witness_FillOfTwoEqualVoices :
    ∀ s ∈ [{ start with voices := [adsr, adsr] }], s.params.legal = true ∧ shaped s ∧ (0 : Nat) ≠ 1 ∧
      holdsVoice s 0 adsr ∧ holdsVoice s 1 adsr ∧
      (∀ w, w < s.params.nvoice → w ≠ 0 → w ≠ 1 → liveVoice s.params.nvoice s.voices w = none) ∧ 8 ≤ s.params.sr ∧
      adsr.offset.toNat + 8 < 2 ^ 32 ∧ tableWritten s.params adsr 8 adsr.offset.toNat s.mem := by decide

theorem witness_ScratchAfterFill :
    twoVoices.params.legal = true ∧ shaped twoVoices ∧ holdsVoice twoVoices 1 { adsr with vol := 0x3F000000#32 } ∧
      (∀ u, 1 < u → u < twoVoices.params.nvoice → liveVoice twoVoices.params.nvoice twoVoices.voices u = none) ∧
      (∃ t, exec (.fill 4) twoVoices = .next t ∧ t.last = 0x00#8) ∧
      (∀ vc ∈ (State.resetWith smallParams).voices, vc.valid = false) ∧
      ∃ t, exec (.fill 4) (State.resetWith smallParams) = .next t ∧ t.last = 0x00#8 :=
  ⟨by decide, by decide, by decide, fun u h1 h2 => absurd h2 (Nat.not_lt.2 h1), exists_next_of (by decide), by decide,
    exists_next_of (by decide)⟩

theorem witness_TsealSealsTheBank :
    start.params.ntable ≤ 2 ∧ start.sealFlags.getD 0 false = true ∧ 1 < start.params.ntable ∧
      start.sealFlags.getD 1 false = false ∧ shaped start := by decide

theorem witness_BusWritesByTarget :
    start.params.legal = true ∧
    (∀ a, (does (.write a fOne) start).pending = .write a fOne :: []) ∧
    (∀ k ∈ [0, 7], k < start.params.sr ∧ (BitVec.ofNat 32 (0x00100000 + k)).toNat = 0x00100000 + k) ∧
    (∀ b ∈ [0, 1], ∀ i ∈ [0, 15], b < start.params.ntable ∧ i < 2 * start.params.sr ∧
      (BitVec.ofNat 32 (0x04000000 + b * 0x00200000 + i)).toNat = 0x04000000 + b * 0x00200000 + i) ∧
    start.sealFlags.getD 0 false = true ∧ start.sealFlags.getD 1 false = false ∧
    ∀ a ∈ [0x01, 0x0A, 0x0C, 0x0F, 0x18, 0x1000, 0x00100008, 0x00200000, 0x04000010, 0x04400000, 0xFFFFFFFF],
      BitVec.ofNat 32 a ≠ 0x00#32 ∧ BitVec.ofNat 32 a ≠ 0x0B#32 ∧
        ¬ (0x10#32 ≤ BitVec.ofNat 32 a ∧ BitVec.ofNat 32 a ≤ 0x17#32) ∧
        ¬ scrWord start.params (BitVec.ofNat 32 a).toNat ∧ ¬ tblWord start.params (BitVec.ofNat 32 a).toNat :=
  ⟨by decide, fun _ => rfl, by decide, by decide, by decide, by decide, by decide⟩

theorem witness_ReadsOfGlobalRegisters :
    start.params.legal = true ∧
      (∀ a, (does (.read a) start).pending = .read a :: []) ∧
      ∃ ret : Word → Host.Outcome State Fault Refusal,
        ∀ w, ret w = .next { does (.read 0x07#32) start with pending := [], rdata := some w } :=
  ⟨by decide, fun _ => rfl, _, fun _ => rfl⟩

theorem witness_ReadsOfVoiceRegisters :
    start.params.legal = true ∧
      (∀ a, (does (.read a) start).pending = .read a :: []) ∧
      0 < start.params.nvoice ∧ 1 < start.params.nvoice ∧ holdsVoice start 0 adsr ∧
      liveVoice start.params.nvoice start.voices 1 = none ∧ (0x1009#32).toNat = 0x1000 + 16 * 0 + 9 ∧
      (0x1010#32).toNat = 0x1000 + 16 * 1 ∧ 0x1000 + 16 * 1 < (0x1011#32).toNat ∧
      (0x1019#32).toNat < 0x1000 + 16 * 1 + 10 ∧
      ∃ ret : Word → Host.Outcome State Fault Refusal,
        ∀ w, ret w = .next { does (.read 0x1000#32) start with pending := [], rdata := some w } :=
  ⟨by decide, fun _ => rfl, by decide, by decide, by decide, by decide, by decide, by decide, by decide, by decide, _,
    fun _ => rfl⟩

theorem witness_ReadsOfMemoryAndUnmapped :
    start.params.legal = true ∧
      (∀ a, (does (.read a) start).pending = .read a :: []) ∧
      (∀ a ∈ [0x00100000, 0x00100007, 0x04000000, 0x0400000F], (BitVec.ofNat 32 a).toNat = a ∧
        inWindow start.params a ∧ (readWord start.mem a).isSome = true) ∧
      (∀ a ∈ [0x00200000, 0x00200007, 0x04200000], (BitVec.ofNat 32 a).toNat = a ∧ inWindow start.params a ∧
        readWord start.mem a = none) ∧
      ∀ a ∈ [0x0C, 0x18, 0x100A, 0x1020, 0x00100008, 0x00200008, 0x04000010, 0x04400000],
        (BitVec.ofNat 32 a).toNat = a ∧ ¬ inWindow start.params a ∧ ¬ globalWord a ∧ ¬ voiceWord start.params a :=
  ⟨by decide, fun _ => rfl, by decide, by decide, by decide⟩

theorem witness_ByteBusAccesses :
    (does (.writeBytes 0x2C#34 [1#8, 2#8, 3#8, 4#8]) start).pending = .writeBytes 0x2C#34 [1#8, 2#8, 3#8, 4#8] :: [] ∧
      (0x2C#34).toNat % 4 = 0 ∧ ([1#8, 2#8] : List Byte).length ≠ 4 ∧ (0x2E#34).toNat % 4 ≠ 0 ∧
      (does (.readBytes 0x2C#34 4) start).pending = .readBytes 0x2C#34 4 :: [] ∧ (8 : Nat) ≠ 4 ∧ 3 < 4 := by decide

theorem witness_ReadsHaveNoSideEffect :
    (∀ a ∈ [HostAction.read 0x1000#32, .read 0x0C#32, .readBytes 0x2C#34 4, .readBytes 0x2D#34 4],
      (does a start).pending = a :: [] ∧ nextWith (fun _ => true) (step (does a start)) = true) ∧
    ∃ addr, HostAction.read 0x1000#32 = .read addr := ⟨by decide, _, rfl⟩

theorem witness_LastReportsTheAccess :
    (∀ a ∈ [HostAction.write cmdAddr 0x60000001#32, .write cmdAddr 0x70000004#32,
        .writeBytes 0#34 [1#8, 0#8, 0#8, 0x60#8], .write 0x0B#32 fOne, .read 0x1000#32, .read 0x0C#32,
        .writeBytes 0x01#34 [], .write 0x04000000#32 fOne],
      (does a start).pending = a :: [] ∧ a ≠ .reset ∧ nextWith (fun _ => true) (step (does a start)) = true) ∧
    (∀ a ∈ [HostAction.write cmdAddr 0x60000001#32, .writeBytes 0#34 [1#8, 0#8, 0#8, 0x60#8]],
      wordToCmd start.params a = some 0x60000001#32 ∧ illegalWord 0x60000001#32) ∧
    (∀ a ∈ [HostAction.write cmdAddr 0x70000009#32, .writeBytes 0#34 [9#8, 0#8, 0#8, 0x70#8]],
      wordToCmd start.params a = some 0x70000009#32 ∧ decode 0x70000009#32 = .ok (.fill 9) ∧
        firstReason start (.fill 9) = some .len) ∧
    (wordToCmd start.params (.write cmdAddr 0x70000004#32) = some 0x70000004#32 ∧
      decode 0x70000004#32 = .ok (.fill 4) ∧ firstReason start (.fill 4) = none) ∧
    ∀ a ∈ [HostAction.write 0x0B#32 fOne, .writeBytes 0x01#34 [1#8, 0#8, 0#8, 0x60#8], .writeBytes 0#34 [1#8],
        .read 0x00#32, .read 0x0C#32, .write 0x04000000#32 fOne],
      wordToCmd start.params a = none := by decide

theorem witness_ErrIsSticky :
    (∃ t, step (issues 0x60000001#32 start) = .next t ∧ t.err = 0x01#8) ∧
      (∃ t, step (issues 0x60000001#32 { start with err := 0x02#8 }) = .next t ∧ t.err ≠ 0x00#8) ∧
      (∃ t, step (issues 0x70000004#32 start) = .next t ∧ t.err = 0x00#8) ∧ noReset (issues 0x60000001#32 start) :=
  ⟨exists_next_of (by decide), exists_next_of (by decide), exists_next_of (by decide), noReset_does_write _ _ _⟩

theorem witness_ValidAndFinished :
    (staged.params.legal = true ∧ shaped staged ∧ liveVoice staged.params.nvoice staged.voices 0 = none ∧
      noReset (issues 0x60000000#32 staged) ∧ ∃ t, step (issues 0x60000000#32 staged) = .next t ∧ holdsVoice t 0 adsr) ∧
    (∀ s ∈ [withVoice { finished with fin := true } [] 0#32], holdsVoice s 0 { finished with fin := true } ∧
      nextWith (fun t => decide (liveVoice t.params.nvoice t.voices 0 = none)) (step (issues 0x70000000#32 s)) = true) ∧
    ∀ s ∈ [withVoice finished [] 0#32], holdsVoice s 0 finished ∧
      nextWith (fun t => decide (holdsVoice t 0 { finished with fin := true })) (step (issues 0x50000000#32 s)) = true :=
  ⟨⟨by decide, by decide, by decide, noReset_does_write _ _ _, exists_next_of (by decide)⟩, by decide, by decide⟩

theorem witness_VoiceConstantsNeverChange :
    start.params.legal = true ∧ shaped start ∧ holdsVoice start 0 adsr ∧ noReset (issues 0x70000004#32 start) ∧
      ∃ t, step (issues 0x70000004#32 start) = .next t ∧ holdsVoice t 0 { adsr with offset := 4#32 } :=
  ⟨by decide, by decide, by decide, noReset_does_write _ _ _, exists_next_of (by decide)⟩

theorem witness_SealedBanksNeverChange :
    start.params.legal = true ∧ shaped start ∧ 0 < start.params.ntable ∧ 1 < start.params.ntable ∧
      start.sealFlags.getD 0 false = true ∧ start.sealFlags.getD 1 false = false ∧
      noReset (issues 0x80400000#32 start) ∧
      (∃ t, step (issues 0x80400000#32 start) = .next t ∧ t.sealFlags.getD 1 false = true) ∧
      ∃ t, step (does (.write 0x04000000#32 fOne) start) = .next t ∧ 4 * tblAddr 0 0 ≤ 0x10000000 ∧
        0x10000000 < 4 * (tblAddr 0 0 + 2 * start.params.sr) :=
  ⟨by decide, by decide, by decide, by decide, by decide, by decide, noReset_does_write _ _ _,
    exists_next_of (by decide), exists_next_of (by decide)⟩

theorem witness_MemoryReachOfCommands :
    twoVoices.params.legal = true ∧ shaped twoVoices ∧
      (∃ t, exec (.fill 4) twoVoices = .next t ∧ t.last = 0x00#8) ∧
      (∃ t, exec (.prod 0 4) twoVoices = .next t ∧ t.last = 0x00#8) ∧
      (∃ t, exec .enq staged = .next t ∧ t.last = 0x00#8) ∧ outsideWords scrBase 4 (4 * (scrBase + 4)) ∧
      outsideWords outBase 4 (4 * outBase - 1) :=
  ⟨by decide, by decide, exists_next_of (by decide), exists_next_of (by decide), exists_next_of (by decide), by decide,
    by decide⟩

theorem witness_StagingReachesOnlyItsReaders :
    (Instr.osc 0 4 ≠ .enq ∧ { start with pCtl := 0x21#32 }.offarg = start.offarg) ∧
      (∀ v n, Instr.enq ≠ .osc v n ∧ Instr.enq ≠ .env v n) ∧
      ∀ g ∈ [{ staged with offarg := 7#32 }], g = { staged with offarg := g.offarg } :=
  ⟨by decide, fun _ _ => ⟨nofun, nofun⟩, by decide⟩

theorem witness_WritersOfTheRegisters :
    (∃ t, exec (.env 0 8) start = .next t ∧ t.rstate ≠ start.rstate ∧ t.voices ≠ start.voices) ∧
      (∃ t, exec .enq { staged with voices := [adsr, Voice.blank] } = .next t ∧ t.rslot ≠ staged.rslot) ∧
      (∃ t, exec (.fill 4) start = .next t ∧ t.rcount ≠ start.rcount) ∧
      ∃ t, exec (.tseal 1) start = .next t ∧ t.sealFlags ≠ start.sealFlags :=
  ⟨exists_next_of (by decide), exists_next_of (by decide), exists_next_of (by decide), exists_next_of (by decide)⟩

theorem witness_BlockInvariantIsKept :
    blockInv (issues 0x70000004#32 start) ∧ ∃ t, step (issues 0x70000004#32 start) = .next t ∧ t.rcount = 1#7 :=
  ⟨by decide, exists_next_of (by decide)⟩

theorem witness_BlockInvariantAtReset :
    Params.legal { sr := 1, nvoice := 1, ntable := 1 } = true ∧
      Params.legal { sr := 1048576, nvoice := 64, ntable := 32 } = true := by decide

theorem witness_PhasesBeginBeforeTheOffset :
    (∀ s ∈ [withVoice { decaying with offset := 5#32 } [] 0#32], s.params.legal = true ∧ shaped s ∧
      (∀ vc ∈ s.voices, vc.valid = true → contiguous vc) ∧
      nextWith (fun t => decide (∀ vc ∈ t.voices, vc.valid = true → vc.state = .release))
        (step (issues 0x70000003#32 s)) = true ∧ nextCommand (issues 0x70000003#32 s) = some (.fill 3)) ∧
    ∀ v n, some (Instr.fill 3) ≠ some (.env v n) := ⟨by decide, fun _ _ => nofun⟩

theorem witness_ResetState : (does .reset start).pending = .reset :: [] := rfl

end Sys2Proof.Tests
end

section
/-! SUPPORT. The numbers of 00_scope.md section 6: the fields of a pattern and the sign operations as operations on bit
vectors (R10, R12), the comparisons as an ordering of values (R12), and the conversion of an integer (R13). -/

namespace Sys2Proof.Machine

/-! ### The fields of a pattern -/

/-- `fsign` is the most significant bit. -/
theorem fsign_eq_msb (w : Word) : fsign w = w.msb := (BitVec.msb_eq_decide w).symm

/-- `fbits` is the pattern cut to its low 31 bits. -/
theorem fbits_eq_setWidth (w : Word) : fbits w = (w.setWidth 31).toNat := (BitVec.toNat_setWidth 31 w).symm

/-- Field 30:23 holds the biased exponent. -/
theorem toNat_extract_exponent (w : Word) : (w.extractLsb' 23 8).toNat = fbits w / 2 ^ 23 := by
  rw [BitVec.extractLsb'_toNat, Nat.shiftRight_eq_div_pow, fbits]
  omega

/-- Field 22:0 holds the fraction. -/
theorem toNat_extract_fraction (w : Word) : (w.extractLsb' 0 23).toNat = fbits w % 2 ^ 23 := by
  rw [BitVec.extractLsb'_toNat, Nat.shiftRight_zero, fbits]
  omega

/-- The exponent bits are all set in the infinities and the NaNs, that is from the pattern of infinity on. -/
theorem extract_exponent_eq_ones (w : Word) : w.extractLsb' 23 8 = 0xFF#8 ↔ 0x7F800000 ≤ fbits w := by
  rw [← BitVec.toNat_inj, toNat_extract_exponent, BitVec.toNat_ofNat]
  have := fbits_lt w
  omega

theorem extract_fraction_eq_zero (w : Word) : w.extractLsb' 0 23 = 0#23 ↔ fbits w % 2 ^ 23 = 0 := by
  rw [← BitVec.toNat_inj, toNat_extract_fraction, BitVec.toNat_ofNat, Nat.zero_mod]

theorem isnan_iff_fields (w : Word) : isnan w = true ↔ w.extractLsb' 23 8 = 0xFF#8 ∧ w.extractLsb' 0 23 ≠ 0#23 := by
  rw [Ne, extract_exponent_eq_ones, extract_fraction_eq_zero, isnan, decide_eq_true_iff]
  have := fbits_lt w
  omega

theorem isinf_iff_fields (w : Word) : isinf w = true ↔ w.extractLsb' 23 8 = 0xFF#8 ∧ w.extractLsb' 0 23 = 0#23 := by
  rw [extract_exponent_eq_ones, extract_fraction_eq_zero, isinf, decide_eq_true_iff]
  have := fbits_lt w
  omega

theorem iszero_iff_low_bits (w : Word) : iszero w = true ↔ w.extractLsb' 0 31 = 0#31 := by
  rw [← BitVec.setWidth_eq_extractLsb' (by decide), ← BitVec.toNat_inj, ← fbits_eq_setWidth, iszero,
    decide_eq_true_iff]
  rfl

theorem isposinf_iff (w : Word) : isposinf w = true ↔ w = 0x7F800000#32 := decide_eq_true_iff

/-! ### The two bit operations -/

theorem fabs_eq_and (w : Word) : fabs w = w &&& 0x7FFFFFFF#32 := by
  apply eq_of_sign_bits
  · rw [fsign_fabs, fsign_eq_msb, BitVec.msb_and]
    exact (Bool.and_false _).symm
  · rw [fbits_fabs, fbits_eq_setWidth, fbits_eq_setWidth, BitVec.setWidth_and]
    exact congrArg BitVec.toNat BitVec.and_allOnes.symm

theorem copysign_eq_or (a b : Word) : copysign a b = (a &&& 0x7FFFFFFF#32) ||| (b &&& 0x80000000#32) := by
  rw [← fabs_eq_and]
  apply eq_of_sign_bits
  · have hb : (b &&& 0x80000000#32).msb = fsign b := by
      rw [BitVec.msb_and, fsign_eq_msb]
      exact Bool.and_true _
    rw [fsign_copysign, fsign_eq_msb (_ ||| _), BitVec.msb_or, hb, ← fsign_eq_msb, fsign_fabs, Bool.false_or]
  · have hb : (b &&& 0x80000000#32).setWidth 31 = 0#31 := by
      rw [BitVec.setWidth_and]
      exact BitVec.and_zero
    rw [fbits_copysign, fbits_eq_setWidth (_ ||| _), BitVec.setWidth_or, hb, BitVec.or_zero, ← fbits_eq_setWidth,
      fbits_fabs]

/-! ### The comparisons -/

section
variable {a b : Word} (ha : isnan a = false) (hb : isnan b = false)
include ha hb

theorem fkey_lt : fkey a < fkey b ↔ orderValue a < orderValue b := by
  rw [← Int.not_le, ← Int.not_le, fkey_le hb ha]

theorem fkey_eq : fkey a = fkey b ↔ orderValue a = orderValue b := by
  rw [le_antisymm_iff, le_antisymm_iff, fkey_le ha hb, fkey_le hb ha]
end

/-- Each comparison of the model is a comparison of keys behind both NaN tests: it follows the values when the keys of
operands that are not NaN do. -/
theorem guarded_compare_iff {a b : Word} {k v : Prop} [Decidable k]
    (h : isnan a = false → isnan b = false → (k ↔ v)) :
    (!isnan a && !isnan b && decide k) = true ↔ isnan a = false ∧ isnan b = false ∧ v := by
  rw [Bool.and_eq_true, Bool.and_eq_true, Bool.not_eq_true', Bool.not_eq_true', decide_eq_true_iff, and_assoc]
  exact and_congr_right fun ha => and_congr_right fun hb => h ha hb

theorem fge_iff (a b : Word) :
    fge a b = true ↔ isnan a = false ∧ isnan b = false ∧ orderValue b ≤ orderValue a :=
  guarded_compare_iff fun ha hb => fkey_le hb ha

theorem fle_iff (a b : Word) :
    fle a b = true ↔ isnan a = false ∧ isnan b = false ∧ orderValue a ≤ orderValue b :=
  guarded_compare_iff fun ha hb => fkey_le ha hb

theorem flt_iff (a b : Word) :
    flt a b = true ↔ isnan a = false ∧ isnan b = false ∧ orderValue a < orderValue b :=
  guarded_compare_iff fun ha hb => fkey_lt ha hb

theorem fgt_iff (a b : Word) :
    fgt a b = true ↔ isnan a = false ∧ isnan b = false ∧ orderValue b < orderValue a :=
  guarded_compare_iff fun ha hb => fkey_lt hb ha

theorem feq_iff (a b : Word) :
    feq a b = true ↔ isnan a = false ∧ isnan b = false ∧ orderValue a = orderValue b :=
  guarded_compare_iff fun ha hb => fkey_eq ha hb

theorem fne_iff (a b : Word) : fne a b = true ↔ feq a b = false := by
  rw [fne, Bool.not_eq_true']

/-- Settles O8: each class, bit operation and comparison by its own lemma; the comparisons all rest on `fkey_le`, the
order of the keys being the order of the values. -/
theorem comparisonsFollowTheValues : Obligations.ComparisonsFollowTheValues := fun a b =>
  ⟨isnan_iff_fields a, isinf_iff_fields a, iszero_iff_low_bits a, isposinf_iff a, fabs_eq_and a, copysign_eq_or a b,
    fge_iff a b, fle_iff a b, flt_iff a b, fgt_iff a b, feq_iff a b, fne_iff a b⟩

/-! ### The conversion of an integer -/

theorem u2f_zero : u2f 0 = fZero := by
  rw [u2f, Nat.zero_mul, roundTo, roundBits_zero]
  rfl

/-- The value of `u2f n` is the rounded magnitude, with a clear sign. -/
theorem fint_u2f (n : Nat) : fint (u2f n) = (magOfBits (roundBits (n * 2 ^ 149) 1) : Int) := by
  rw [fint, u2f, fsign_roundTo, if_neg Bool.false_ne_true, fmag, fbits_roundTo]

theorem fint_u2f_exact {n : Nat} (h : n ≤ 2 ^ 24) : fint (u2f n) = (n : Int) * 2 ^ 149 := by
  rw [fint_u2f, u2f_exact h, Nat.cast_mul, Nat.cast_pow, Nat.cast_ofNat]

/-- Settles O9: `u2f n` carries the rounded bits of `n`, which are nearest (`roundBits_isNearest`), finite below `2^32`
(`u2f_lt`) and exact up to `2^24` (`u2f_exact`). -/
theorem integerConversionIsNearest : Obligations.IntegerConversionIsNearest :=
  ⟨u2f_zero, fun n hn =>
    ⟨⟨roundBits (n * 2 ^ 149) 1, roundBits_isNearest Nat.one_pos, u2f_lt hn, rfl⟩, fint_u2f_exact⟩⟩

end Sys2Proof.Machine
end

section
/-! SUPPORT. What `RD` of a global register returns (10_state.md R21 to R27, 45_host_access.md R187). -/

namespace Sys2Proof.Machine

/-- A read of a global register returns the register's value and changes nothing else (45_host_access.md R187). -/
theorem step_read_global {s : State} {addr : Word} {rest : List HostAction} {r : GlobalReg}
    (h : s.pending = .read addr :: rest) (hr : globalRegAt addr.toNat = some r) :
    step s = .next { s with pending := rest, rdata := some (globalValue r s) } :=
  step_read h (target_global hr)

/-- Every legal parameter is below `2^32`, so the capability registers hold the parameters whole (00_scope.md R6). -/
theorem toNat_capabilities {s : State} (hl : s.params.legal = true) :
    (globalValue .capSr s).toNat = s.params.sr ∧ (globalValue .capNv s).toNat = s.params.nvoice ∧
      (globalValue .capNt s).toNat = s.params.ntable := by
  simp only [Params.legal, Bool.and_eq_true, decide_eq_true_eq] at hl
  simp only [globalValue, BitVec.toNat_ofNat]
  omega

/-- `TSEALED` is the bitmap of the flags: a legal `NTABLE` fits the 32 bits of the register (10_state.md R27). -/
theorem globalValue_tsealed_bit {s : State} (hl : s.params.legal = true) {b : Nat} (hb : b < 32) :
    (globalValue .tsealed s).getLsbD b = (decide (b < s.params.ntable) && s.sealFlags.getD b false) := by
  simp only [Params.legal, Bool.and_eq_true, decide_eq_true_eq] at hl
  exact sealBitmap_bit hl.2 s.sealFlags b hb

/-- Settles O42: each address is that of one register, whose read is `step_read_global`; only the bitmap and the three
parameters need an argument about the value, the others read as `globalValue` defines them. -/
theorem readsOfGlobalRegisters : Obligations.ReadsOfGlobalRegisters := by
  intro s addr rest ret hl hp hret
  have read (a : Word) (r : GlobalReg) (hr : globalRegAt a.toNat = some r) (ha : addr = a) :
      step s = ret (globalValue r s) := by
    subst ha
    rw [hret, step_read_global hp hr]
  obtain ⟨hsr, hnv, hnt⟩ := toNat_capabilities hl
  exact ⟨read _ .cmd rfl, read _ .err rfl, read _ .last rfl, read _ .rstate rfl, read _ .rslot rfl, read _ .rcount rfl,
    read _ .nactive rfl, fun h => ⟨_, read _ .tsealed rfl h, fun _ => globalValue_tsealed_bit hl⟩,
    fun h => ⟨_, read _ .capSr rfl h, hsr⟩, fun h => ⟨_, read _ .capNv rfl h, hnv⟩,
    fun h => ⟨_, read _ .capNt rfl h, hnt⟩, read _ .offarg rfl, read _ .pCtl rfl, read _ .pAttack rfl,
    read _ .pDecay rfl, read _ .pSustain rfl, read _ .pRelease rfl, read _ .pVolume rfl, read _ .pCrunch rfl,
    read _ .pDrive rfl⟩

end Sys2Proof.Machine
end

section
/-! SUPPORT. The byte-addressed bus: its bytes and words (20_memory.md R62), and which accesses it refuses (R63). -/

namespace Sys2Proof.Machine

/-- Byte `j` of a word is its bits `8j+7:8j` (20_memory.md R62). -/
theorem byteOf_eq_extractLsb' (w : Word) (j : Nat) : byteOf w j = w.extractLsb' (8 * j) 8 :=
  BitVec.setWidth_ushiftRight_eq_extractLsb

/-- Each byte of a written word reads back (20_memory.md R62). -/
theorem readByte_writeWord_same (m : Memory) (a : Nat) (w : Word) {j : Nat} (hj : j < 4) :
    readByte (writeWord m a w) (4 * a + j) = some (byteOf w j) :=
  readByte_of_readWord (readWord_writeWord_same m a w) hj

/-- The four bytes in a row, highest first, are the word they make (20_memory.md R62). -/
theorem wordOfBytes_eq_append (b0 b1 b2 b3 : Byte) : wordOfBytes b0 b1 b2 b3 = b3 ++ b2 ++ b1 ++ b0 := by
  rw [BitVec.append_assoc, BitVec.append_assoc]
  rfl

/-- Dividing a byte address by 4 drops its two low bits. -/
theorem wordAddr_eq_extractLsb' (ba : BitVec 34) : wordAddr ba = ba.extractLsb' 2 32 := by
  rw [wordAddr, BitVec.extractLsb', Nat.shiftRight_eq_div_pow]

theorem isAligned_iff {ba : BitVec 34} : isAligned ba = true ↔ ba.toNat % 4 = 0 :=
  decide_eq_true_iff

/-- Four bytes at an aligned address are written as the word they make (20_memory.md R62). -/
theorem byteBusWrite_aligned {ba : BitVec 34} (h : ba.toNat % 4 = 0) (b0 b1 b2 b3 : Byte) (s : State) :
    byteBusWrite ba [b0, b1, b2, b3] s = busWrite (wordAddr ba) (wordOfBytes b0 b1 b2 b3) s :=
  if_pos (isAligned_iff.mpr h)

/-- A write of another width or at another alignment is refused (20_memory.md R63). -/
theorem byteBusWrite_refused {ba : BitVec 34} {data : List Byte} (h : data.length ≠ 4 ∨ ba.toNat % 4 ≠ 0)
    (s : State) : byteBusWrite ba data s = .next (refuse .addr (setRdata none s)) := by
  unfold byteBusWrite
  split
  case h_1 =>
    have hna : ba.toNat % 4 ≠ 0 := h.resolve_left fun hw => hw rfl
    exact if_neg fun ha => hna (isAligned_iff.mp ha)
  case h_2 => rfl

/-- Four bytes at an aligned address are read as a word (20_memory.md R62). -/
theorem byteBusRead_aligned {ba : BitVec 34} (h : ba.toNat % 4 = 0) (s : State) :
    byteBusRead ba 4 s = busRead (wordAddr ba) s :=
  if_pos ⟨rfl, isAligned_iff.mpr h⟩

/-- A read of another width or at another alignment is refused and returns 0 (20_memory.md R63). -/
theorem byteBusRead_refused {ba : BitVec 34} {width : Nat} (h : width ≠ 4 ∨ ba.toNat % 4 ≠ 0) (s : State) :
    byteBusRead ba width s = .next (refusedRead s) :=
  if_neg fun ⟨hw, ha⟩ => h.elim (· hw) (· (isAligned_iff.mp ha))

/-- Two pending lists whose oldest actions are served alike give the same step. -/
theorem step_eq_step_of_serve {s : State} {a a' : HostAction} {rest : List HostAction} (h : s.pending = a :: rest)
    (ha : serve a (takeAction rest s) = serve a' (takeAction rest s)) :
    step s = step { s with pending := a' :: rest } := by
  rw [step_serve h, ha]
  exact (step_serve (s := { s with pending := a' :: rest }) rfl).symm

/-- Settles O45: an aligned access of four bytes is served as the access of its word, every other one is refused
(`byteBusWrite_refused`, `byteBusRead_refused`). -/
theorem byteBusAccesses : Obligations.ByteBusAccesses := by
  refine ⟨fun m a j w hj => ?_, fun s ba rest => ⟨fun b0 b1 b2 b3 hp ha => ?_, fun data hp hd => ?_, fun hp ha => ?_,
    fun width hp hw => ?_⟩⟩
  · rw [readByte_writeWord_same m a w hj, byteOf_eq_extractLsb']
  · rw [← wordAddr_eq_extractLsb', ← wordOfBytes_eq_append]
    exact step_eq_step_of_serve hp (byteBusWrite_aligned ha b0 b1 b2 b3 _)
  · rw [step_serve hp]
    exact byteBusWrite_refused hd _
  · rw [← wordAddr_eq_extractLsb']
    exact step_eq_step_of_serve hp (byteBusRead_aligned ha _)
  · rw [step_serve hp]
    exact byteBusRead_refused hw _

end Sys2Proof.Machine
end

section
/-! SUPPORT. The rows of the opcode map: what `decode` gives for each opcode (30_encoding.md R104), and the fields that
a mask fixes (R101). -/

namespace Sys2Proof.Machine

/-! ### The command of each opcode -/

section
variable {w : Word}

theorem decode_osc (h : fieldOp w = 0x1) : decode w = .ok (.osc (fieldV w) (fieldN w)) := by
  simp only [decode, h]

theorem decode_env (h : fieldOp w = 0x2) : decode w = .ok (.env (fieldV w) (fieldN w)) := by
  simp only [decode, h]

theorem decode_dist (h : fieldOp w = 0x3) : decode w = .ok (.dist (fieldV w) (fieldN w)) := by
  simp only [decode, h]

theorem decode_vol (h : fieldOp w = 0x4) : decode w = .ok (.vol (fieldV w) (fieldN w)) := by
  simp only [decode, h]

theorem decode_prod (h : fieldOp w = 0x5) : decode w = .ok (.prod (fieldV w) (fieldN w)) := by
  simp only [decode, h]

theorem decode_enq (h : fieldOp w = 0x6) (hv : fieldV w = 0) (hn : fieldN w = 0) : decode w = .ok .enq := by
  simp only [decode, h, hv, hn, and_self, if_true]

theorem decode_fill (h : fieldOp w = 0x7) (hv : fieldV w = 0) : decode w = .ok (.fill (fieldN w)) := by
  simp only [decode, h, hv, if_true]

theorem decode_tseal (h : fieldOp w = 0x8) (hn : fieldN w = 0) : decode w = .ok (.tseal (fieldV w)) := by
  simp only [decode, h, hn, if_true]
end

/-! ### The fields a mask fixes -/

section
variable {w mask m : Word} (h : w &&& mask = m)
include h

/-- A word that agrees with `m` under a mask agrees with it in every field the mask covers. -/
theorem extractLsb'_eq_of_and_eq {start len : Nat} (hm : mask.extractLsb' start len = BitVec.allOnes len) :
    w.extractLsb' start len = m.extractLsb' start len := by
  rw [← h, BitVec.extractLsb'_and, hm, BitVec.and_allOnes]

theorem fieldOp_eq_of_and_eq (hm : mask.extractLsb' 28 4 = BitVec.allOnes 4) : fieldOp w = fieldOp m := by
  rw [(fields_extract w).1, (fields_extract m).1, extractLsb'_eq_of_and_eq h hm]

theorem fieldV_eq_of_and_eq (hm : mask.extractLsb' 22 6 = BitVec.allOnes 6) : fieldV w = fieldV m := by
  rw [(fields_extract w).2.1, (fields_extract m).2.1, extractLsb'_eq_of_and_eq h hm]

theorem fieldN_eq_of_and_eq (hm : mask.extractLsb' 0 22 = BitVec.allOnes 22) : fieldN w = fieldN m := by
  rw [(fields_extract w).2.2, (fields_extract m).2.2, extractLsb'_eq_of_and_eq h hm]
end

/-- Settles O3: each row's mask covers field `OP`, and `V` or `N` where the row has them zero, so the word has the
row's opcode and zeros (`fieldOp_eq_of_and_eq` and its like) and decodes by the lemma of that opcode. -/
theorem rowsOfTheOpcodeMap : Obligations.RowsOfTheOpcodeMap := by
  intro w
  obtain ⟨-, hv, hn⟩ := fields_extract w
  rw [← hv, ← hn]
  exact ⟨fun h => decode_osc (fieldOp_eq_of_and_eq h rfl), fun h => decode_env (fieldOp_eq_of_and_eq h rfl),
    fun h => decode_dist (fieldOp_eq_of_and_eq h rfl), fun h => decode_vol (fieldOp_eq_of_and_eq h rfl),
    fun h => decode_prod (fieldOp_eq_of_and_eq h rfl),
    fun h => decode_enq (fieldOp_eq_of_and_eq h rfl) (fieldV_eq_of_and_eq h rfl) (fieldN_eq_of_and_eq h rfl),
    fun h => decode_fill (fieldOp_eq_of_and_eq h rfl) (fieldV_eq_of_and_eq h rfl),
    fun h => decode_tseal (fieldOp_eq_of_and_eq h rfl) (fieldN_eq_of_and_eq h rfl)⟩

/-! ### Illegal words -/

theorem decode_ok_of_legal {w : Word} (h : ¬ illegalWord w) : ∃ i, decode w = .ok i := by
  cases hd : decode w with
  | ok i => exact ⟨i, rfl⟩
  | error e => exact absurd ((decode_error_iff w).mp ⟨e, hd⟩) h

/-- A write of an illegal word to `CMD` is refused with E_ILLEGAL (30_encoding.md R105, R106). -/
theorem commandWrite_illegal {w : Word} (h : illegalWord w) (s : State) :
    commandWrite w s = .next (refuse .illegal s) := by
  obtain ⟨e, he⟩ := (decode_error_iff w).mpr h
  rw [commandWrite, he]

/-- Settles O4: the illegal words are those `decode` answers with an error (`decode_error_iff`), and a command write
refuses them (`commandWrite_illegal`). -/
theorem illegalWordsAreRefused : Obligations.IllegalWordsAreRefused := by
  refine ⟨by decide, by decide, fun w => ⟨decode_ok_of_legal, fun hw s rest hp => ?_⟩⟩
  rw [step_write hp (target_cmd s.params)]
  exact commandWrite_illegal hw _

end Sys2Proof.Machine
end

section
/-! SUPPORT. `OSC`: the refusal of each check in its order, and what the command does when they pass (40_oscillator.md
R121, R122). -/

namespace Sys2Proof.Machine

section
variable {s : State} {v n : Nat}

theorem oscCheck_of_no_voice (h : liveVoice s.params.nvoice s.voices v = none) : oscCheck v n s = .error .voice := by
  rw [oscCheck, voiceOperand_none h]

theorem oscCheck_of_long {vc : Voice} (hv : holdsVoice s v vc) (h : s.params.sr < n) :
    oscCheck v n s = .error .len := by
  rw [oscCheck, voiceOperand_holds hv, lengthOperand_error.2 ⟨h, rfl⟩]

theorem oscCheck_of_overflow {vc : Voice} (hv : holdsVoice s v vc) (hn : n ≤ s.params.sr)
    (h : 2 ^ 32 ≤ s.offarg.toNat + n) : oscCheck v n s = .error .offOvf := by
  rw [oscCheck, voiceOperand_holds hv, (lengthOperand_ok (u := ())).2 hn, offsetOperand_error.2 ⟨h, rfl⟩]

/-- An `OSC` that fails a check changes nothing but the status registers (40_oscillator.md R122). -/
theorem exec_osc_refused {c : Code} (h : oscCheck v n s = .error c) : exec (.osc v n) s = .next (refuse c s) :=
  runCommand_error _ s h

/-- An `OSC` that passes its checks answers the state with the rendered memory (40_oscillator.md R122). -/
theorem exec_osc_rendered {vc : Voice} {m : Memory} (hc : oscCheck v n s = .ok vc)
    (hm : oscRender s.params vc n s.offarg.toNat s.mem = .ok m) :
    exec (.osc v n) s = .next (complete (setMem m s)) :=
  runCommand_ok s hc (by rw [oscEffect, hm])
end

/-- `SCR[k]` becomes the sum of the sample and the table entry as both read before the render (40_oscillator.md R121). -/
theorem readScr_oscRender {p : Params} {vc : Voice} {n off k : Nat} {m m' : Memory} {x y : Word}
    (h : oscRender p vc n off m = .ok m') (hk : k < n) (hx : readScr m k = some x)
    (hy : readTbl m vc.tsel.toNat (oscStart p off + k) = some y) : readScr m' k = some (fadd x y) := by
  obtain ⟨hsum, -, -⟩ := oscRender_ok h
  obtain ⟨x', y', hx', hy', hxy⟩ := hsum k hk
  rw [hxy, Option.some.inj (hx.symm.trans hx'), Option.some.inj (hy.symm.trans hy')]

/-- Settles O14: each refusal is that of the first check that fails; past them `oscRender` completes on written words
(`oscRender_completes`), and its samples and frame are those of `readScr_oscRender` and `oscRender_ok`. -/
theorem oscAddsTheTable : Obligations.OscAddsTheTable := by
  refine fun s v n => ⟨fun h => exec_osc_refused (oscCheck_of_no_voice h), fun vc hv =>
    ⟨fun h => exec_osc_refused (oscCheck_of_long hv h), fun hn h => exec_osc_refused (oscCheck_of_overflow hv hn h),
      fun hn hoff hscr htbl => ?_⟩⟩
  obtain ⟨m, hm⟩ := oscRender_completes hscr htbl
  obtain ⟨-, hframe, -⟩ := oscRender_ok hm
  exact ⟨m, exec_osc_rendered (oscCheck_ok.2 ⟨hv, hn, hoff⟩) hm,
    fun k x y hk hx hy => readScr_oscRender hm hk hx hy, hframe⟩

end Sys2Proof.Machine
end

section
/-! SUPPORT. The output and the next voice of one sample in each phase, and `ENV` of one sample (41_envelope.md R134 to
R136). -/

namespace Sys2Proof.Machine

section
variable {vc : Voice} {i : Nat}

theorem envAdvance_attack (h : vc.state = .attack) :
    envAdvance vc i = if fge (attackGain vc i) fOne then
        (if iszero vc.sush then { vc with state := .done }
          else { vc with state := .decay, start := BitVec.ofNat 32 i })
      else vc := by
  rw [envAdvance, h]

theorem envAdvance_decay (h : vc.state = .decay) :
    envAdvance vc i =
      if fle (decayGain vc i) vc.sush then { vc with state := .release, start := BitVec.ofNat 32 i } else vc := by
  rw [envAdvance, h]

theorem envAdvance_release (h : vc.state = .release) :
    envAdvance vc i = if fle (releaseGain vc i) fZero then { vc with state := .done } else vc := by
  rw [envAdvance, h]

theorem envOutput_attack (h : vc.state = .attack) (x : Word) : envOutput vc i x = fmul x (attackGain vc i) := by
  rw [envOutput, h]

theorem envOutput_decay (h : vc.state = .decay) (x : Word) : envOutput vc i x = fmul x (decayGain vc i) := by
  rw [envOutput, h]

theorem envOutput_release (h : vc.state = .release) (x : Word) : envOutput vc i x = fmul x (releaseGain vc i) := by
  rw [envOutput, h]

end

/-- Settles O17: `one_sample`, with the output and the transition of Attack. -/
theorem attackSample : Obligations.AttackSample := by
  intro s v vc x p g vc' hv hst hn hoff hx hp hg hvc
  have hgain : attackGain vc s.offarg.toNat = g := by rw [attackGain, rampProduct, ← hp, ← hg]
  have hnext : envAdvance vc s.offarg.toNat = vc' := by
    rw [envAdvance_attack hst, hgain, BitVec.ofNat_toNat, BitVec.setWidth_eq, hvc]
  rw [← hnext, ← hgain, ← envOutput_attack hst]
  exact one_sample hv hn hoff (by simp [hst]) hx

/-- Settles O18: `one_sample`, with the output and the transition of Decay. The ramp index is exact, since the sample
does not lie before `START`. -/
theorem decaySample : Obligations.DecaySample := by
  intro s v vc x p g vc' hv hst hn hoff hseq hx hp hg hvc
  have hgain : decayGain vc s.offarg.toNat = g := by
    rw [decayGain, rampIndex_of_le hseq, rampProduct, ← hp, ← hg]
  have hnext : envAdvance vc s.offarg.toNat = vc' := by
    rw [envAdvance_decay hst, hgain, BitVec.ofNat_toNat, BitVec.setWidth_eq, hvc]
  rw [← hnext, ← hgain, ← envOutput_decay hst]
  exact one_sample hv hn hoff (fun _ => hseq) hx

/-- Settles O19: `one_sample`, with the output and the transition of Release. The ramp index is exact, since the sample
does not lie before `START`. -/
theorem releaseSample : Obligations.ReleaseSample := by
  intro s v vc x p g vc' hv hst hn hoff hseq hx hp hg hvc
  have hgain : releaseGain vc s.offarg.toNat = g := by
    rw [releaseGain, rampIndex_of_le hseq, rampProduct, ← hp, ← hg]
  have hnext : envAdvance vc s.offarg.toNat = vc' := by rw [envAdvance_release hst, hgain, hvc]
  rw [← hnext, ← hgain, ← envOutput_release hst]
  exact one_sample hv hn hoff (fun _ => hseq) hx

end Sys2Proof.Machine
end

section
/-! SUPPORT. `DIST`: the refusal of each check in its order, and the buffer it shapes (42_distortion.md R152, R153). -/

namespace Sys2Proof.Machine

section
variable {s : State} {v n : Nat}

theorem distCheck_of_no_voice (h : liveVoice s.params.nvoice s.voices v = none) :
    distCheck v n s = .error .voice := by
  rw [distCheck, voiceOperand_none h]

theorem distCheck_of_long {vc : Voice} (hv : holdsVoice s v vc) (h : s.params.sr < n) :
    distCheck v n s = .error .len := by
  rw [distCheck, voiceOperand_holds hv, lengthOperand_error.2 ⟨h, rfl⟩]

theorem distCheck_of_no_distortion {vc : Voice} (hv : holdsVoice s v vc) (hn : n ≤ s.params.sr)
    (h : vc.distEn = false) : distCheck v n s = .error .noDist := by
  simp only [distCheck, voiceOperand_holds hv, (lengthOperand_ok (u := ())).2 hn,
    (require_error (c := .noDist)).2 ⟨h, rfl⟩]

/-- A `DIST` that fails a check changes nothing but the status registers (42_distortion.md R152). -/
theorem exec_dist_refused {c : Code} (h : distCheck v n s = .error c) : exec (.dist v n) s = .next (refuse c s) :=
  runCommand_error _ s h
end

/-- Settles O26: each refusal is that of the first check that fails; past them `dist_runs` gives the next state, each
shaped sample and the frame. -/
theorem distShapesTheBuffer : Obligations.DistShapesTheBuffer := by
  refine fun s v n => ⟨fun h => exec_dist_refused (distCheck_of_no_voice h), fun vc hv =>
    ⟨fun h => exec_dist_refused (distCheck_of_long hv h),
      fun hn h => exec_dist_refused (distCheck_of_no_distortion hv hn h), fun hn hdist hscr => ?_⟩⟩
  obtain ⟨m, hnext, hshaped, hframe⟩ := dist_runs hv hn hdist hscr
  refine ⟨m, hnext, fun k x y hk hx hy => ?_, hframe⟩
  rw [hshaped k x hk hx, hy, distSample, fNaN]

end Sys2Proof.Machine
end

section
/-! SUPPORT. `ENQ`: its refusals, the slot it takes and the voice it builds (44_mixer.md R171 to R173). -/

namespace Sys2Proof.Machine

/-- A command is refused with the code of the first reason that applies (60_exceptions.md R205). -/
theorem exec_refused_of_firstReason {s : State} {i : Instr} {c : Code} (h : firstReason s i = some c) :
    exec i s = .next (refuse c s) :=
  (exec_checked i s).1 c (firstReason_eq s i ▸ h)

/-- The first of several reasons, taken reason by reason (60_exceptions.md R205). -/
theorem firstCode_cons (b : Bool) (c : Code) (rs : List (Bool × Code)) :
    (((b, c) :: rs).find? fun r => r.1).map (fun r => r.2) =
      if b = true then some c else (rs.find? fun r => r.1).map fun r => r.2 := by
  rw [List.find?_cons]
  cases b <;> rfl

/-- The slot `ENQ` takes is the first that holds no voice (44_mixer.md R173). -/
theorem freeSlot_eq_find (s : State) :
    freeSlot s = (List.range s.params.nvoice).find? fun v => (liveVoice s.params.nvoice s.voices v).isNone := by
  simp only [freeSlot, isLive, Option.not_isSome]

/-- The reason of E_FULL: every slot is valid (44_mixer.md R172 check 6). -/
theorem all_slots_valid_iff (s : State) :
    ((List.range s.params.nvoice).all fun v => ofSlot s v fun _ => true) = true ↔ freeSlot s = none := by
  simp only [freeSlot, List.find?_eq_none, List.all_eq_true, isLive_ofSlot, Bool.not_eq_true', Bool.not_eq_false]

/-- Why `ENQ` is refused: its checks in order (44_mixer.md R172). -/
theorem firstReason_enq (s : State) :
    firstReason s .enq =
      if s.pCtl &&& 0xFFFFFEE0#32 ≠ 0#32 then some .param
      else if s.params.ntable ≤ (s.pCtl.extractLsb' 0 5).toNat ∨
          s.sealFlags.getD (s.pCtl.extractLsb' 0 5).toNat false = false then some .table
      else if ∃ x ∈ [s.pAttack, s.pDecay, s.pSustain, s.pRelease],
          isnan x = true ∨ isinf x = true ∨ fge x fZero = false then some .param
      else if isnan s.pVolume = true ∨ isinf s.pVolume = true then some .param
      else if s.pCtl.getLsbD 8 = true ∧ (isnan s.pCrunch = true ∨ fgt s.pCrunch fOne = true ∨
          isnan s.pDrive = true ∨ isinf s.pDrive = true ∨ fge s.pDrive fZero = false) then some .param
      else if freeSlot s = none then some .full
      else none := by
  simp only [firstReason, refusalReasons, firstCode_cons, List.find?_nil, Option.map_none, decide_eq_true_eq,
    Bool.or_eq_true, Bool.and_eq_true, Bool.not_eq_true', List.any_eq_true, or_assoc, all_slots_valid_iff]

/-- An `ENQ` that no reason refuses puts the new voice into the free slot (44_mixer.md R173). -/
theorem exec_enq_of_no_reason {s : State} {v : Nat} (h : firstReason s .enq = none) (hv : freeSlot s = some v) :
    exec .enq s = .next (complete (setRslot v (setVoice v (newVoice s) s))) := by
  rw [firstReason_eq, checkResult] at h
  cases hc : enqCheck s with
  | error c => rw [hc] at h; cases h
  | ok w =>
    obtain ⟨-, -, -, -, -, hw⟩ := enqCheck_ok.1 hc
    obtain rfl : w = v := Option.some.inj (hw.symm.trans hv)
    exact runCommand_ok (effect := enqEffect s) s hc rfl

/-- The fields of the new voice (44_mixer.md R173), the slopes by `EnvInit` (41_envelope.md R132) and the distortion by
`DistInit` (42_distortion.md R151). -/
theorem newVoice_eq (s : State) {inv : Word → Word} (hinv : ∀ p, inv p = if iszero p then fInf else fdiv fOne p) :
    newVoice s = {
      valid := true, fin := false, distEn := s.pCtl.getLsbD 8, state := .attack, tsel := s.pCtl.extractLsb' 0 5,
      offset := 0#32, start := 0#32,
      aslope := inv (fmul s.pAttack (u2f s.params.sr)),
      dslope := inv (fmul (fmul s.pDecay s.pSustain) (u2f s.params.sr)), sush := s.pSustain,
      rslope := inv (fmul (fmul s.pRelease s.pSustain) (u2f s.params.sr)),
      dexp := if s.pCtl.getLsbD 8 then fsub fOne (if fgt s.pCrunch fC001 then s.pCrunch else fC001) else fOne,
      ddrive := if s.pCtl.getLsbD 8 then s.pDrive else fOne, vol := s.pVolume } := by
  have htsel : ctlTsel s.pCtl = s.pCtl.extractLsb' 0 5 := BitVec.setWidth_eq_extractLsb' (by decide)
  rw [newVoice, htsel, hinv, hinv, hinv]
  rfl

/-- Settles O34: each refusal is that of the first reason that applies (`exec_refused_of_firstReason`); past the five
parameter checks `freeSlot` decides between E_FULL and the voice of `newVoice_eq` in the free slot. -/
theorem enqBuildsTheVoice : Obligations.EnqBuildsTheVoice := by
  rintro s _ _ inv rfl rfl hinv
  rw [← freeSlot_eq_find, ← newVoice_eq s hinv]
  have hreason := firstReason_enq s
  split_ifs with hctl htbl htimes hvol hdist
  · exact exec_refused_of_firstReason (by rw [hreason, if_pos hctl])
  · exact exec_refused_of_firstReason (by rw [hreason, if_neg hctl, if_pos htbl])
  · exact exec_refused_of_firstReason (by rw [hreason, if_neg hctl, if_neg htbl, if_pos htimes])
  · exact exec_refused_of_firstReason (by rw [hreason, if_neg hctl, if_neg htbl, if_neg htimes, if_pos hvol])
  · exact exec_refused_of_firstReason
      (by rw [hreason, if_neg hctl, if_neg htbl, if_neg htimes, if_neg hvol, if_pos hdist])
  · rw [if_neg hctl, if_neg htbl, if_neg htimes, if_neg hvol, if_neg hdist] at hreason
    cases hfree : freeSlot s with
    | none => exact exec_refused_of_firstReason (by rw [hreason, if_pos hfree])
    | some v => exact exec_enq_of_no_reason (by rw [hreason, if_neg (by rw [hfree]; nofun)]) hfree

end Sys2Proof.Machine
end

section
/-! SUPPORT. What `WR` does, by the window its address lies in (45_host_access.md R186, 20_memory.md R70 to R76). -/

namespace Sys2Proof.Machine

/-! ### The addresses a write cannot change -/

/-- A register stands only at `0x00` to `0x0B` and `0x10` to `0x17` (20_memory.md R71). -/
theorem globalWord_of_globalRegAt {a : Nat} {r : GlobalReg} (h : globalRegAt a = some r) : globalWord a := by
  unfold globalRegAt at h
  split at h
  case h_21 => cases h
  all_goals decide

/-- The registers from `ERR` to `CAP_NT`, addresses 1 to 0x0A, are read-only (45_host_access.md R186). -/
theorem writeGlobal_readOnly {a : Nat} {r : GlobalReg} (h : globalRegAt a = some r) (h1 : 0x00 < a) (h2 : a < 0x0B)
    (data : Word) (s : State) : writeGlobal r data s = .next (refuse .addr s) := by
  interval_cases a <;> (cases h; rfl)

/-- An address outside the `SCR` and `TBL` windows is a register, an `OUT` word or unmapped (20_memory.md R70). -/
theorem target_of_not_scr_tbl {p : Params} {addr : Word} (hs : ¬ scrWord p addr.toNat) (ht : ¬ tblWord p addr.toNat) :
    (∃ r, globalRegAt addr.toNat = some r ∧ target p addr = .global r) ∨ (∃ v r, target p addr = .voice v r) ∨
      (∃ k, target p addr = .out k) ∨ target p addr = .unmapped := by
  unfold target
  dsimp only
  split_ifs
  · cases globalRegAt addr.toNat with
    | some r => exact .inl ⟨r, rfl, rfl⟩
    | none => exact .inr (.inr (.inr rfl))
  · cases voiceRegAt ((addr.toNat - voiceBase) % 16) with
    | some r => exact .inr (.inl ⟨_, r, rfl⟩)
    | none => exact .inr (.inr (.inr rfl))
  · exact .inr (.inr (.inl ⟨_, rfl⟩))
  · exact .inr (.inr (.inr rfl))

/-- Every address but those of `CMD`, `OFFARG`, the staging registers, `SCR` and `TBL` refuses a write with E_ADDR
(45_host_access.md R186, 20_memory.md R76). -/
theorem writeTarget_refused {p : Params} {addr : Word} (hcmd : addr.toNat ≠ 0x00) (hoff : addr.toNat ≠ 0x0B)
    (hstage : ¬ (0x10 ≤ addr.toNat ∧ addr.toNat ≤ 0x17)) (hs : ¬ scrWord p addr.toNat) (ht : ¬ tblWord p addr.toNat)
    (data : Word) (s : State) : writeTarget (target p addr) data s = .next (refuse .addr s) := by
  rcases target_of_not_scr_tbl hs ht with ⟨r, hr, h⟩ | ⟨v, r, h⟩ | ⟨k, h⟩ | h <;> rw [h]
  · have hword := globalWord_of_globalRegAt hr
    exact writeGlobal_readOnly hr (by omega) (by omega) data s
  all_goals rfl

/-! ### The writes that are carried out -/

/-- A write to a global register does what `writeGlobal` says of the register (45_host_access.md R186). -/
theorem step_write_global {s : State} {addr data : Word} {rest : List HostAction} {r : GlobalReg}
    (h : s.pending = .write addr data :: rest) (hr : globalRegAt addr.toNat = some r) :
    step s = writeGlobal r data { s with pending := rest, rdata := none } :=
  step_write h (target_global hr)

theorem sameOutside_writeWord (m : Memory) (a : Nat) (w : Word) : sameOutside a 1 m (writeWord m a w) :=
  fun _ hx => readByte_writeWord_other m w hx

/-- Settles O41: the target of each address is that of the map (`target_global`, `target_scr`, `target_tbl`); a memory
word takes the data and keeps every other byte (`sameOutside_writeWord`), and what is left is refused
(`writeTarget_refused`). -/
theorem busWritesByTarget : Obligations.BusWritesByTarget := by
  rintro s _ addr data rest hl hp rfl
  have register (a : Word) (r : GlobalReg) (hr : globalRegAt a.toNat = some r) (ha : addr = a) :
      step s = writeGlobal r data { s with pending := rest, rdata := none } :=
    step_write_global hp (ha ▸ hr)
  refine ⟨fun h => ?_, register _ .offarg rfl, register _ .pCtl rfl, register _ .pAttack rfl, register _ .pDecay rfl,
    register _ .pSustain rfl, register _ .pRelease rfl, register _ .pVolume rfl, register _ .pCrunch rfl,
    register _ .pDrive rfl, fun k hk h => ?_, fun b i hb hi h => ?_, fun hcmd hoff hstage hs ht => ?_⟩
  · rw [register _ .cmd rfl h, writeGlobal, commandWrite]
    cases decode data <;> rfl
  · exact ⟨_, step_write hp (target_scr hl hk h), readWord_writeWord_same _ _ _, sameOutside_writeWord _ _ _⟩
  · have hstep := step_write hp (target_tbl hl hb hi h)
    refine ⟨fun hsealed => hstep.trans (if_pos hsealed), fun hopen => ?_⟩
    exact ⟨_, hstep.trans (if_neg (Bool.eq_false_iff.1 hopen)), readWord_writeWord_same _ _ _,
      sameOutside_writeWord _ _ _⟩
  · rw [step_write hp rfl]
    exact writeTarget_refused (by bv_omega) (by bv_omega) (by bv_omega) hs ht data _

end Sys2Proof.Machine
end

section
/-! SUPPORT. `G.LAST` after each host action (60_exceptions.md R201): a write to `CMD`, on either port, reports what its
word did; any other access leaves the register or reports its own refusal. -/

namespace Sys2Proof.Machine

/-- A write to `CMD`, on either port, runs its word on the state with the action taken (10_state.md R25,
30_encoding.md R100). -/
theorem step_wordToCmd {s : State} {a : HostAction} {rest : List HostAction} {w : Word} (h : s.pending = a :: rest)
    (hw : wordToCmd s.params a = some w) : step s = commandWrite w { s with pending := rest, rdata := none } :=
  (step_serve h).trans (serve_wordToCmd (s := takeAction rest s) hw)

theorem commandWrite_legal {w : Word} {i : Instr} (h : decode w = .ok i) (s : State) : commandWrite w s = exec i s := by
  rw [commandWrite, h]

/-- The reasons for a refusal are conditions on the block's own state, not on the host's actions to come or the value
last returned (60_exceptions.md R205). -/
theorem firstReason_host_fields (s : State) (rest : List HostAction) (r : Option Word) (i : Instr) :
    firstReason { s with pending := rest, rdata := r } i = firstReason s i := by
  cases i <;> rfl

/-- A command that no reason refuses, and that answers a next state, leaves `G.LAST` 0 and `G.ERR` as it was
(60_exceptions.md R201, R202). -/
theorem exec_status_of_no_reason {s t : State} {i : Instr} (h : firstReason s i = none) (ht : exec i s = .next t) :
    t.last = 0x00#8 ∧ t.err = s.err := by
  obtain ⟨u, rfl, hu⟩ := (exec_checked i s).2 (firstReason_eq s i ▸ h) t ht
  exact ⟨rfl, hu⟩

/-- Settles O47: a write to `CMD` on either port is the command write of its word (`step_wordToCmd`), which is refused
for an illegal word, and for a legal one does what the command's checks say; any other access is `serve_status`. -/
theorem lastReportsTheAccess : Obligations.LastReportsTheAccess := by
  intro s t a rest hp ha ht
  refine ⟨fun w hw => ?_, fun hw => serve_status (s := takeAction rest s) ((step_serve hp).symm.trans ht) ha hw⟩
  rw [step_wordToCmd hp hw] at ht
  refine ⟨fun hill => ?_, fun i hi => ?_⟩
  · rw [commandWrite_illegal hill] at ht
    exact (Host.Outcome.next.inj ht).symm
  · rw [commandWrite_legal hi] at ht
    rw [← firstReason_host_fields s rest none i]
    refine ⟨fun c hc => ?_, fun hnone => (exec_status_of_no_reason hnone ht :)⟩
    rw [exec_refused_of_firstReason hc] at ht
    exact (Host.Outcome.next.inj ht).symm

end Sys2Proof.Machine
end

section
/-! SUPPORT. The command and its word: decoding after encoding, encoding after decoding (30_encoding.md R101 to R105,
R109), and the step that runs a command (R100, 00_scope.md R17). -/

namespace Sys2Proof.Machine

/-- A word packed from fields that fit decodes to the command its opcode gives, with the packed operands. -/
theorem decode_packFields {op v n : Nat} {c : Nat → Nat → Instr} (ho : op < 16)
    (hc : ∀ w, fieldOp w = op → decode w = .ok (c (fieldV w) (fieldN w))) (h : (fitsV v && fitsN n) = true) :
    decode (packFields op v n) = .ok (c v n) := by
  obtain ⟨hv, hn⟩ := Laws.EncodedOpcode.fits h
  obtain ⟨hop, hV, hN⟩ := fields_pack ho hv hn
  rw [hc _ hop, hV, hN]

/-- Settles O1: the five commands with both operands by `decode_packFields`; the others have their zero fields to show
as well, which `fields_pack` reads off the word. -/
theorem decodeAfterEncode : Obligations.DecodeAfterEncode := by
  intro i h
  cases i with
  | osc v n => exact decode_packFields (by decide) (fun _ => decode_osc) h
  | env v n => exact decode_packFields (by decide) (fun _ => decode_env) h
  | dist v n => exact decode_packFields (by decide) (fun _ => decode_dist) h
  | vol v n => exact decode_packFields (by decide) (fun _ => decode_vol) h
  | prod v n => exact decode_packFields (by decide) (fun _ => decode_prod) h
  | enq => rfl
  | fill n =>
    obtain ⟨hop, hV, hN⟩ := fields_pack (op := 0x7) (v := 0) (by decide) (by decide) (of_decide_eq_true h)
    rw [encode, decode_fill hop hV, hN]
  | tseal b =>
    obtain ⟨hop, hV, hN⟩ := fields_pack (op := 0x8) (n := 0) (by decide) (of_decide_eq_true h) (by decide)
    rw [encode, decode_tseal hop hN, hV]

/-- What a word that decodes holds: its fields are the opcode and the operands of a well-formed command
(30_encoding.md R104, R105). -/
theorem fields_of_decode {w : Word} {i : Instr} (h : decode w = .ok i) :
    i.wellFormed = true ∧ encode i = packFields (fieldOp w) (fieldV w) (fieldN w) := by
  have hv : fitsV (fieldV w) = true := decide_eq_true (fieldV_lt w)
  have hn : fitsN (fieldN w) = true := decide_eq_true (fieldN_lt w)
  have hvn : (fitsV (fieldV w) && fitsN (fieldN w)) = true := Bool.and_eq_true_iff.2 ⟨hv, hn⟩
  unfold decode at h
  split at h
  case h_6 hop =>
    split at h
    next h0 => cases h; rw [hop, h0.1, h0.2]; exact ⟨rfl, rfl⟩
    next => cases h
  case h_7 hop =>
    split at h
    next h0 => cases h; rw [hop, h0]; exact ⟨hn, rfl⟩
    next => cases h
  case h_8 hop =>
    split at h
    next h0 => cases h; rw [hop, h0]; exact ⟨hv, rfl⟩
    next => cases h
  case h_9 => cases h
  all_goals
    next hop => cases h; rw [hop]; exact ⟨hvn, rfl⟩

/-- Settles O2: the three fields are the whole word (`pack_fields`). -/
theorem encodeAfterDecode : Obligations.EncodeAfterDecode := fun w _ h =>
  ⟨(fields_of_decode h).1, (fields_of_decode h).2.trans (pack_fields w)⟩

/-- Settles O5: each word is the encoding of its command. -/
theorem workedEncodings : Obligations.WorkedEncodings :=
  ⟨decodeAfterEncode (.osc 0 4) rfl, decodeAfterEncode (.env 3 100) rfl, decodeAfterEncode (.dist 1 8) rfl,
    decodeAfterEncode (.vol 0 8) rfl, decodeAfterEncode (.prod 2 44100) rfl, decodeAfterEncode .enq rfl,
    decodeAfterEncode (.fill 4) rfl, decodeAfterEncode (.fill 44100) rfl, decodeAfterEncode (.tseal 5) rfl⟩

/-- A 32-bit word is the one `withFetchWord` takes from its number. -/
theorem ofNat_toNat_mod (w : Word) : BitVec.ofNat 32 (w.toNat % 2 ^ 32) = w := by
  rw [Nat.mod_eq_of_lt w.isLt, BitVec.ofNat_toNat, BitVec.setWidth_eq]

/-- Settles O6: the idle step and the served action by definition; a legal word written to `CMD` runs its command
(`serve_command`), also when `withFetchWord` has placed it (`step_withFetchWord`). -/
theorem stepRunsTheCommand : Obligations.StepRunsTheCommand := by
  refine fun s => ⟨step_idle, fun a rest hp => step_serve hp, fun w i rest hp hi => ?_, fun w i hi => ?_⟩
  · rw [step_serve hp]
    exact serve_command hi
  · exact step_withFetchWord (by rw [ofNat_toNat_mod, hi])

end Sys2Proof.Machine
end

section
/-! SUPPORT. The invariant of the block: that reset establishes it, and that commands, refusals and accesses keep it
(10_state.md R35, R43; 60_exceptions.md R204; 20_memory.md section 4). -/

namespace Sys2Proof.Machine

/-- Reset, with legal parameters, leaves no voice, no written byte and no code (10_state.md R43). -/
theorem blockInv_resetWith {p : Params} (hp : p.legal = true) : blockInv (State.resetWith p) := by
  have hslots : 0 < p.nvoice := by
    simp only [Params.legal, Bool.and_eq_true, decide_eq_true_eq] at hp
    omega
  refine ⟨hp, ⟨List.length_replicate, List.length_replicate⟩, wf_nil, by simp [State.resetWith], fun vc hm hv => ?_,
    Nat.zero_le _, Nat.zero_le _, fun _ => rfl, hslots, Nat.zero_le _⟩
  rw [List.eq_of_mem_replicate hm] at hv
  cases hv

/-- Settles O56: `blockInv_resetWith`, also for the default parameters. -/
theorem blockInvariantAtReset : Obligations.BlockInvariantAtReset :=
  ⟨blockInv_resetWith (by decide), fun _ => blockInv_resetWith⟩

section
variable {s t : State} (h : blockInv s)
include h

/-- A refusal writes a code and nothing else (60_exceptions.md R202, R204). -/
theorem blockInv_refuse (c : Code) : blockInv (refuse c s) := by
  obtain ⟨hl, hs, hw, hcells, hv, herr, -, -, hslot, hcnt⟩ := h
  obtain ⟨herr', hlast', hzero⟩ := status_refuse c herr
  exact ⟨hl, hs, hw, hcells, hv, herr', hlast', hzero, hslot, hcnt⟩

/-- The invariant does not speak of the model's own fields. -/
theorem blockInv_host_fields (r : Option Word) (ps : List HostAction) (n : Nat) :
    blockInv { s with rdata := r, pending := ps, freeIx := n } := h

/-- The invariant does not speak of the registers the host writes freely. -/
theorem blockInv_staging (ht : stagingOnly s t) : blockInv t := by
  rw [stagingOnly] at ht
  rw [ht]
  exact h

/-- A word written inside a window of the map keeps memory canonical and inside its windows. -/
theorem blockInv_writeWord {a : Nat} (ha : inWindow s.params a) (w : Word) :
    blockInv (setMem (writeWord s.mem a w) s) := by
  obtain ⟨hl, hs, hw, hcells, hrest⟩ := h
  exact ⟨hl, hs, wf_writeWord a w hw, cells_of_write hw ha hcells, hrest⟩

/-- A command keeps the invariant: each part by what commands do to that part of the state. -/
theorem blockInv_exec {i : Instr} (ht : exec i s = .next t) : blockInv t := by
  obtain ⟨hl, hs, hw, hcells, hv, herr, hlast, hzero, hslot, hcnt⟩ := h
  have hp := exec_params ht
  have hw' := exec_wf hl hs ht hw
  obtain ⟨n, hn, hbuf, -⟩ := exec_memory hl hs ht
  have hstatus : t.err.toNat ≤ 0x0B ∧ t.last.toNat ≤ 0x0B ∧ (t.err = okByte → t.last = okByte) := by
    rcases exec_status ht with ⟨c, rfl⟩ | ⟨hl', he'⟩
    · exact status_refuse c herr
    · rw [hl', he']
      exact ⟨herr, Nat.zero_le _, fun _ => rfl⟩
  obtain ⟨hslot', hcnt'⟩ := exec_slot_count hl hs ht hslot hcnt
  refine ⟨hp ▸ hl, exec_lengths hl hs ht, hw', ?_, exec_voices hl hs ht hv, hstatus.1, hstatus.2.1, hstatus.2.2,
    ?_, ?_⟩
  · rw [hp]
    exact cells_of_buffers hn hw' hbuf hcells
  all_goals rwa [hp]

/-- Serving a host action keeps the invariant: the cases are those of `serve_next`. -/
theorem blockInv_serve {a : HostAction} (ht : serve a s = .next t) : blockInv t := by
  have hnone : blockInv (setRdata none s) := blockInv_host_fields h none _ _
  rcases serve_next ht with ⟨i, -, hi⟩ | ⟨c, rfl⟩ | rfl | hst | ⟨k, d, hk, rfl⟩ | ⟨b, j, d, hb, hj, -, rfl⟩ |
    ⟨r, n, rfl⟩ | ⟨-, rfl⟩
  · exact blockInv_exec hnone hi
  · exact blockInv_refuse hnone c
  · exact blockInv_host_fields (blockInv_refuse h .addr) _ _ _
  · exact blockInv_staging hnone hst
  · exact blockInv_writeWord hnone (a := scrBase + k)
      (.inl ⟨Nat.le_add_right _ _, Nat.add_lt_add_left hk _⟩) d
  · exact blockInv_writeWord hnone (.inr (.inr (tblWord_of h.1 hb hj))) d
  · exact blockInv_host_fields h _ _ _
  · exact blockInv_host_fields (blockInv_resetWith h.1) _ _ _
end

/-- Settles O55: an idle step changes nothing, any other serves an action (`blockInv_serve`). -/
theorem blockInvariantIsKept : Obligations.BlockInvariantIsKept := by
  intro s t h ht
  cases hp : s.pending with
  | nil =>
    rw [step_idle hp] at ht
    exact Host.Outcome.next.inj ht ▸ h
  | cons a rest =>
    rw [step_serve hp] at ht
    exact blockInv_serve (blockInv_host_fields h s.rdata rest s.freeIx) ht

end Sys2Proof.Machine
end

section
/-! SUPPORT. Which commands are refused, what a refusal writes (60_exceptions.md R200 to R206), and where a command that
passes its checks stops (93_implementation_defined.md U4). -/

namespace Sys2Proof.Machine

/-- Settles O11: `exec_refused_of_firstReason` and `exec_status_of_no_reason`. -/
theorem refusedForTheFirstReason : Obligations.RefusedForTheFirstReason := fun _ _ =>
  ⟨fun _ => exec_refused_of_firstReason, fun h _ => exec_status_of_no_reason h⟩

/-- Settles O12: a next state is a refusal, or has `G.LAST` 0 (`exec_status`). -/
theorem refusalWritesOnlyItsCode : Obligations.RefusalWritesOnlyItsCode := by
  intro i s t ht hlast
  rcases exec_status ht with ⟨c, rfl⟩ | ⟨hok, -⟩
  · rfl
  · exact absurd hok hlast

/-! ### Where a command stops -/

/-- The fault `e` names a word of a window of the map that nothing has written since reset
(93_implementation_defined.md U4). -/
def namesUnwritten (s : State) (e : Fault) : Prop :=
  ∃ a, e = .unwrittenWord a ∧ readWord s.mem a = none ∧ inWindow s.params a

section
variable {s : State} {n : Nat} {e : Fault}

/-- A word of `SCR` that a command of a length it accepts needs. -/
theorem namesUnwritten_scr {j : Nat} (hn : n ≤ s.params.sr) (hj : j < n) (h : readWord s.mem (scrBase + j) = none)
    (he : e = .unwrittenWord (scrBase + j)) : namesUnwritten s e :=
  ⟨_, he, h, .inl ⟨Nat.le_add_right _ _, Nat.add_lt_add_left (Nat.lt_of_lt_of_le hj hn) _⟩⟩

/-- A table entry that an oscillator render of a valid voice needs. -/
theorem namesUnwritten_tbl {v off j : Nat} {vc : Voice} (hi : blockInv s) (hv : holdsVoice s v vc)
    (hn : n ≤ s.params.sr) (hj : j < n)
    (h : readTbl s.mem vc.tsel.toNat (oscStart s.params off + j) = none)
    (he : e = .unwrittenWord (tblAddr vc.tsel.toNat (oscStart s.params off + j))) : namesUnwritten s e :=
  ⟨_, he, h, tblWord_voice hi hv (Nat.lt_of_lt_of_le hj hn)⟩

/-- A stop inside the distortion or the volume loop. -/
theorem namesUnwritten_mapScr {g : Word → Word} (hn : n ≤ s.params.sr)
    (h : updateWords scrBase (fun _ x => .ok (g x)) 0 n s.mem = .error e) : namesUnwritten s e := by
  obtain ⟨j, hj, hnone, he⟩ := mapScr_error h
  exact namesUnwritten_scr hn hj hnone he

/-- A round of FILL step 3 stops only where a table entry of its voice has not been written: rendering is the one part
that needs words not written in the command itself. -/
theorem fillVoice_error {v : Nat} {a : List Voice × Memory} (hs : scrBase + n ≤ outBase) (ho : outBase + n ≤ tblBase)
    (hp : FillProgress s n v a) (h : fillVoice s.params n v a = .error e) :
    ∃ vc j, holdsVoice s v vc ∧ j < n ∧
      readTbl s.mem vc.tsel.toNat (oscStart s.params vc.offset.toNat + j) = none ∧
      e = .unwrittenWord (tblAddr vc.tsel.toNat (oscStart s.params vc.offset.toNat + j)) := by
  have hb : scrBase + n ≤ tblBase := by omega
  cases hl : liveVoice s.params.nvoice s.voices v with
  | none =>
    rw [fillVoice, liveVoice_of_progress hp, hl] at h
    cases h
  | some vc =>
    cases hr : produce s.params n vc a.2 with
    | error f =>
      simp only [fillVoice, liveVoice_of_progress hp, hl, hr, Except.error.injEq] at h
      obtain ⟨j, hj, hnone, hf⟩ := produce_error hb hr
      rw [readTbl_of_sameOutsideBuffers hp.frame hb ho] at hnone
      exact ⟨vc, j, hl, hj, hnone, h ▸ hf⟩
    | ok r =>
      obtain ⟨-, hsamples, -⟩ := produce_ok hr hb
      obtain ⟨a', ha'⟩ := fillVoice_completes hs ho hp fun vc' hv' k hk => by
        obtain rfl : vc = vc' := Option.some.inj (hl.symm.trans hv')
        obtain ⟨t, ht, -⟩ := hsamples k hk
        rw [readTbl_of_sameOutsideBuffers hp.frame hb ho] at ht
        rw [ht, Option.isSome_some]
      rw [ha'] at h
      cases h

/-- `FILL` past its checks stops only inside FILL step 3. -/
theorem fillEffect_error (hl : s.params.legal = true) (hn : n ≤ s.params.sr) (h : fillEffect n s () = .error e) :
    ∃ v vc j, holdsVoice s v vc ∧ j < n ∧
      readTbl s.mem vc.tsel.toNat (oscStart s.params vc.offset.toNat + j) = none ∧
      e = .unwrittenWord (tblAddr vc.tsel.toNat (oscStart s.params vc.offset.toNat + j)) := by
  obtain ⟨hs, ho⟩ := windows_of_legal hl hn
  unfold fillEffect at h
  dsimp only at h
  split at h
  next => cases h
  next =>
    cases hr : forEach (fillVoice s.params n) 0 s.params.nvoice (s.voices, fillWords outBase fZero 0 n s.mem) with
    | error f =>
      simp only [fillMix, setRcount_params, setMem_params, setRcount_voices, setMem_voices, setRcount_mem, setMem_mem,
        hr, Except.error.injEq] at h
      obtain ⟨v, a, -, -, hp, hv⟩ := forEach_error (FillProgress s n) hr (progress_start s n)
        fun i b b' _ hi hb hf => fillVoice_progress (by omega) hs ho hb hf
      exact ⟨v, fillVoice_error hs ho hp (h ▸ hv)⟩
    | ok a =>
      obtain ⟨m, hm⟩ := scaleOut_completes (mixScale (countLive s.params.nvoice s.voices)) fun k hk =>
        Option.isSome_of_eq_some ((fillLoop_ok hs ho hr).sums k hk)
      simp only [fillMix, setRcount_params, setMem_params, setRcount_voices, setMem_voices, setRcount_mem, setMem_mem,
        hr, hm] at h
      cases h

end

/-- The stops of each command that has passed its checks. -/
theorem exec_completes_or_stops {s : State} (hi : blockInv s) (i : Instr) :
    (∃ t, exec i s = .next t) ∨ ∃ e, exec i s = .fault e ∧ namesUnwritten s e := by
  cases i with
  | osc v n =>
    refine run_dichotomy _ _ s _ fun vc e hc he => ?_
    obtain ⟨hv, hn, -⟩ := oscCheck_ok.1 hc
    unfold oscEffect at he
    split at he <;> cases he
    next hr =>
    obtain ⟨j, hj, ⟨hnone, rfl⟩ | ⟨hnone, rfl⟩⟩ := oscRender_error hr
    · exact namesUnwritten_scr hn hj hnone rfl
    · exact namesUnwritten_tbl hi hv hn hj hnone rfl
  | env v n =>
    refine run_dichotomy _ _ s _ fun vc e hc he => ?_
    obtain ⟨-, hn, -⟩ := envCheck_ok.1 hc
    unfold envEffect at he
    split at he <;> cases he
    next hr =>
    obtain ⟨j, -, hj, hnone, rfl⟩ := envApply_error hr
    exact namesUnwritten_scr hn (Nat.zero_add n ▸ hj) hnone rfl
  | dist v n =>
    refine run_dichotomy _ _ s _ fun vc e hc he => ?_
    obtain ⟨-, hn, -⟩ := distCheck_ok.1 hc
    unfold distEffect at he
    split at he <;> cases he
    next hr => exact namesUnwritten_mapScr hn hr
  | vol v n =>
    refine run_dichotomy _ _ s _ fun vc e hc he => ?_
    obtain ⟨-, hn⟩ := volCheck_ok.1 hc
    unfold volEffect at he
    split at he <;> cases he
    next hr =>
    unfold volApply at hr
    split at hr
    · exact namesUnwritten_mapScr hn hr
    · cases hr
  | prod v n =>
    refine run_dichotomy _ _ s _ fun vc e hc he => ?_
    obtain ⟨hv, hn, -⟩ := prodCheck_ok.1 hc
    obtain ⟨hs, ho⟩ := windows_of_legal hi.1 hn
    unfold prodEffect at he
    split at he <;> cases he
    next hr =>
    obtain ⟨j, hj, hnone, rfl⟩ := produce_error (by omega) hr
    exact namesUnwritten_tbl hi hv hn hj hnone rfl
  | enq => exact run_dichotomy (enqCheck s) (enqEffect s) s _ fun _ _ _ he => by cases he
  | fill n =>
    refine run_dichotomy _ _ s _ fun _ e hc he => ?_
    obtain ⟨hn, -⟩ := fillCheck_ok.1 hc
    obtain ⟨v, vc, j, hv, hj, hnone, rfl⟩ := fillEffect_error hi.1 hn he
    exact namesUnwritten_tbl hi hv hn hj hnone rfl
  | tseal b => exact run_dichotomy (tsealCheck b s) (tsealEffect b s) s _ fun _ _ _ he => by cases he

/-- Settles O13: `exec_completes_or_stops`. -/
theorem onlyUnwrittenWordsStop : Obligations.OnlyUnwrittenWordsStop := fun i _ hi =>
  (exec_completes_or_stops hi i).imp_right fun ⟨_, hf, a, he, hnone, hw⟩ => ⟨a, he ▸ hf, hnone, hw⟩

/-! ### The status registers across a step -/

/-- What a step that is not the reset input does to the status registers: a refusal writes its code, any other step
keeps `G.ERR` and keeps or clears `G.LAST` (60_exceptions.md R201, R202). -/
theorem step_status {s t : State} (ht : step s = .next t) (hr : noReset s) :
    (∃ c : Code, t.last = c.byte ∧ t.err = if s.err = okByte then c.byte else s.err) ∨
      (t.err = s.err ∧ (t.last = okByte ∨ t.last = s.last)) := by
  cases hp : s.pending with
  | nil =>
    rw [step_idle hp] at ht
    cases ht
    exact .inr ⟨rfl, .inr rfl⟩
  | cons a rest =>
    rw [noReset, hp] at hr
    cases hw : wordToCmd s.params a with
    | none =>
      rw [step_serve hp] at ht
      rcases serve_status (s := takeAction rest s) ht hr hw with ⟨hlast, herr⟩ | ⟨c, -, he⟩
      · exact .inr ⟨herr, .inr hlast⟩
      · rw [he]
        exact .inl ⟨c, rfl, rfl⟩
    | some w =>
      rw [step_wordToCmd hp hw, commandWrite] at ht
      split at ht
      next =>
        cases ht
        exact .inl ⟨.illegal, rfl, rfl⟩
      next i _ =>
        rcases exec_status ht with ⟨c, rfl⟩ | ⟨hlast, herr⟩
        · exact .inl ⟨c, rfl, rfl⟩
        · exact .inr ⟨herr, .inl hlast⟩

/-- Settles O48: by `step_status`, since no code is 0. -/
theorem errIsSticky : Obligations.ErrIsSticky := by
  intro s t ht hr
  rcases step_status ht hr with ⟨c, hlast, herr⟩ | ⟨herr, hlast⟩
  · have hc : c.byte ≠ 0x00#8 := fillCode_ne c
    by_cases h0 : s.err = okByte
    · rw [if_pos h0] at herr
      exact ⟨fun h => absurd h0 h, fun _ => .inr ⟨herr.trans hlast.symm, herr ▸ hc⟩, fun h => absurd (herr ▸ h) hc⟩
    · rw [if_neg h0] at herr
      exact ⟨fun _ => herr, fun h => absurd h h0, fun h => absurd (herr ▸ h) h0⟩
  · exact ⟨fun _ => herr, fun h => .inl (herr.trans h), fun h => ⟨herr ▸ h, hlast⟩⟩

end Sys2Proof.Machine
end

section
/-! SUPPORT. What one step does to a voice, its phase, its constants and its flags (10_state.md R30 to R35). -/

namespace Sys2Proof.Machine

theorem liveVoice_ne_none {s : State} {v : Nat} {vc : Voice} (h : holdsVoice s v vc) :
    liveVoice s.params.nvoice s.voices v ≠ none := by
  rw [h]
  nofun

/-- What a step does to a slot that is valid before and after: nothing, or `ENV`, `PROD` or `FILL` has taken the voice
on. `FILL` keeps only voices that are not finished (44_mixer.md R177). -/
theorem step_keeps_voice {s t : State} (hl : s.params.legal = true) (hs : shaped s) (ht : step s = .next t)
    (hr : noReset s) {v : Nat} {vc vc' : Voice} (hv : holdsVoice s v vc) (hv' : holdsVoice t v vc') :
    vc' = vc ∨ (∃ n, nextCommand s = some (.env v n) ∧ vc' = envTrace s.offarg.toNat vc n) ∨
      ∃ n, (nextCommand s = some (.prod v n) ∨ vc'.fin = false) ∧ vc' = producedVoice n vc := by
  rcases step_live hl hs ht hr hv with h | ⟨n, hc, -, h⟩ | ⟨n, hc, -, h⟩ | ⟨n, hc, -, h⟩
  · exact .inl (holdsVoice_unique hv' h)
  · exact .inr (.inl ⟨n, hc, holdsVoice_unique hv' h⟩)
  · exact .inr (.inr ⟨n, .inl hc, holdsVoice_unique hv' h⟩)
  · rw [hv'] at h
    split at h
    next => cases h
    next hfin =>
      obtain rfl := Option.some.inj h
      exact .inr (.inr ⟨n, .inr (Bool.eq_false_iff.2 hfin), rfl⟩)

/-- A slot that loses its voice loses it to `FILL`, the voice being finished (44_mixer.md R177). -/
theorem step_frees_slot {s t : State} (hl : s.params.legal = true) (hs : shaped s) (ht : step s = .next t)
    (hr : noReset s) {v : Nat} {vc : Voice} (hv : holdsVoice s v vc)
    (hn : liveVoice t.params.nvoice t.voices v = none) :
    ∃ n, nextCommand s = some (.fill n) ∧ (producedVoice n vc).fin = true := by
  rcases step_live hl hs ht hr hv with h | ⟨n, -, -, h⟩ | ⟨n, -, -, h⟩ | ⟨n, hc, -, h⟩
  · exact absurd hn (liveVoice_ne_none h)
  · exact absurd hn (liveVoice_ne_none h)
  · exact absurd hn (liveVoice_ne_none h)
  · rw [hn] at h
    split at h
    next hfin => exact ⟨n, hc, hfin⟩
    next => cases h

/-- Settles O50: neither the envelope nor `Produce` writes a constant of the voice (`producedVoice_consts`). -/
theorem voiceConstantsNeverChange : Obligations.VoiceConstantsNeverChange := by
  intro s t v vc vc' hl hs ht hr hv hv'
  rcases step_keeps_voice hl hs ht hr hv hv' with rfl | ⟨n, -, rfl⟩ | ⟨n, -, rfl⟩
  · exact ⟨rfl, rfl, rfl, rfl, rfl, rfl, rfl, rfl, rfl⟩
  · simp
  · exact producedVoice_consts n vc

/-- Settles O49: a slot is made valid as `step_free` says, and made invalid as `step_frees_slot` says; in a slot that
stays valid only `Produce` writes `FIN` (`producedVoice_fin`). -/
theorem validAndFinished : Obligations.ValidAndFinished := by
  intro s t v hl hs ht hr
  refine ⟨fun vc' hn hv' => ?_, fun vc hv hn => ?_, fun vc vc' hv hv' => ?_⟩
  · obtain ⟨hc, hslot, hlt, rfl⟩ := step_free hl hs ht hr hn hv'
    simp only [Params.legal, Bool.and_eq_true, decide_eq_true_eq] at hl
    refine ⟨hc, ?_, rfl, rfl⟩
    rw [hslot, BitVec.toNat_ofNat]
    omega
  · obtain ⟨n, hc, hfin⟩ := step_frees_slot hl hs ht hr hv hn
    exact ⟨n, hc, ((producedVoice_fin n vc).2 hfin).symm⟩
  · rcases step_keeps_voice hl hs ht hr hv hv' with rfl | ⟨n, -, rfl⟩ | ⟨n, hc, rfl⟩
    · exact ⟨id, fun h0 h1 => absurd (h0.symm.trans h1) Bool.false_ne_true⟩
    · rw [envTrace_fin]
      exact ⟨id, fun h0 h1 => absurd (h0.symm.trans h1) Bool.false_ne_true⟩
    · obtain ⟨hkeep, hset⟩ := producedVoice_fin n vc
      refine ⟨hkeep, fun h0 h1 => ⟨?_, n, hc.resolve_right fun h => Bool.false_ne_true (h.symm.trans h1)⟩⟩
      exact (hset h1).resolve_left fun h => Bool.false_ne_true (h0.symm.trans h)

/-! ### Phases -/

/-- What an `ENV` that answers a next state has done (41_envelope.md R133). -/
theorem exec_env_next {s t : State} {v n : Nat} (h : exec (.env v n) s = .next t) :
    (∃ c, t = refuse c s) ∨ ∃ vc m, envCheck v n s = .ok vc ∧
      envApply s.offarg.toNat 0 n vc s.mem = .ok (envTrace s.offarg.toNat vc n, m) ∧
      t = complete (setRstate (envTrace s.offarg.toNat vc n).state
        (setVoice v (envTrace s.offarg.toNat vc n) (setMem m s))) := by
  rcases runCommand_next.1 h with ⟨c, -, rfl⟩ | ⟨vc, u, hc, he, rfl⟩
  · exact .inl ⟨c, rfl⟩
  · unfold envEffect at he
    split at he <;> cases he
    next m hm =>
    obtain ⟨rfl, -⟩ := envApply_ok hm
    exact .inr ⟨vc, m, hc, hm, rfl⟩

/-- Settles O22: over a step the tag follows `envTrace_tag`, over one `ENV` sample `envAdvance_tag`. -/
theorem phaseNeverRegresses : Obligations.PhaseNeverRegresses := by
  refine ⟨fun s t v vc vc' hl hs ht hr hv hv' => ?_, fun s t v vc vc' ht hv hv' => ?_⟩
  · have htag : vc.state.tag ≤ vc'.state.tag := by
      rcases step_keeps_voice hl hs ht hr hv hv' with rfl | ⟨n, -, rfl⟩ | ⟨n, -, rfl⟩
      · exact BitVec.le_refl _
      · exact envTrace_tag _ _ _
      · rw [producedVoice_state]
        exact envTrace_tag _ _ _
    exact ⟨htag, fun hd => tag_done (hd ▸ htag)⟩
  · rcases exec_env_next ht with ⟨c, rfl⟩ | ⟨vc0, m, hc, -, rfl⟩
    · exact .inl (congrArg Voice.state (holdsVoice_unique hv' hv))
    · obtain ⟨hv0, -⟩ := envCheck_ok.1 hc
      obtain rfl := holdsVoice_unique hv hv0
      have hset : holdsVoice (complete (setRstate (envTrace s.offarg.toNat vc 1).state
          (setVoice v (envTrace s.offarg.toNat vc 1) (setMem m s)))) v (envAdvance vc s.offarg.toNat) :=
        liveVoice_set_self hv (by rw [envTrace_valid]; exact (holds_mem hv).2)
      rw [holdsVoice_unique hv' hset]
      exact (envAdvance_tag vc s.offarg.toNat).2

/-- Settles O57: a voice comes from `ENQ`, in Attack, or has been taken on by `Produce`, which keeps the order
(`producedVoice_contiguous`); a reset leaves no valid voice. -/
theorem phasesBeginBeforeTheOffset : Obligations.PhasesBeginBeforeTheOffset := by
  intro s t hl hs hall ht hnoenv vc' hm hvalid
  rcases reset_or_not s with hr | ⟨rest, hp⟩
  · obtain ⟨v, hv'⟩ := live_of_mem (step_shaped hl hs ht) hm hvalid
    rcases step_voice hl hs ht hr hv' with ⟨-, rfl⟩ | ⟨vc, hv, rfl | ⟨n, hc, -⟩ | ⟨n, ho, rfl⟩⟩
    · exact fun h => h.elim nofun nofun
    · exact hall _ (holds_mem hv).1 (holds_mem hv).2
    · exact absurd hc (hnoenv v n)
    · exact producedVoice_contiguous ho (hall _ (holds_mem hv).1 (holds_mem hv).2)
  · rw [step_serve hp] at ht
    cases ht
    rw [List.eq_of_mem_replicate hm] at hvalid
    cases hvalid

end Sys2Proof.Machine
end

section
/-! SUPPORT. What commands and steps write: memory, the seal flags, the registers (20_memory.md R61, R66; 10_state.md
section 2). -/

namespace Sys2Proof.Machine

/-- Every byte from `OUT` on lies outside `SCR[0 .. n-1]`, and every byte of the tables outside both buffers
(20_memory.md R70). -/
theorem outside_buffers {p : Params} (hl : p.legal = true) {n x : Nat} (hn : n ≤ p.sr) :
    (4 * outBase ≤ x → outsideWords scrBase n x) ∧
      (4 * tblBase ≤ x → outsideWords scrBase n x ∧ outsideWords outBase n x) := by
  obtain ⟨hs, ho⟩ := windows_of_legal hl hn
  unfold outsideWords
  omega

/-- Settles O52: `exec_memory`, with the windows apart (`outside_buffers`). -/
theorem memoryReachOfCommands : Obligations.MemoryReachOfCommands := by
  intro i s t hl hs ht
  obtain ⟨n, hn, hbuf, hscr, hnone, hunit, hfill⟩ := exec_memory hl hs ht
  refine ⟨fun x hx => ?_, fun hi x hx => hscr hi x ((outside_buffers hl hn).1 hx), hnone, hunit, hfill⟩
  obtain ⟨h1, h2⟩ := (outside_buffers (x := x) hl hn).2 hx
  exact hbuf x h1 h2

/-! ### Sealed banks -/

/-- Bank `b` and its flag as `b` is sealed: still sealed, and every byte of its window as before. -/
def bankKept (b : Nat) (s t : State) : Prop :=
  t.sealFlags.getD b false = true ∧
    ∀ x, 4 * tblAddr b 0 ≤ x → x < 4 * (tblAddr b 0 + 2 * s.params.sr) → readByte t.mem x = readByte s.mem x

section
variable {s t : State} {b : Nat} (hl : s.params.legal = true) (hs : shaped s)
include hl hs

theorem exec_keeps_sealed {i : Instr} (ht : exec i s = .next t) (hb : s.sealFlags.getD b false = true) :
    bankKept b s t := by
  constructor
  · rcases exec_seal hl hs ht with h | ⟨b', -, -, h⟩ <;> rw [h]
    · exact hb
    · rw [getD_set, hb, ite_self]
  · intro x hx _
    obtain ⟨n, hn, hbuf, -⟩ := exec_memory hl hs ht
    have hbase := tblBase_le_tblAddr b 0
    obtain ⟨h1, h2⟩ := (outside_buffers (x := x) hl hn).2 (by omega)
    exact hbuf x h1 h2

/-- Only `TSEAL b` seals bank `b` (45_host_access.md R185). -/
theorem exec_seals {i : Instr} (ht : exec i s = .next t) (hb : s.sealFlags.getD b false = false)
    (hb' : t.sealFlags.getD b false = true) : i = .tseal b := by
  rcases exec_seal hl hs ht with h | ⟨c, hi, -, h⟩ <;> rw [h] at hb'
  · exact absurd (hb.symm.trans hb') Bool.false_ne_true
  · rw [getD_set] at hb'
    split at hb'
    next hc => rw [hi, hc.1]
    next => exact absurd (hb.symm.trans hb') Bool.false_ne_true

/-- What serving an action that is not the reset input does to a bank: a command acts as above, a bus write reaches no
byte of a sealed bank (20_memory.md R66), and everything else writes neither tables nor flags. -/
theorem serve_bank {a : HostAction} (ha : a ≠ .reset) (ht : serve a s = .next t) :
    (s.sealFlags.getD b false = true → bankKept b s t) ∧
      (s.sealFlags.getD b false = false → t.sealFlags.getD b false = true →
        commandOf s.params a = some (.tseal b)) := by
  have same (hf : t.sealFlags = s.sealFlags)
      (hm : s.sealFlags.getD b false = true → ∀ x, 4 * tblAddr b 0 ≤ x →
        x < 4 * (tblAddr b 0 + 2 * s.params.sr) → readByte t.mem x = readByte s.mem x) :
      (s.sealFlags.getD b false = true → bankKept b s t) ∧
        (s.sealFlags.getD b false = false → t.sealFlags.getD b false = true →
          commandOf s.params a = some (.tseal b)) :=
    ⟨fun hb => ⟨hf ▸ hb, hm hb⟩, fun h0 h1 => absurd (h0.symm.trans (hf ▸ h1)) Bool.false_ne_true⟩
  rcases serve_next ht with ⟨i, hi, he⟩ | ⟨c, rfl⟩ | rfl | hst | ⟨k, d, hk, rfl⟩ | ⟨b', j, d, hb', hj, hopen, rfl⟩ |
    ⟨r, n, rfl⟩ | ⟨hreset, -⟩
  · exact ⟨exec_keeps_sealed (s := setRdata none s) hl hs he, fun h0 h1 =>
      hi.trans (congrArg some (exec_seals (s := setRdata none s) hl hs he h0 h1))⟩
  · exact same rfl fun _ _ _ _ => rfl
  · exact same rfl fun _ _ _ _ => rfl
  · obtain ⟨-, -, -, hf, hm, -⟩ := staging_frame hst
    exact same hf fun _ _ _ _ => congrArg (readByte · _) hm
  · refine same rfl fun _ x hx _ => readByte_writeWord_other _ _ (.inr ?_)
    have hbase := tblBase_le_tblAddr b 0
    obtain ⟨h1, h2⟩ := windows_of_legal hl hk
    omega
  · refine same rfl fun hb x hx hx' => readByte_writeWord_other _ _ (tblAddr_lt hl hj ?_ x hx hx')
    rintro rfl
    exact Bool.false_ne_true (hopen.symm.trans hb)
  · exact same rfl fun _ _ _ _ => rfl
  · exact absurd hreset ha
end

/-- Settles O51: `serve_bank`; an idle step changes nothing. -/
theorem sealedBanksNeverChange : Obligations.SealedBanksNeverChange := by
  intro s t b hl hs ht hr _
  cases hp : s.pending with
  | nil =>
    rw [step_idle hp] at ht
    cases ht
    exact ⟨fun hb => ⟨hb, fun _ _ _ => rfl⟩, fun h0 h1 => absurd (h0.symm.trans h1) Bool.false_ne_true⟩
  | cons a rest =>
    rw [noReset, hp] at hr
    rw [step_serve hp] at ht
    rw [nextCommand, hp]
    exact serve_bank (s := takeAction rest s) hl hs hr ht

/-! ### The registers -/

/-- The state a command that passed its checks writes, by the parts of the state it replaces. -/
def Wrote : Instr → State → State → Prop
  | .osc _ _, s, t | .dist _ _, s, t | .vol _ _, s, t => ∃ m, t = complete (setMem m s)
  | .env v _, s, t | .prod v _, s, t => ∃ m vc ph, t = complete (setRstate ph (setVoice v vc (setMem m s)))
  | .enq, s, t => ∃ v vc, t = complete (setRslot v (setVoice v vc s))
  | .fill _, s, t => ∃ m vs cnt, t = complete (setVoices vs (setMem m (setRcount cnt s)))
  | .tseal b, s, t => t = complete (sealBank b s)

/-- A command is refused, or its next state is the completed effect of its writes (30_encoding.md R100). -/
theorem runCommand_refused_or {α : Type} {check : Except Code α} {effect : α → Except Fault State} {s t : State}
    {P : State → Prop} (h : runCommand check effect s = .next t) (hP : ∀ a u, effect a = .ok u → P (complete u)) :
    (∃ c, t = refuse c s) ∨ P t := by
  rcases runCommand_next.1 h with ⟨c, -, rfl⟩ | ⟨a, u, -, he, rfl⟩
  · exact .inl ⟨c, rfl⟩
  · exact .inr (hP a u he)

/-- Every next state of a command is a refusal or one of `Wrote`. -/
theorem exec_wrote {i : Instr} {s t : State} (h : exec i s = .next t) : (∃ c, t = refuse c s) ∨ Wrote i s t := by
  cases i with
  | osc v n =>
    refine runCommand_refused_or h fun vc u he => ?_
    unfold oscEffect at he
    split at he <;> cases he
    exact ⟨_, rfl⟩
  | env v n => exact (exec_env_next h).imp_right fun ⟨_, m, _, _, ht⟩ => ⟨m, _, _, ht⟩
  | dist v n =>
    refine runCommand_refused_or h fun vc u he => ?_
    unfold distEffect at he
    split at he <;> cases he
    exact ⟨_, rfl⟩
  | vol v n =>
    refine runCommand_refused_or h fun vc u he => ?_
    unfold volEffect at he
    split at he <;> cases he
    exact ⟨_, rfl⟩
  | prod v n =>
    refine runCommand_refused_or h fun vc u he => ?_
    unfold prodEffect at he
    split at he <;> cases he
    exact ⟨_, _, _, rfl⟩
  | enq =>
    refine runCommand_refused_or (check := enqCheck s) (effect := enqEffect s) h fun v u he => ?_
    cases he
    exact ⟨_, _, rfl⟩
  | fill n =>
    refine runCommand_refused_or h fun _ u he => ?_
    unfold fillEffect fillMix at he
    dsimp only at he
    split at he
    · cases he
      exact ⟨_, s.voices, _, rfl⟩
    · split at he
      · cases he
      · split at he <;> cases he
        exact ⟨_, _, _, rfl⟩
  | tseal b =>
    refine runCommand_refused_or (check := tsealCheck b s) (effect := tsealEffect b s) h fun _ u he => ?_
    cases he
    rfl

/-- Settles O54: read off the parts each command replaces (`exec_wrote`). -/
theorem writersOfTheRegisters : Obligations.WritersOfTheRegisters := by
  intro i s t ht
  rcases exec_wrote ht with ⟨c, rfl⟩ | hw
  · exact ⟨rfl, by simp, by simp, by simp, by simp, by simp⟩
  cases i with
  | osc v n | dist v n | vol v n =>
    obtain ⟨m, rfl⟩ := hw
    exact ⟨rfl, by simp, by simp, by simp, by simp, by simp⟩
  | env v n | prod v n =>
    obtain ⟨m, vc, ph, rfl⟩ := hw
    exact ⟨rfl, by simp, by simp, by simp, by simp, by simp⟩
  | enq =>
    obtain ⟨v, vc, rfl⟩ := hw
    exact ⟨rfl, by simp, by simp, by simp, by simp, by simp⟩
  | fill n =>
    obtain ⟨m, vs, cnt, rfl⟩ := hw
    exact ⟨rfl, by simp, by simp, by simp, by simp, by simp⟩
  | tseal b =>
    obtain rfl := hw
    exact ⟨rfl, by simp, by simp, by simp, by simp, by simp⟩

/-! ### Non-interference -/

/-- `OSC` and `ENV` read `G.OFFARG` of the nine registers and no other (10_state.md R21, R23). -/
theorem offset_readers_staging {s g : State} (ho : g.offarg = s.offarg) (v n : Nat) :
    exec (.osc v n) (withStaging g s) = mapNext (withStaging g) (exec (.osc v n) s) ∧
      exec (.env v n) (withStaging g s) = mapNext (withStaging g) (exec (.env v n) s) := by
  have ho' : (withStaging g s).offarg = s.offarg := ho
  obtain ⟨hparams, hmem, -, -⟩ := stage_same g s
  constructor
  · refine runCommand_map (withStaging g) ?_ (fun _ => rfl) (fun _ => rfl) fun vc => ?_
    · rw [oscCheck, ho']
      rfl
    · rw [oscEffect, oscEffect, ho', hparams, hmem]
      cases oscRender s.params vc n s.offarg.toNat s.mem <;> rfl
  · refine runCommand_map (withStaging g) ?_ (fun _ => rfl) (fun _ => rfl) fun vc => ?_
    · rw [envCheck, ho']
      rfl
    · rw [envEffect, envEffect, ho', hmem]
      cases envApply s.offarg.toNat 0 n vc s.mem <;> rfl

/-- `ENQ` does not read `G.OFFARG` (44_mixer.md R172, R173). -/
theorem enq_offarg (s : State) (o : Word) :
    exec .enq (withStaging { s with offarg := o } s) = mapNext (withStaging { s with offarg := o }) (exec .enq s) :=
  runCommand_map (withStaging { s with offarg := o }) (check := enqCheck s)
    (check' := enqCheck (withStaging { s with offarg := o } s)) (eff := enqEffect s)
    (eff' := enqEffect (withStaging { s with offarg := o } s)) rfl (fun _ => rfl) (fun _ => rfl) fun _ => rfl

/-- Settles O53: the readers of `G.OFFARG` by `offset_readers_staging`, `ENQ` by `enq_offarg`, the others by
`others_staging`. -/
theorem stagingReachesOnlyItsReaders : Obligations.StagingReachesOnlyItsReaders := by
  refine fun i s g => ⟨fun hi ho => ?_, fun hi hg => ?_⟩
  · by_cases hread : ∀ v n, i ≠ .osc v n ∧ i ≠ .env v n
    · exact others_staging i s g hi hread
    · cases i with
      | osc v n => exact (offset_readers_staging ho v n).1
      | env v n => exact (offset_readers_staging ho v n).2
      | _ => exact absurd (fun _ _ => ⟨nofun, nofun⟩) hread
  · by_cases henq : i = .enq
    · rw [henq, hg]
      exact enq_offarg s g.offarg
    · exact others_staging i s g henq hi

end Sys2Proof.Machine
end

section
/-! SUPPORT. Sealing, the reads of a slot, of memory and of unmapped addresses, and reset (45_host_access.md R185, R187;
10_state.md R28, R29, R43). -/

namespace Sys2Proof.Machine

/-! ### Sealing -/

theorem tsealCheck_refused {s : State} {b : Nat} (h : s.params.ntable ≤ b ∨ s.sealFlags.getD b false = true) :
    tsealCheck b s = .error .table := by
  rw [tsealCheck]
  by_cases hb : s.params.ntable ≤ b
  · rw [(require_error (c := .table)).2 ⟨decide_eq_false (Nat.not_lt.2 hb), rfl⟩]
  · rw [(require_ok (u := ())).2 (decide_eq_true (Nat.lt_of_not_le hb))]
    exact require_error.2 ⟨by rw [isSealed, h.resolve_left hb]; rfl, rfl⟩

theorem exec_tseal_refused {s : State} {b : Nat} (h : s.params.ntable ≤ b ∨ s.sealFlags.getD b false = true) :
    exec (.tseal b) s = .next (refuse .table s) :=
  runCommand_error (tsealEffect b s) s (tsealCheck_refused h)

/-- Settles O40: refused when either check fails, otherwise the flag is set (`tsealCheck_ok`, `getD_set`). -/
theorem tsealSealsTheBank : Obligations.TsealSealsTheBank := by
  refine fun s b => ⟨fun h => exec_tseal_refused (.inl h), fun h => exec_tseal_refused (.inr h), fun hb hopen =>
    ⟨runCommand_ok (effect := tsealEffect b s) s ((tsealCheck_ok (u := ())).2 ⟨hb, hopen⟩) rfl, fun hs c => ?_⟩⟩
  have hlen : b < s.sealFlags.length := hs.2 ▸ hb
  rw [getD_set]
  by_cases hc : c = b <;> simp [hc, hlen]

/-! ### Reads of a slot -/

theorem lt_of_voiceRegAt {r : Nat} {reg : VoiceReg} (h : voiceRegAt r = some reg) : r < 10 := by
  unfold voiceRegAt at h
  split at h
  case h_11 => cases h
  all_goals decide

/-- A read of an address that stands for register `reg` of a slot (20_memory.md R72). -/
theorem step_read_voice {s : State} {addr : Word} {rest : List HostAction} {v r : Nat} {reg : VoiceReg}
    (hl : s.params.legal = true) (hp : s.pending = .read addr :: rest) (hv : v < s.params.nvoice)
    (hreg : voiceRegAt r = some reg) (h : addr.toNat = voiceBase + 16 * v + r) :
    step s = readTarget (.voice v reg) { s with pending := rest } :=
  step_read hp (target_voice hl hv (Nat.lt_trans (lt_of_voiceRegAt hreg) (by decide)) hreg h)

/-- Ten registers stand in a slot, `V_CTL` first (20_memory.md R72). -/
theorem voiceRegAt_above_ctl {r : Nat} (h0 : 0 < r) (h : r < 10) : ∃ reg, voiceRegAt r = some reg ∧ reg ≠ .ctl := by
  interval_cases r <;> exact ⟨_, rfl, nofun⟩

theorem readInvalid_of_ne_ctl {reg : VoiceReg} (h : reg ≠ .ctl) (v : Nat) (s : State) :
    readInvalid reg v s = .fault (.invalidSlotRegister v) := by
  cases reg
  case ctl => exact absurd rfl h
  all_goals rfl

theorem invalidControl_bit (s : State) : (invalidControl s).getLsbD 0 = false := by
  rw [invalidControl, BitVec.getLsbD_and]
  exact Bool.and_false _

/-- Settles O43: each address is that of one register (`step_read_voice`); of a valid slot it returns `voiceValue`, with
`voiceControl_bits` for `V_CTL`; of another slot it is `readInvalid`. -/
theorem readsOfVoiceRegisters : Obligations.ReadsOfVoiceRegisters := by
  intro s addr rest v ret hl hp hv hret
  refine ⟨fun vc hvc => ?_, fun hn => ⟨fun h => ?_, fun hlo hhi => ?_⟩⟩
  · have read (r : Nat) (reg : VoiceReg) (hreg : voiceRegAt r = some reg) (h : addr.toNat = 0x1000 + 16 * v + r) :
        step s = ret (voiceValue reg vc) := by
      rw [hret, step_read_voice hl hp hv hreg h, readTarget, hvc]
      rfl
    exact ⟨fun h => ⟨_, read 0 .ctl rfl h, voiceControl_bits vc⟩, read 1 .offset rfl, read 2 .start rfl,
      read 3 .aslope rfl, read 4 .dslope rfl, read 5 .sush rfl, read 6 .rslope rfl, read 7 .dexp rfl,
      read 8 .ddrive rfl, read 9 .vol rfl⟩
  · refine ⟨invalidControl s, invalidControl_bit s, ?_⟩
    rw [step_read_voice (r := 0) hl hp hv rfl h, readTarget, hn]
    rfl
  · obtain ⟨reg, hreg, hne⟩ := voiceRegAt_above_ctl (r := addr.toNat - (0x1000 + 16 * v)) (by omega) (by omega)
    rw [step_read_voice hl hp hv hreg (by rw [voiceBase]; omega), readTarget, hn]
    exact readInvalid_of_ne_ctl hne v _

/-! ### Reads of memory -/

/-- An address in a window of the map is read as the memory word that stands there (20_memory.md R73 to R75). -/
theorem step_read_window {s : State} {addr : Word} {rest : List HostAction} (hl : s.params.legal = true)
    (hp : s.pending = .read addr :: rest) (h : inWindow s.params addr.toNat) :
    step s = readMemory addr.toNat { s with pending := rest } := by
  rcases h with ⟨hlo, hhi⟩ | ⟨hlo, hhi⟩ | ⟨hlo, hb, hj⟩
  · have ha : addr.toNat = scrBase + (addr.toNat - scrBase) := (Nat.add_sub_of_le hlo).symm
    rw [step_read hp (target_scr hl (by omega) ha), readTarget, ← ha]
  · have ha : addr.toNat = outBase + (addr.toNat - outBase) := (Nat.add_sub_of_le hlo).symm
    rw [step_read hp (target_out hl (by omega) ha), readTarget, ← ha]
  · have ha : addr.toNat = tblAddr ((addr.toNat - tblBase) / tblStride) ((addr.toNat - tblBase) % tblStride) := by
      rw [tblAddr, Nat.add_assoc, Nat.div_add_mod', Nat.add_sub_of_le hlo]
    rw [step_read hp (target_tbl hl hb hj ha), readTarget, ← ha]

/-- Settles O44: a window address by `step_read_window`, an unmapped one by `target_unmapped`. -/
theorem readsOfMemoryAndUnmapped : Obligations.ReadsOfMemoryAndUnmapped := by
  refine fun s addr rest hl hp => ⟨fun hw w h => ?_, fun hw h => ?_, fun hw hg hv => ?_⟩
  · rw [step_read_window hl hp hw, readMemory, needWord_eq_ok.2 h]
    rfl
  · rw [step_read_window hl hp hw, readMemory, needWord_eq_error.2 ⟨h, rfl⟩]
  · exact step_read hp (target_unmapped hg hv hw)

/-! ### Reads and reset -/

/-- A read on either port is the read of a target, or is refused for its width or alignment (45_host_access.md R187,
20_memory.md R63). -/
theorem serve_read {a : HostAction} (h : (∃ addr, a = .read addr) ∨ ∃ ba width, a = .readBytes ba width) (s : State) :
    (∃ tg, serve a s = readTarget tg s) ∨ serve a s = .next (refusedRead s) := by
  rcases h with ⟨addr, rfl⟩ | ⟨ba, width, rfl⟩
  · exact .inl ⟨_, rfl⟩
  · by_cases hw : width ≠ 4 ∨ ba.toNat % 4 ≠ 0
    · exact .inr (byteBusRead_refused hw s)
    · obtain ⟨rfl, ha⟩ := not_or.1 hw |>.imp not_not.1 not_not.1
      exact .inl ⟨_, byteBusRead_aligned ha s⟩

/-- Settles O46: whatever the target, a read returns a value or is refused (`readTarget_next`). -/
theorem readsHaveNoSideEffect : Obligations.ReadsHaveNoSideEffect := by
  intro s t a rest hp ha ht
  rw [step_serve hp] at ht
  rcases serve_read ha (takeAction rest s) with ⟨tg, h⟩ | h <;> rw [h] at ht
  · rcases readTarget_next ht with ⟨r, n, rfl⟩ | rfl
    · exact .inl rfl
    · exact .inr rfl
  · cases ht
    exact .inr rfl

theorem isResetState_resetWith (p : Params) : isResetState p (State.resetWith p) :=
  ⟨rfl, List.length_replicate, fun vc hm => by rw [List.eq_of_mem_replicate hm]; rfl, rfl, fun _ => rfl, rfl, rfl, rfl,
    rfl, rfl, rfl, rfl, rfl, rfl, rfl, rfl, rfl, rfl, rfl⟩

/-- Settles O58: the reset input leaves `State.resetWith` of the parameters it finds, but for the model's own fields. -/
theorem resetState : Obligations.ResetState :=
  ⟨isResetState_resetWith _, fun s _ hp => ⟨_, step_serve hp, isResetState_resetWith s.params, rfl, rfl⟩⟩

end Sys2Proof.Machine
end

section
/-! SUPPORT. The arithmetic operations case by case (00_scope.md R11): what they give for finite operands, for zeros and
infinities, and for NaN; and the named properties of `POW` (R16). -/

namespace Sys2Proof.Machine

/-! ### Finite operands -/

section
variable {a b : Word} (hna : isnan a = false) (hia : isinf a = false) (hnb : isnan b = false) (hib : isinf b = false)
include hna hia hnb hib

theorem fadd_finite :
    fadd a b = if fint a + fint b = 0 then (if fsign a && fsign b then fNegZero else fZero)
      else roundTo (decide (fint a + fint b < 0)) (fint a + fint b).natAbs 1 := by
  simp only [fadd, hna, hia, hnb, hib, Bool.or_self, Bool.false_eq_true, if_false]

/-- The difference is the sum with the second sign turned over. -/
theorem fsub_finite :
    fsub a b = if fint a - fint b = 0 then (if fsign a && !fsign b then fNegZero else fZero)
      else roundTo (decide (fint a - fint b < 0)) (fint a - fint b).natAbs 1 := by
  rw [fsub_eq a hnb, fadd_finite hna hia (by rw [isnan_fneg, hnb]) (by rw [isinf_fneg, hib]), fint_fneg, fsign_fneg,
    Int.sub_eq_add_neg]

theorem fmul_finite : fmul a b = roundTo (fsign a != fsign b) (fmag a * fmag b) (2 ^ 149) := by
  simp only [fmul, hna, hia, hnb, hib, Bool.or_self, Bool.false_and, Bool.and_false, Bool.false_eq_true, if_false]

theorem fdiv_finite (hz : iszero b = false) :
    fdiv a b = roundTo (fsign a != fsign b) (fmag a * 2 ^ 149) (fmag b) := by
  simp only [fdiv, hna, hia, hnb, hib, hz, Bool.or_self, Bool.and_self, Bool.and_false, Bool.false_eq_true, if_false]

end

/-- A value rounded once has the nearest bits (00_scope.md R11). -/
theorem roundTo_isNearest (neg : Bool) (num : Nat) {den : Nat} (hd : 0 < den) :
    ∃ bits, isNearest num den bits ∧ roundTo neg num den = packSign neg bits :=
  ⟨roundBits num den, roundBits_isNearest hd, rfl⟩

/-! ### Infinite operands and zeros -/

section
variable {a b : Word}

/-- Infinities of opposite signs (00_scope.md R11). -/
theorem fadd_inf_inf (ha : isinf a = true) (hb : isinf b = true) (hs : fsign a ≠ fsign b) : fadd a b = fNaN := by
  simp [fadd, ha, hb, (isinf_not ha).1, (isinf_not hb).1, hs]

theorem fadd_inf_left (ha : isinf a = true) (hb : isnan b = false) (hs : isinf b = true → fsign a = fsign b) :
    fadd a b = a := by
  cases hib : isinf b with
  | false => simp [fadd, ha, hb, hib, (isinf_not ha).1]
  | true => simp [fadd, ha, hb, hib, (isinf_not ha).1, hs hib]

theorem fadd_inf_right (ha : isnan a = false) (hia : isinf a = false) (hb : isinf b = true) : fadd a b = b := by
  simp [fadd, ha, hia, hb, (isinf_not hb).1]

/-- Infinities of one sign add up to that infinity, so the order of the operands does not show. -/
theorem eq_of_inf (ha : isinf a = true) (hb : isinf b = true) (hs : fsign a = fsign b) : a = b :=
  eq_of_sign_bits hs ((of_decide_eq_true ha).trans (of_decide_eq_true hb).symm)

theorem fadd_inf_comm (ha : isinf a = true) (hb : isnan b = false) (hs : isinf b = true → fsign a = fsign b) :
    fadd b a = a := by
  cases hib : isinf b with
  | false => exact fadd_inf_right hb hib ha
  | true =>
    obtain rfl := eq_of_inf ha hib (hs hib)
    exact fadd_inf_left ha hb hs

theorem fsub_inf_inf (ha : isinf a = true) (hb : isinf b = true) (hs : fsign a = fsign b) : fsub a b = fNaN := by
  rw [fsub_eq a (isinf_not hb).1]
  exact fadd_inf_inf ha (by rw [isinf_fneg, hb]) (by simp [hs])

theorem fsub_inf_left (ha : isinf a = true) (hb : isnan b = false) (hs : isinf b = true → fsign a ≠ fsign b) :
    fsub a b = a := by
  rw [fsub_eq a hb]
  refine fadd_inf_left ha (by rw [isnan_fneg, hb]) fun h => ?_
  rw [fsign_fneg]
  exact Bool.eq_not_of_ne (hs (by rwa [isinf_fneg] at h))

theorem fsub_inf_right (ha : isnan a = false) (hia : isinf a = false) (hb : isinf b = true) :
    fsub a b = packSign (!fsign b) 0x7F800000 := by
  rw [fsub_eq a (isinf_not hb).1, fadd_inf_right ha hia (by rw [isinf_fneg, hb]), fneg, of_decide_eq_true hb]

/-- `0 * inf`, in either order (00_scope.md R11). -/
theorem fmul_zero_inf (ha : iszero a = true) (hb : isinf b = true) : fmul a b = fNaN ∧ fmul b a = fNaN := by
  simp [fmul, ha, hb]

theorem fmul_inf (ha : isinf a = true) (hb : isnan b = false) (hz : iszero b = false) :
    fmul a b = packSign (fsign a != fsign b) 0x7F800000 ∧ fmul b a = packSign (fsign b != fsign a) 0x7F800000 := by
  obtain ⟨hna, hza⟩ := isinf_not ha
  simp [fmul, ha, hb, hz, hna, hza]

/-- A dividend over a zero, itself neither NaN nor zero, is an infinity (00_scope.md R11). -/
theorem fdiv_zero_right (ha : isnan a = false) (hza : iszero a = false) (hb : iszero b = true) :
    fdiv a b = packSign (fsign a != fsign b) 0x7F800000 := by
  obtain ⟨hnb, hib⟩ := not_nan_of_zero hb
  simp [fdiv, ha, hza, hb, hnb, hib]

theorem fdiv_zero_zero (ha : iszero a = true) (hb : iszero b = true) : fdiv a b = fNaN := by
  simp [fdiv, ha, hb]

theorem fdiv_inf_inf (ha : isinf a = true) (hb : isinf b = true) : fdiv a b = fNaN := by
  simp [fdiv, ha, hb]

theorem fdiv_inf_left (ha : isinf a = true) (hb : isnan b = false) (hib : isinf b = false) :
    fdiv a b = packSign (fsign a != fsign b) 0x7F800000 := by
  obtain ⟨hna, hza⟩ := isinf_not ha
  simp [fdiv, ha, hb, hib, hna, hza]

theorem fdiv_inf_right (ha : isnan a = false) (hia : isinf a = false) (hb : isinf b = true) :
    fdiv a b = packSign (fsign a != fsign b) 0 := by
  obtain ⟨hnb, hzb⟩ := isinf_not hb
  simp [fdiv, ha, hia, hb, hnb, hzb]

end

/-! ### NaN -/

theorem nan_operand {a b : Word} (h : isnan a = true ∨ isnan b = true) :
    fadd a b = fNaN ∧ fsub a b = fNaN ∧ fmul a b = fNaN ∧ fdiv a b = fNaN := by
  have hor : (isnan a || isnan b) = true := Bool.or_eq_true_iff.2 h
  have hadd : fadd a b = fNaN := by rw [fadd, if_pos hor]
  refine ⟨hadd, ?_, by rw [fmul, if_pos hor], by rw [fdiv, if_pos hor]⟩
  cases hb : isnan b with
  | true => rw [fsub, hb, if_pos rfl]
  | false => rw [fsub_eq a hb, fadd, isnan_fneg, if_pos hor]

theorem nan_fsub (a b : Word) (h : isnan (fsub a b) = true) : fsub a b = fNaN := by
  cases hb : isnan b with
  | true => exact (nan_operand (.inr hb)).2.1
  | false =>
    rw [fsub_eq a hb] at h ⊢
    exact nan_fadd _ _ h

theorem nan_fmul (a b : Word) (h : isnan (fmul a b) = true) : fmul a b = fNaN :=
  (fmul_cases a b).resolve_right fun ⟨hn, _⟩ => Bool.false_ne_true (hn.symm.trans h)

/-- Every quotient that is not the canonical NaN is an infinity, a zero or a rounded value. -/
theorem nan_fdiv (a b : Word) (h : isnan (fdiv a b) = true) : fdiv a b = fNaN := by
  unfold fdiv at h ⊢
  split_ifs at h ⊢
  · rfl
  · rfl
  · rw [isnan_packSign _ (by decide)] at h
    cases h
  · rw [isnan_packSign _ (by decide)] at h
    cases h
  · rw [isnan_roundTo] at h
    cases h

/-- Settles O7: finite operands by the equation of each operation, whose one rounding is to nearest
(`roundTo_isNearest`); every other case is a lemma above. -/
theorem arithmeticRoundsOnce : Obligations.ArithmeticRoundsOnce := by
  intro a b
  refine ⟨fun hna hia hnb hib => ⟨fun h => ?_, fun h => ?_, fun h => ?_, fun h => ?_, ?_, fun hz => ?_⟩, fsub_inf_inf,
    fsub_inf_left, fsub_inf_right, fdiv_zero_right, fdiv_zero_zero, fdiv_inf_inf, fdiv_inf_left, fdiv_inf_right,
    fmul_zero_inf, fmul_inf, fadd_inf_inf, fun ha hb hs => ⟨fadd_inf_left ha hb hs, fadd_inf_comm ha hb hs⟩,
    nan_operand, nan_fadd a b, nan_fsub a b, nan_fmul a b, nan_fdiv a b⟩
  · rw [fadd_finite hna hia hnb hib, if_neg h]
    exact roundTo_isNearest _ _ Nat.one_pos
  · rw [fadd_finite hna hia hnb hib, if_pos h]
  · rw [fsub_finite hna hia hnb hib, if_neg h]
    exact roundTo_isNearest _ _ Nat.one_pos
  · rw [fsub_finite hna hia hnb hib, if_pos h]
  · rw [fmul_finite hna hia hnb hib]
    exact roundTo_isNearest _ _ (Nat.two_pow_pos 149)
  · rw [fdiv_finite hna hia hnb hib hz]
    exact roundTo_isNearest _ _ (Nat.pos_of_ne_zero fun h => Bool.false_ne_true (hz.symm.trans (fmag_eq_zero.1 h)))

/-! ### POW -/

/-- Whatever the free value is, `fpow` is not NaN and at least `+0.0` (00_scope.md R16). -/
theorem fge_fpow_zero (a e : Word) : fge (fpow a e) fZero = true := by
  unfold fpow
  split_ifs with _ _ _ hraw
  · decide
  · decide
  · decide
  · exact hraw
  · decide

theorem fpow_zero_right (a : Word) : fpow a fZero = fOne := if_pos rfl

theorem fpow_one_left (e : Word) : fpow fOne e = fOne := by
  rw [fpow, if_pos rfl, ite_self]

theorem fpow_inf_left {e : Word} (h : fgt e fZero = true) : fpow fInf e = fInf := by
  have he : e ≠ fZero := by
    rintro rfl
    exact absurd h (by decide)
  rw [fpow, if_neg he, if_neg (by decide), if_pos ⟨rfl, h⟩]

/-- Settles O10: the four named properties hold of `fpow` for all arguments. -/
theorem powerHasTheNamedProperties : Obligations.PowerHasTheNamedProperties := fun a e _ _ _ =>
  ⟨(fge_zero.1 (fge_fpow_zero a e)).1, fge_fpow_zero a e, fpow_zero_right a, fpow_one_left e, fpow_inf_left⟩

end Sys2Proof.Machine
end

section
/-! SUPPORT. `OSC` in two parts (40_oscillator.md R124). -/

namespace Sys2Proof.Machine

/-- `OSC` with its words written answers the state with each sample summed: the last clause of `oscAddsTheTable`. -/
theorem osc_samples {s : State} {v n : Nat} {vc : Voice} (hv : holdsVoice s v vc) (hn : n ≤ s.params.sr)
    (hoff : s.offarg.toNat + n < 2 ^ 32) (hscr : written s.mem scrBase n)
    (htbl : tableWritten s.params vc n s.offarg.toNat s.mem) :
    ∃ m, exec (.osc v n) s = .next { s with mem := m, last := okByte } ∧ ∀ k x y, k < n →
      readScr s.mem k = some x → readTbl s.mem vc.tsel.toNat (oscStart s.params s.offarg.toNat + k) = some y →
        readScr m k = some (fadd x y) := by
  obtain ⟨-, hall⟩ := oscAddsTheTable s v n
  obtain ⟨-, -, hok⟩ := hall vc hv
  obtain ⟨m, hexec, hsum, -⟩ := hok hn hoff hscr htbl
  exact ⟨m, hexec, hsum⟩

/-- `G.OFFARG` moved on by `N` samples, where that does not wrap (00_scope.md R15). -/
theorem toNat_add_ofNat {off : Word} {N : Nat} (h : off.toNat + N < 2 ^ 32) :
    (off + BitVec.ofNat 32 N).toNat = off.toNat + N := by
  rw [BitVec.toNat_add, BitVec.toNat_ofNat, Nat.add_mod_mod, Nat.mod_eq_of_lt h]

/-- Settles O15: the three calls complete (`osc_samples`), and the entries the second part reads are those of the whole
(`split_entry`). -/
theorem oscillatorSplits : Obligations.OscillatorSplits := by
  intro s v N M vc m2 hl hv hn hoff hscr htbl hwrap hm2 hbank
  have hoff' : (s.offarg + BitVec.ofNat 32 N).toNat = s.offarg.toNat + N := toNat_add_ofNat (by omega)
  have entry (k : Nat) (hk : k < M) : readTbl m2 vc.tsel.toNat (oscStart s.params (s.offarg.toNat + N) + k) =
      readTbl s.mem vc.tsel.toNat (oscStart s.params s.offarg.toNat + (N + k)) := by
    have hstart := oscStart_lt hl (s.offarg.toNat + N)
    rw [hbank _ (by omega), split_entry (by omega) hwrap]
  obtain ⟨m, hexec, hsum⟩ := osc_samples hv hn hoff hscr htbl
  obtain ⟨m1, hexec1, hsum1⟩ := osc_samples (n := N) hv (by omega) (by omega) (fun k hk => hscr k (by omega))
    fun k hk => htbl k (by omega)
  obtain ⟨m2', hexec2, hsum2⟩ := osc_samples (n := M)
    (s := { s with mem := m2, last := okByte, offarg := s.offarg + BitVec.ofNat 32 N }) hv
    (Nat.le_trans (Nat.le_add_left M N) hn) (by dsimp only; omega)
    (fun k hk => (congrArg Option.isSome (hm2 k hk)).trans (hscr (N + k) (by omega)))
    fun k hk => by
      dsimp only
      rw [hoff', entry k hk]
      exact htbl (N + k) (by omega)
  refine ⟨_, _, _, hexec, hexec1, hexec2, fun k hk => ?_, fun k hk => ?_⟩
  · obtain ⟨x, hx⟩ := Option.isSome_iff_exists.1 (hscr k (by omega))
    obtain ⟨y, hy⟩ := Option.isSome_iff_exists.1 (htbl k (by omega))
    exact (hsum1 k x y hk hx hy).trans (hsum k x y (by omega) hx hy).symm
  · obtain ⟨x, hx⟩ := Option.isSome_iff_exists.1 (hscr (N + k) (by omega))
    obtain ⟨y, hy⟩ := Option.isSome_iff_exists.1 (htbl (N + k) (by omega))
    rw [hsum (N + k) x y (by omega) hx hy]
    refine hsum2 k x y hk ((hm2 k hk).trans hx) ?_
    dsimp only
    rw [hoff', entry k hk, hy]

end Sys2Proof.Machine
end

section
/-! SUPPORT. `ENV`: its refusals, its samples, its split, and the shape of a whole envelope (41_envelope.md R133 to
R144, 60_exceptions.md R207). -/

namespace Sys2Proof.Machine

/-! ### The whole command -/

/-- Why `ENV` of a valid slot is refused (41_envelope.md R133). -/
theorem firstReason_env {s : State} {v n : Nat} {vc : Voice} (hv : holdsVoice s v vc) :
    firstReason s (.env v n) =
      if s.params.sr < n then some .len
      else if 2 ^ 32 ≤ s.offarg.toNat + n then some .offOvf
      else if (vc.state = .decay ∨ vc.state = .release) ∧ s.offarg < vc.start then some .offSeq
      else none := by
  simp only [firstReason, refusalReasons, firstCode_cons, List.find?_nil, Option.map_none, ofSlot_of_holds hv,
    Bool.not_true, Bool.false_eq_true, if_false, Bool.and_eq_true, Bool.or_eq_true, decide_eq_true_eq]

theorem firstReason_env_no_voice {s : State} {v : Nat} (h : liveVoice s.params.nvoice s.voices v = none) (n : Nat) :
    firstReason s (.env v n) = some .voice := by
  rw [firstReason, refusalReasons, firstCode_cons, ofSlot_of_none h]
  rfl

/-- Settles O16: the refusals in the order of `firstReason_env`; past them `env_runs`. -/
theorem envMultipliesByTheGain : Obligations.EnvMultipliesByTheGain := by
  refine fun s v n => ⟨fun h => exec_refused_of_firstReason (firstReason_env_no_voice h n), fun vc hv =>
    ⟨fun h => ?_, fun hn h => ?_, fun hn hoff hph h => ?_, env_runs hv⟩⟩
  · exact exec_refused_of_firstReason ((firstReason_env hv).trans (if_pos h))
  · exact exec_refused_of_firstReason (by rw [firstReason_env hv, if_neg (Nat.not_lt.2 hn), if_pos h])
  · exact exec_refused_of_firstReason
      (by rw [firstReason_env hv, if_neg (Nat.not_lt.2 hn), if_neg (Nat.not_le.2 hoff), if_pos ⟨hph, h⟩])

/-- Settles O20: `env_runs` with a voice that stays as it is (`envTrace_done`). -/
theorem doneSamplesAreZero : Obligations.DoneSamplesAreZero := by
  intro s v n vc hv hd hn hoff
  have hdone (k : Nat) : (envTrace s.offarg.toNat vc k).state = .done := by rw [envTrace_done _ hd, hd]
  obtain ⟨m, hexec, hzero, -, hframe⟩ := env_runs hv hn hoff (fun h => by simp [hd] at h) fun k _ => .inl (hdone k)
  rw [envTrace_done _ hd, set_self hv, hd] at hexec
  exact ⟨m, hexec, fun k hk => hzero k hk (hdone k), hframe⟩

/-- Settles O21: the three calls complete (`env_runs`), and the phases of the second part are those of the whole
(`envTrace_split`). -/
theorem envelopeSplits : Obligations.EnvelopeSplits := by
  intro s v N M vc m2 hv hn hoff hseq hscr hm2
  have hoff' : (s.offarg + BitVec.ofNat 32 N).toNat = s.offarg.toNat + N := toNat_add_ofNat (by omega)
  have hseq' : (envTrace s.offarg.toNat vc N).state = .decay ∨ (envTrace s.offarg.toNat vc N).state = .release →
      (envTrace s.offarg.toNat vc N).start ≤ s.offarg + BitVec.ofNat 32 N := fun h => by
    rw [BitVec.le_def, hoff']
    exact envTrace_start (fun h => BitVec.le_def.1 (hseq h)) (by omega) h
  obtain ⟨m, hexec, -, hout, -⟩ := env_runs hv hn hoff hseq fun k hk => .inr (hscr k hk)
  obtain ⟨m1, hexec1, -, hout1, -⟩ := env_runs (n := N) hv (by omega) (by omega) hseq
    fun k hk => .inr (hscr k (by omega))
  obtain ⟨m2', hexec2, -, hout2, -⟩ := env_runs (n := M) (v := v) (vc := envTrace s.offarg.toNat vc N)
    (s := { s with mem := m2, voices := s.voices.set v (envTrace s.offarg.toNat vc N),
                   rstate := (envTrace s.offarg.toNat vc N).state.tag, last := okByte,
                   offarg := s.offarg + BitVec.ofNat 32 N })
    (liveVoice_set_self hv (by rw [envTrace_valid, (holds_mem hv).2])) (Nat.le_trans (Nat.le_add_left M N) hn)
    (by dsimp only; omega) hseq'
    fun k hk => .inr ((congrArg Option.isSome (hm2 k hk)).trans (hscr (N + k) (by omega)))
  dsimp only at hexec2 hout2
  rw [hoff', ← envTrace_split, List.set_set] at hexec2
  refine ⟨_, _, _, hexec, hexec1, hexec2, fun k hk => ?_, fun k hk => ?_, rfl, rfl⟩
  · obtain ⟨x, hx⟩ := Option.isSome_iff_exists.1 (hscr k (by omega))
    exact (hout1 k x hk hx).trans (hout k x (by omega) hx).symm
  · obtain ⟨x, hx⟩ := Option.isSome_iff_exists.1 (hscr (N + k) (by omega))
    rw [hout (N + k) x (by omega) hx, hout2 k x hk ((hm2 k hk).trans hx), hoff', ← envTrace_split, Nat.add_assoc]

/-! ### Instant phases -/

/-- A product with a zero factor and a finite one gives the infinite slope, whatever it is taken times `SR`
(41_envelope.md R132). -/
theorem slopeOf_zero_product {p : Params} (hp : p.legal = true) {x : Word} (h : iszero x = true) :
    slopeOf (fmul x (u2f p.sr)) = fInf := by
  simp only [Params.legal, Bool.and_eq_true, decide_eq_true_eq] at hp
  obtain ⟨hnu, hiu, -⟩ := u2f_pos (n := p.sr) (by omega) (by omega)
  obtain ⟨hnx, hix⟩ := not_nan_of_zero h
  exact slope_zero (iszero_fmul (.inl h) hnx hnu hix hiu)

section
variable {vc : Voice} {i : Nat}

theorem attackGain_inf (h : vc.aslope = fInf) : attackGain vc i = fOne := by
  rw [attackGain, h, rp_inf, if_pos posinf]

theorem decayGain_inf (h : vc.dslope = fInf) : decayGain vc i = vc.sush := by
  rw [decayGain, h, rp_inf, if_pos posinf]

theorem releaseGain_inf (h : vc.rslope = fInf) : releaseGain vc i = fZero := by
  rw [releaseGain, h, rp_inf, if_pos posinf]
end

theorem fle_self {w : Word} (h : isnan w = false) : fle w w = true :=
  (fle_iff w w).2 ⟨h, h, Int.le_refl _⟩

/-- One sample, with the slot that holds the voice after it (41_envelope.md R139). -/
theorem one_sample_holds {s : State} {v : Nat} {vc : Voice} {x : Word} (hv : holdsVoice s v vc) (hn : 1 ≤ s.params.sr)
    (hoff : s.offarg.toNat + 1 < 2 ^ 32) (hseq : vc.state = .decay ∨ vc.state = .release → vc.start ≤ s.offarg)
    (hx : readScr s.mem 0 = some x) :
    ∃ t, exec (.env v 1) s = .next t ∧ readScr t.mem 0 = some (envOutput vc s.offarg.toNat x) ∧
      holdsVoice t v (envAdvance vc s.offarg.toNat) := by
  obtain ⟨m, hexec, hout, -⟩ := one_sample hv hn hoff hseq hx
  refine ⟨_, hexec, hout, liveVoice_set_self hv ?_⟩
  exact (envTrace_valid s.offarg.toNat vc 1).trans (holds_mem hv).2

/-- Settles O23: the slopes by `slopeOf_zero_product`; the sample by `one_sample_holds`, with the constant gain of the
infinite slope, which completes each phase. -/
theorem instantPhases : Obligations.InstantPhases := by
  refine ⟨fun p a r hp ha hnr hir => ?_, fun s v vc x hv hn hoff hx hnx => ⟨fun hst hslope => ?_,
    fun hst hseq hslope hns => ?_, fun hst hseq hslope => ?_⟩⟩
  · obtain ⟨hna, hia⟩ := not_nan_of_zero ha
    exact ⟨slopeOf_zero_product hp ha, slopeOf_zero_product hp (iszero_fmul (.inl ha) hna hnr hia hir),
      slopeOf_zero_product hp (iszero_fmul (.inr ha) hnr hna hir hia)⟩
  · obtain ⟨t, hexec, hout, hv'⟩ := one_sample_holds hv hn hoff (fun h => by simp [hst] at h) hx
    rw [envOutput_attack hst, attackGain_inf hslope, fmul_one_right hnx] at hout
    refine ⟨t, _, hexec, hout, hv', ?_⟩
    rw [envAdvance_attack hst, attackGain_inf hslope, if_pos (by decide)]
    split <;> rfl
  · obtain ⟨t, hexec, hout, hv'⟩ := one_sample_holds hv hn hoff (fun _ => hseq) hx
    rw [envOutput_decay hst, decayGain_inf hslope] at hout
    refine ⟨t, _, hexec, hout, hv', ?_⟩
    rw [envAdvance_decay hst, decayGain_inf hslope, if_pos (fle_self hns)]
  · obtain ⟨t, hexec, hout, hv'⟩ := one_sample_holds hv hn hoff (fun _ => hseq) hx
    rw [envOutput_release hst, releaseGain_inf hslope] at hout
    refine ⟨t, _, hexec, hout, hv', ?_⟩
    rw [envAdvance_release hst, releaseGain_inf hslope, if_pos (by decide)]

/-! ### The shape of a whole envelope -/

theorem firstBelow_congr {n i : Nat} {P Q : Nat → Prop} (h : ∀ j, j < n → (P j ↔ Q j)) (hP : firstBelow n P i) :
    firstBelow n Q i :=
  ⟨fun hi => (h i hi).1 (hP.1 hi), fun j hj hji hQ => hP.2 j hj hji ((h j hj).2 hQ)⟩

/-- The ramp of a phase that began at `i0` counts from there, at every later index a run reaches (41_envelope.md
R140). -/
theorem rampIndex_ofNat {i0 i : Nat} (h : i0 ≤ i) (hi : i < 2 ^ 32) : rampIndex i (BitVec.ofNat 32 i0) = i - i0 := by
  have h0 : (BitVec.ofNat 32 i0).toNat = i0 := by rw [BitVec.toNat_ofNat, Nat.mod_eq_of_lt (by omega)]
  rw [rampIndex, h0, if_pos h]

/-- Settles O24: the voice before each sample is that of `trace_shape`, whose gains are those of the statement since a
ramp counts from its phase's first index (`rampIndex_ofNat`). -/
theorem wholeEnvelopeShape : Obligations.WholeEnvelopeShape := by
  intro s v n vc iA iD iR pA pD pR gA gD gR hv hst hz hoff hn hlt hscr hpA hgA hpD hgD hpR hgR hA hD hR
  have gainA (i : Nat) : attackGain vc i = gA i := by rw [hgA, hpA, attackGain, rampProduct]
  have gainD (i : Nat) (h : iA ≤ i) (hi : i < 2 ^ 32) :
      decayGain { vc with state := .decay, start := BitVec.ofNat 32 iA } i = gD i := by
    rw [hgD, hpD, decayGain, rampIndex_ofNat h hi, rampProduct]
  have gainR (i : Nat) (h : iD ≤ i) (hi : i < 2 ^ 32) :
      releaseGain { vc with state := .release, start := BitVec.ofNat 32 iD } i = gR i := by
    rw [hgR, hpR, releaseGain, rampIndex_ofNat h hi, rampProduct]
  have shape := trace_shape hst hz (firstBelow_congr (fun i _ => by rw [gainA]) hA)
    (firstBelow_congr (fun i hi => and_congr_right fun h => by rw [← gainD i (by omega) (by omega)]; rfl) hD)
    (firstBelow_congr (fun i hi => and_congr_right fun h => by rw [← gainR i (by omega) (by omega)]; rfl) hR)
  have h0 : s.offarg.toNat = 0 := by rw [hoff]; rfl
  obtain ⟨m, hexec, -, hout, -⟩ := env_runs hv hn (by omega) (fun h => by simp [hst] at h) fun k hk => .inr (hscr k hk)
  rw [h0] at hexec hout
  refine ⟨_, hexec, fun k x hk hx => ?_, ?_⟩
  · rw [hout k x hk hx, shape k (by omega), Nat.zero_add]
    split_ifs with h1 h2 h3
    · rw [envOutput_attack hst, gainA]
    · rw [envOutput_decay rfl, gainD k (by omega) (by omega)]
    · rw [envOutput_release rfl, gainR k (by omega) (by omega)]
    · rw [envOutput_done rfl]
  · dsimp only
    rw [shape n (Nat.le_refl n)]
    split_ifs
    · rw [hst]; rfl
    all_goals rfl

/-! ### Finite outputs -/

/-- A sample in `[-1, 1]` times a finite gain is finite, and a Done sample is `+0.0` (60_exceptions.md R207). -/
theorem isFinite_envOutput {p : Params} {fl : List Bool} {vc : Voice} {i : Nat} {x : Word} (h : voiceOk p fl vc)
    (hi : i < 2 ^ 32) (hx : fle (fabs x) fOne = true) : isFinite (envOutput vc i x) = true := by
  obtain ⟨hA, hD, hR⟩ := gains_finite h hi
  cases hst : vc.state with
  | attack => exact envOutput_attack hst x ▸ isFinite_fmul hx hA
  | decay => exact envOutput_decay hst x ▸ isFinite_fmul hx hD
  | release => exact envOutput_release hst x ▸ isFinite_fmul hx hR
  | done => exact envOutput_done hst i x ▸ by decide

/-- Settles O25: every sample an executed `ENV` leaves is an `envOutput` of a voice of the invariant
(`voiceOk_trace`). -/
theorem envelopeOutputIsFinite : Obligations.EnvelopeOutputIsFinite := by
  intro s t v n vc hv hok hscr ht hlast k y hk hy
  rcases exec_env_next ht with ⟨c, rfl⟩ | ⟨vc', m, hc, hm, rfl⟩
  · exact absurd hlast (fillCode_ne c)
  · obtain ⟨hv', -, hoff, -⟩ := envCheck_ok.1 hc
    obtain rfl := holdsVoice_unique hv hv'
    obtain ⟨-, hsamples, -⟩ := envApply_ok hm
    obtain ⟨z, hz, hread⟩ := hsamples k hk
    simp only [Nat.add_zero, Nat.zero_add] at hz hread
    obtain rfl : z = y := Option.some.inj (hread.symm.trans hy)
    rcases envSample_ok hz with ⟨-, rfl⟩ | ⟨x, hx, rfl⟩
    · decide
    · exact isFinite_envOutput (voiceOk_trace hok _ k) (by omega) (hscr k x hk hx)

end Sys2Proof.Machine
end

section
/-! SUPPORT. One sample of the distortion (42_distortion.md R153 to R156), and `VOL` (43_voice.md R160). -/

namespace Sys2Proof.Machine

/-- `DIST` of one sample (42_distortion.md R152). -/
theorem dist_one_sample {s : State} {v : Nat} {vc : Voice} {x : Word} (hv : holdsVoice s v vc) (hn : 1 ≤ s.params.sr)
    (hd : vc.distEn = true) (hx : readScr s.mem 0 = some x) :
    ∃ m, exec (.dist v 1) s = .next { s with mem := m, last := okByte } ∧
      readScr m 0 = some (distSample vc x) := by
  obtain ⟨m, hexec, hout, -⟩ := dist_runs hv hn hd fun k hk => by
    obtain rfl : k = 0 := Nat.lt_one_iff.1 hk
    exact Option.isSome_of_eq_some hx
  exact ⟨m, hexec, hout 0 x Nat.one_pos hx⟩

section
variable {vc : Voice} {x : Word}

/-- A zero product is the result (42_distortion.md R153). -/
theorem distSample_zero_product (h : iszero (fmul x vc.ddrive) = true) : distSample vc x = fmul x vc.ddrive := by
  rw [distSample_of_product vc x _ rfl (not_nan_of_zero h).1, if_pos h]

/-- Where the power is 1.0 the result is 1.0 with the sign of the product (42_distortion.md R156). -/
theorem distSample_unit_power (hn : isnan (fmul x vc.ddrive) = false) (hz : iszero (fmul x vc.ddrive) = false)
    (h : fpow (fabs (fmul x vc.ddrive)) vc.dexp = fOne) : distSample vc x = copysign fOne (fmul x vc.ddrive) := by
  rw [distSample_of_product vc x _ rfl hn, if_neg (Bool.eq_false_iff.1 hz), h]
end

/-- A product of magnitude 1.0 is neither NaN nor a zero. -/
theorem class_of_fabs_one {p : Word} (h : fabs p = fOne) : isnan p = false ∧ iszero p = false := by
  have hb : fbits p = fbits fOne := by rw [← h, fbits_fabs]
  exact ⟨(isnan_congr hb).trans (by decide), (iszero_congr hb).trans (by decide)⟩

/-- Settles O27: `dist_one_sample`; the zeros by `iszero_distSample` and `distSample_zero_product`, the hard clip by
`distSample_unit_power`, the power being 1.0 by the properties of `POW`. -/
theorem zerosAndTheHardClip : Obligations.ZerosAndTheHardClip := by
  intro s v vc x hv hn hd hdrive hx
  obtain ⟨m, hexec, hout⟩ := dist_one_sample hv hn hd hx
  refine ⟨m, _, hexec, hout, fun hz => iszero_distSample hz hdrive, fun hfin hz => ?_, fun hnan hzero hexp => ?_,
    fun hone => ?_⟩
  · obtain ⟨hnx, hix⟩ := isFinite_parts hfin
    obtain ⟨hnd, hid⟩ := isFinite_parts hdrive
    have hp := iszero_fmul (.inr hz) hnx hnd hix hid
    rwa [distSample_zero_product hp]
  · exact distSample_unit_power hnan hzero (by rw [hexp, fpow_zero_right])
  · obtain ⟨hnan, hzero⟩ := class_of_fabs_one hone
    exact distSample_unit_power hnan hzero (by rw [hone, fpow_one_left])

/-- Settles O28: `-x` is `fneg x` (`xor_neg`), and the distortion turns the sign over with it (`distSample_fneg`), but
for a NaN product, where both results are the canonical NaN. -/
theorem distortionIsOdd : Obligations.DistortionIsOdd := by
  intro s v vc x m hv hn hd _ hx hx'
  rw [xor_neg] at hx'
  obtain ⟨m1, hexec, hout⟩ := dist_one_sample hv hn hd hx
  obtain ⟨m2, hexec', hout'⟩ := dist_one_sample (s := { s with mem := m }) hv hn hd hx'
  refine ⟨_, _, _, _, hexec, hexec', hout, hout', ?_, fun hy => ?_⟩
  · cases hp : isnan (fmul x vc.ddrive) with
    | false => rw [distSample_fneg vc x hp, fabs_fneg]
    | true => rw [distSample_of_nan vc x hp, distSample_of_nan vc (fneg x) (by rw [nan_fmul_fneg, hp])]
  · cases hp : isnan (fmul x vc.ddrive) with
    | false => rw [distSample_fneg vc x hp, xor_neg]
    | true =>
      rw [distSample_of_nan vc x hp] at hy
      exact absurd (fbits_fNaN.symm.trans hy) (by decide)

/-! ### VOL -/

/-- Why `VOL` of a valid slot is refused (43_voice.md R160). -/
theorem firstReason_vol {s : State} {v n : Nat} {vc : Voice} (hv : holdsVoice s v vc) :
    firstReason s (.vol v n) = if s.params.sr < n then some .len else none := by
  simp only [firstReason, refusalReasons, firstCode_cons, List.find?_nil, Option.map_none, ofSlot_of_holds hv,
    Bool.not_true, Bool.false_eq_true, if_false, decide_eq_true_eq]

theorem firstReason_vol_no_voice {s : State} {v : Nat} (h : liveVoice s.params.nvoice s.voices v = none) (n : Nat) :
    firstReason s (.vol v n) = some .voice := by
  rw [firstReason, refusalReasons, firstCode_cons, ofSlot_of_none h]
  rfl

/-- Settles O29: `vol_runs`; with volume 1.0 the memory is the one before. -/
theorem volScalesTheBuffer : Obligations.VolScalesTheBuffer := by
  refine fun s v n => ⟨fun h => exec_refused_of_firstReason (firstReason_vol_no_voice h n), fun vc hv =>
    ⟨fun h => exec_refused_of_firstReason ((firstReason_vol hv).trans (if_pos h)), fun hn hone => ?_,
      fun hn hne hscr => ?_⟩⟩
  · have hfne : fne vc.vol fOne = false := by rw [fne, hone]; rfl
    obtain ⟨m, hexec, -, -, hsame⟩ := vol_runs hv hn fun h => absurd (hfne.symm.trans h) Bool.false_ne_true
    rw [hexec, hsame hfne]
    rfl
  · obtain ⟨m, hexec, hout, hframe, -⟩ := vol_runs hv hn fun _ => hscr
    refine ⟨m, hexec, fun k x hk hx => ?_, hframe⟩
    rw [hout k x hk hx, volSample, if_pos hne]

end Sys2Proof.Machine
end

section
/-! SUPPORT. `PROD`: its refusals, the voice it leaves, the chain of units it stands for, a Done voice, and `PROD` in
two parts (43_voice.md R161 to R167). -/

namespace Sys2Proof.Machine

/-! ### The whole command -/

/-- Why `PROD` of a valid slot is refused (43_voice.md R161, R162). -/
theorem firstReason_prod {s : State} {v n : Nat} {vc : Voice} (hv : holdsVoice s v vc) :
    firstReason s (.prod v n) =
      if s.params.sr < n then some .len else if 2 ^ 32 ≤ vc.offset.toNat + n then some .offOvf else none := by
  simp only [firstReason, refusalReasons, firstCode_cons, List.find?_nil, Option.map_none, ofSlot_of_holds hv,
    Bool.not_true, Bool.false_eq_true, if_false, decide_eq_true_eq]

theorem firstReason_prod_no_voice {s : State} {v : Nat} (h : liveVoice s.params.nvoice s.voices v = none) (n : Nat) :
    firstReason s (.prod v n) = some .voice := by
  rw [firstReason, refusalReasons, firstCode_cons, ofSlot_of_none h]
  rfl

/-- The voice `Produce` leaves, with the offset read off the voice before (43_voice.md R164, R165). -/
theorem producedVoice_eq_ite (n : Nat) (vc : Voice) : producedVoice n vc =
    if (envTrace vc.offset.toNat vc n).state = .done then { envTrace vc.offset.toNat vc n with fin := true }
    else { envTrace vc.offset.toNat vc n with offset := vc.offset + BitVec.ofNat 32 n } := by
  rw [producedVoice_eq, envTrace_offset]

/-- Settles O30: the refusals in the order of `firstReason_prod`; past them `prod_runs`. -/
theorem prodProducesTheVoice : Obligations.ProdProducesTheVoice := by
  refine fun s v n => ⟨fun h => exec_refused_of_firstReason (firstReason_prod_no_voice h n), fun vc hv =>
    ⟨fun h => exec_refused_of_firstReason ((firstReason_prod hv).trans (if_pos h)), fun hn h => ?_,
      fun hl hn hoff htbl => ?_⟩⟩
  · exact exec_refused_of_firstReason (by rw [firstReason_prod hv, if_neg (Nat.not_lt.2 hn), if_pos h])
  · rintro _ _ rfl rfl
    rw [← producedVoice_eq_ite]
    exact ⟨toNat_add_ofNat hoff, prod_runs hl hv hn hoff htbl⟩

/-! ### The chain of units -/

/-- Two memories that differ from a third only in `SCR[0 .. n-1]`, and agree there, read alike at every byte. -/
theorem readByte_eq_of_scr {n : Nat} {m m1 m2 : Memory} (h1 : sameOutside scrBase n m m1)
    (h2 : sameOutside scrBase n m m2) (h : ∀ k, k < n → ∃ w, readScr m1 k = some w ∧ readScr m2 k = some w) (x : Nat) :
    readByte m1 x = readByte m2 x := by
  by_cases hx : outsideWords scrBase n x
  · rw [h1 x hx, h2 x hx]
  · obtain ⟨w, hw1, hw2⟩ := h (x / 4 - scrBase) (by omega)
    have hsplit : x = 4 * (scrBase + (x / 4 - scrBase)) + x % 4 := by omega
    rw [hsplit, readByte_of_readWord hw1 (by omega), readByte_of_readWord hw2 (by omega)]

/-- The distortion step of the chain, with or without a distortion (43_voice.md R163 step 3). -/
theorem dist_step_of_chain {s s' : State} {v n : Nat} {vc : Voice} (hv : holdsVoice s v vc) (hn : n ≤ s.params.sr)
    (hlast : s.last = okByte) (hscr : written s.mem scrBase n)
    (h : if vc.distEn then exec (.dist v n) s = .next s' else s' = s) :
    ∃ m, s' = { s with mem := m, last := okByte } ∧
      (∀ k x, k < n → readScr s.mem k = some x → readScr m k = some (distStepSample vc x)) ∧
      sameOutside scrBase n s.mem m := by
  cases hd : vc.distEn with
  | false =>
    rw [hd, if_neg Bool.false_ne_true] at h
    exact ⟨s.mem, by rw [h, ← hlast], fun k x _ hx => by rw [distStepSample, hd, if_neg Bool.false_ne_true, hx],
      sameOutside_refl _ _ _⟩
  | true =>
    rw [hd, if_pos rfl] at h
    obtain ⟨m, hexec, hout, hframe⟩ := dist_runs hv hn hd hscr
    refine ⟨m, Host.Outcome.next.inj (h.symm.trans hexec), fun k x hk hx => ?_, hframe⟩
    rw [hout k x hk hx, distStepSample, hd, if_pos rfl]

/-- `SCR[k]` of `m'` is `f k t` for every `k < n`, with `t` the table entry that sample `k` of a render at offset `off`
reads from `m` (40_oscillator.md R121). -/
def samplesFrom (p : Params) (vc : Voice) (n off : Nat) (m m' : Memory) (f : Nat → Word → Word) : Prop :=
  ∀ k t, k < n → readTbl m vc.tsel.toNat (oscStart p off + k) = some t → readScr m' k = some (f k t)

section
variable {p : Params} {vc : Voice} {n off : Nat} {m m' : Memory} {f : Nat → Word → Word}
  (h : samplesFrom p vc n off m m' f)
include h

theorem written_of_samplesFrom (htbl : tableWritten p vc n off m) : written m' scrBase n := fun k hk => by
  obtain ⟨t, ht⟩ := Option.isSome_iff_exists.1 (htbl k hk)
  exact Option.isSome_of_eq_some (h k t hk ht)

/-- A unit that takes each sample on takes the function of the table entry on. -/
theorem samplesFrom_map {m'' : Memory} {g : Nat → Word → Word}
    (hg : ∀ k x, k < n → readScr m' k = some x → readScr m'' k = some (g k x)) :
    samplesFrom p vc n off m m'' fun k t => g k (f k t) :=
  fun k t hk ht => hg k _ hk (h k t hk ht)
end

/-- `OSC` into zeroed words (43_voice.md R163 step 1). -/
theorem osc_zeroed {s : State} {v n : Nat} {vc : Voice} (hv : holdsVoice s v vc) (hn : n ≤ s.params.sr)
    (hoff : s.offarg.toNat + n < 2 ^ 32) (htbl : tableWritten s.params vc n s.offarg.toNat s.mem)
    (hzero : ∀ k, k < n → readScr s.mem k = some fZero) :
    ∃ m, exec (.osc v n) s = .next { s with mem := m, last := okByte } ∧
      samplesFrom s.params vc n s.offarg.toNat s.mem m (fun _ t => fadd fZero t) ∧ sameOutside scrBase n s.mem m := by
  obtain ⟨m, hexec, hsum, hframe⟩ := osc_runs hv hn hoff (fun k hk => Option.isSome_of_eq_some (hzero k hk)) htbl
  refine ⟨m, hexec, fun k t hk ht => ?_, hframe⟩
  obtain ⟨x, t', hx, ht', hk'⟩ := hsum k hk
  rw [hk', Option.some.inj (hx.symm.trans (hzero k hk)), Option.some.inj (ht'.symm.trans ht)]

/-- What the chain of units leaves, from `SCR` zeroed (43_voice.md R163 to R165). -/
theorem chain_of_units {s s1 s2 s3 s4 : State} {v n : Nat} {vc : Voice} (hv : holdsVoice s v vc)
    (hn : n ≤ s.params.sr) (hoff : s.offarg.toNat + n < 2 ^ 32) (hsame : vc.offset = s.offarg)
    (hseq : vc.state = .decay ∨ vc.state = .release → vc.start ≤ s.offarg)
    (htbl : tableWritten s.params vc n s.offarg.toNat s.mem) (hzero : ∀ k, k < n → readScr s.mem k = some fZero)
    (h1 : exec (.osc v n) s = .next s1) (h2 : exec (.env v n) s1 = .next s2)
    (h3 : if vc.distEn then exec (.dist v n) s2 = .next s3 else s3 = s2) (h4 : exec (.vol v n) s3 = .next s4) :
    s4.rstate = (envTrace s.offarg.toNat vc n).state.tag ∧
      s4.voices = s.voices.set v (envTrace s.offarg.toNat vc n) ∧ s4.params = s.params ∧
      samplesFrom s.params vc n s.offarg.toNat s.mem s4.mem (voiceSample vc) ∧ sameOutside scrBase n s.mem s4.mem := by
  obtain ⟨m1, e1, samples1, frame1⟩ := osc_zeroed hv hn hoff htbl hzero
  obtain rfl := Host.Outcome.next.inj (h1.symm.trans e1)
  obtain ⟨m2, e2, -, out2, frame2⟩ := env_runs (s := { s with mem := m1, last := okByte }) hv hn hoff hseq
    fun k hk => .inr (written_of_samplesFrom samples1 htbl k hk)
  obtain rfl := Host.Outcome.next.inj (h2.symm.trans e2)
  have samples2 : samplesFrom s.params vc n s.offarg.toNat s.mem m2 fun k t =>
      envOutput (envTrace s.offarg.toNat vc k) (s.offarg.toNat + k) (fadd fZero t) := samplesFrom_map samples1 out2
  have hv2 : liveVoice s.params.nvoice (s.voices.set v (envTrace s.offarg.toNat vc n)) v =
      some (envTrace s.offarg.toNat vc n) :=
    liveVoice_set_self hv (by rw [envTrace_valid, (holds_mem hv).2])
  obtain ⟨m3, rfl, out3, frame3⟩ := dist_step_of_chain
    (s := { s with mem := m2, voices := s.voices.set v (envTrace s.offarg.toNat vc n),
                   rstate := (envTrace s.offarg.toNat vc n).state.tag, last := okByte })
    hv2 hn rfl (written_of_samplesFrom samples2 htbl) (by rwa [envTrace_distEn])
  have samples3 := samplesFrom_map samples2 out3
  obtain ⟨m4, e4, out4, frame4, -⟩ := vol_runs
    (s := { s with mem := m3, voices := s.voices.set v (envTrace s.offarg.toNat vc n),
                   rstate := (envTrace s.offarg.toNat vc n).state.tag, last := okByte })
    hv2 hn fun _ => written_of_samplesFrom samples3 htbl
  obtain rfl := Host.Outcome.next.inj (h4.symm.trans e4)
  refine ⟨rfl, rfl, rfl, fun k t hk ht => ?_, sameOutside_trans (sameOutside_trans (sameOutside_trans frame1 frame2)
    frame3) frame4⟩
  refine (samplesFrom_map samples3 out4 k t hk ht).trans ?_
  dsimp only
  rw [voiceSample, shapeSample_eq, volSample_envTrace, distStepSample_envTrace, hsame]

/-- Settles O31: both leave `voiceSample` in `SCR[0 .. n-1]`, nothing else in memory, and the same phase
(`chain_of_units`, `prod_runs`). -/
theorem prodIsTheChainOfUnits : Obligations.ProdIsTheChainOfUnits := by
  intro s s1 s2 s3 s4 v n vc e m0 hl hv hn hoff hseq htbl hzero hframe h1 h2 h3 h4 he
  obtain ⟨hs, ho⟩ := windows_of_legal hl hn
  have table (k : Nat) : readTbl m0 vc.tsel.toNat (oscStart s.params vc.offset.toNat + k) =
      readTbl s.mem vc.tsel.toNat (oscStart s.params vc.offset.toNat + k) :=
    readTbl_of_sameOutside hframe (by omega) _ _
  obtain ⟨hrstate, hvoices, hparams, hout, hkept⟩ := chain_of_units
    (s := { s with mem := m0, offarg := vc.offset }) hv hn hoff rfl hseq (fun k hk => table k ▸ htbl k hk) hzero
    h1 h2 h3 h4
  have hset : holdsVoice s4 v (envTrace vc.offset.toNat vc n) := by
    rw [holdsVoice, hvoices, hparams]
    exact liveVoice_set_self hv (by rw [envTrace_valid, (holds_mem hv).2])
  obtain rfl := holdsVoice_unique he hset
  obtain ⟨m, hexec, hprod, hprodframe⟩ := prod_runs hl hv hn hoff htbl
  refine ⟨_, hexec, readByte_eq_of_scr hprodframe (sameOutside_trans hframe hkept) fun k hk => ?_, ?_, ?_⟩
  · obtain ⟨t, ht⟩ := Option.isSome_iff_exists.1 (htbl k hk)
    exact ⟨_, hprod k t hk ht, hout k t hk ((table k).trans ht)⟩
  · dsimp only
    rw [hrstate, producedVoice_state]
  · rw [← producedVoice_eq_ite]

/-! ### A Done voice -/

theorem producedVoice_of_done {n : Nat} {vc : Voice} (h : (envTrace vc.offset.toNat vc n).state = .done) :
    producedVoice n vc = { envTrace vc.offset.toNat vc n with fin := true } := by
  rw [producedVoice_eq_ite, if_pos h]

theorem producedVoice_of_not_done {n : Nat} {vc : Voice} (h : (envTrace vc.offset.toNat vc n).state ≠ .done) :
    producedVoice n vc = { envTrace vc.offset.toNat vc n with offset := vc.offset + BitVec.ofNat 32 n } := by
  rw [producedVoice_eq_ite, if_neg h]

/-- A sample taken in Done is the shaped `+0.0`, whatever the table holds (43_voice.md R166). -/
theorem voiceSample_of_done {vc : Voice} {k : Nat} (h : (envTrace vc.offset.toNat vc k).state = .done) (t : Word) :
    voiceSample vc k t = shapeSample vc fZero := by
  rw [voiceSample, envOutput_done h]

theorem iszero_shapeSample {vc : Voice} (hd : isFinite vc.ddrive = true) (hvol : isFinite vc.vol = true) {y : Word}
    (h : iszero y = true) : iszero (shapeSample vc y) = true :=
  iszero_volSample (iszero_distStepSample h hd) hvol

/-- Settles O32: `prod_runs`, with every sample the shaped `+0.0` (`voiceSample_of_done`). -/
theorem doneVoiceIsSilent : Obligations.DoneVoiceIsSilent := by
  intro s v n vc hl hv hst hdrive hvol hn hoff htbl
  have hdone (k : Nat) : (envTrace vc.offset.toNat vc k).state = .done := by rw [envTrace_done _ hst, hst]
  obtain ⟨m, hexec, hout, hframe⟩ := prod_runs hl hv hn hoff htbl
  rw [producedVoice_of_done (hdone n), envTrace_done _ hst, hst] at hexec
  refine ⟨m, hexec, fun k hk => ?_, hframe⟩
  obtain ⟨t, ht⟩ := Option.isSome_iff_exists.1 (htbl k hk)
  refine ⟨_, (hout k t hk ht).trans (by rw [voiceSample_of_done (hdone k)]),
    iszero_shapeSample hdrive hvol (by decide), fun hd => ?_⟩
  simp only [shapeSample, hd, Bool.false_eq_true, if_false]

/-! ### PROD in two parts -/

/-- The shaping steps read only constants of the voice (10_state.md R34). -/
theorem shapeSample_producedVoice (n : Nat) (vc : Voice) (y : Word) :
    shapeSample (producedVoice n vc) y = shapeSample vc y := by
  obtain ⟨-, -, -, -, hexp, hdrive, hvol, -, hdist⟩ := producedVoice_consts n vc
  simp only [shapeSample, distSample, hexp, hdrive, hvol, hdist]

section
variable {vc : Voice} {N : Nat}

/-- Where the first part reached Done, the second changes nothing more (43_voice.md R165). -/
theorem producedVoice_split_done (h : (envTrace vc.offset.toNat vc N).state = .done) (M : Nat) :
    producedVoice (N + M) vc = producedVoice N vc ∧ producedVoice M (producedVoice N vc) = producedVoice N vc := by
  have hall := envTrace_done_of vc.offset.toNat vc h M
  refine ⟨by rw [producedVoice_of_done (hall ▸ h), producedVoice_of_done h, hall], ?_⟩
  have hst : (producedVoice N vc).state = .done := (producedVoice_state N vc).trans h
  rw [producedVoice_of_done (by rw [envTrace_done _ hst, hst]), envTrace_done _ hst, producedVoice_of_done h]

variable (hoff : vc.offset.toNat + N < 2 ^ 32) (h : (envTrace vc.offset.toNat vc N).state ≠ .done)
include hoff h

/-- Where it did not, the second part runs through the phases of the whole (41_envelope.md R144). -/
theorem envTrace_producedVoice (k : Nat) :
    envTrace (producedVoice N vc).offset.toNat (producedVoice N vc) k =
      { envTrace vc.offset.toNat vc (N + k) with offset := vc.offset + BitVec.ofNat 32 N } := by
  rw [producedVoice_of_not_done h]
  dsimp only
  rw [toNat_add_ofNat hoff, envTrace_split]
  exact (envTrace_with _ (envTrace vc.offset.toNat vc N) _ (envTrace vc.offset.toNat vc N).fin k).trans (by simp)

/-- The samples of the second part are those of the whole, from the same table entries (43_voice.md R167). -/
theorem voiceSample_producedVoice (k : Nat) (t : Word) :
    voiceSample (producedVoice N vc) k t = voiceSample vc (N + k) t := by
  rw [voiceSample, shapeSample_producedVoice, envTrace_producedVoice hoff h, producedVoice_of_not_done h]
  dsimp only
  rw [toNat_add_ofNat hoff, Nat.add_assoc]
  rfl
end

/-- Splitting `Produce`: the same phase, the same voice but for the offset, and where the offset stands
(43_voice.md R167). -/
theorem producedVoice_split {vc : Voice} {N M : Nat} (hoff : vc.offset.toNat + (N + M) < 2 ^ 32) :
    producedVoice M (producedVoice N vc) =
        { producedVoice (N + M) vc with offset := (producedVoice M (producedVoice N vc)).offset } ∧
      ((producedVoice (N + M) vc).state ≠ .done →
        (producedVoice (N + M) vc).offset.toNat = vc.offset.toNat + (N + M) ∧
        (producedVoice M (producedVoice N vc)).offset = (producedVoice (N + M) vc).offset) ∧
      ((producedVoice (N + M) vc).state = .done → (producedVoice (N + M) vc).offset = vc.offset ∧
        (producedVoice M (producedVoice N vc)).offset.toNat =
          if (producedVoice N vc).state = .done then vc.offset.toNat else vc.offset.toNat + N) := by
  rw [producedVoice_state, producedVoice_state]
  by_cases hN : (envTrace vc.offset.toNat vc N).state = .done
  · obtain ⟨hwhole, hsplit⟩ := producedVoice_split_done hN M
    have hstill : (producedVoice N vc).offset = vc.offset := by
      rw [producedVoice_of_done hN]
      exact envTrace_offset _ _ _
    rw [hsplit, hwhole, hstill, if_pos hN, envTrace_done_of _ _ hN]
    exact ⟨by rw [← hstill], fun h => absurd hN h, fun _ => ⟨rfl, rfl⟩⟩
  · have hoffN : vc.offset.toNat + N < 2 ^ 32 := by omega
    have htrace := envTrace_producedVoice hoffN hN M
    rw [if_neg hN]
    by_cases hNM : (envTrace vc.offset.toNat vc (N + M)).state = .done
    · rw [producedVoice_of_done hNM, producedVoice_of_done (n := M) (by rw [htrace]; exact hNM), htrace]
      exact ⟨rfl, fun h => absurd hNM h, fun _ => ⟨envTrace_offset _ _ _, toNat_add_ofNat hoffN⟩⟩
    · have hmid : (producedVoice N vc).offset = vc.offset + BitVec.ofNat 32 N := by rw [producedVoice_of_not_done hN]
      rw [producedVoice_of_not_done hNM, producedVoice_of_not_done (n := M) (by rw [htrace]; exact hNM), htrace, hmid]
      exact ⟨rfl, fun _ => ⟨toNat_add_ofNat hoff, by rw [BitVec.add_assoc, ← BitVec.ofNat_add]⟩,
        fun h => absurd h hNM⟩

/-- A second part of `M` samples does not run past `2^32` either: Done freezes the offset (43_voice.md R165). -/
theorem offset_producedVoice_lt {vc : Voice} {N M : Nat} (hoff : vc.offset.toNat + (N + M) < 2 ^ 32) :
    (producedVoice N vc).offset.toNat + M < 2 ^ 32 := by
  rw [producedVoice_eq_ite]
  split
  · rw [envTrace_offset]
    omega
  · rw [toNat_add_ofNat (by omega)]
    omega

/-- Sample `k` of the second part: its table entry is written, and gives sample `N + k` of the whole. In Done the entry
does not matter; before, it is the same entry (`split_entry`). -/
theorem split_sample {p : Params} {m : Memory} {vc : Voice} {N M k : Nat} (hN : N + M ≤ p.sr)
    (hoff : vc.offset.toNat + (N + M) < 2 ^ 32) (htbl : tableWritten p vc (N + M) vc.offset.toNat m)
    (hwrap : vc.offset.toNat % p.sr + N < p.sr ∨ periodicBank p m vc.tsel.toNat) (hk : k < M) :
    ∃ t' t, readTbl m vc.tsel.toNat (oscStart p (producedVoice N vc).offset.toNat + k) = some t' ∧
      readTbl m vc.tsel.toNat (oscStart p vc.offset.toNat + (N + k)) = some t ∧
      voiceSample (producedVoice N vc) k t' = voiceSample vc (N + k) t := by
  obtain ⟨t, ht⟩ := Option.isSome_iff_exists.1 (htbl (N + k) (by omega))
  by_cases hd : (envTrace vc.offset.toNat vc N).state = .done
  · obtain ⟨t', ht'⟩ := Option.isSome_iff_exists.1 (htbl k (by omega))
    have hst : (producedVoice N vc).state = .done := (producedVoice_state N vc).trans hd
    have hstill : (producedVoice N vc).offset = vc.offset := by
      rw [producedVoice_of_done hd]
      exact envTrace_offset _ _ _
    refine ⟨t', t, by rw [hstill, ht'], ht, ?_⟩
    rw [voiceSample_of_done (by rw [envTrace_done _ hst, hst]), shapeSample_producedVoice,
      voiceSample_of_done (by rw [envTrace_done_of _ _ hd, hd])]
  · have hoffN : vc.offset.toNat + N < 2 ^ 32 := by omega
    have hmid : (producedVoice N vc).offset = vc.offset + BitVec.ofNat 32 N := by rw [producedVoice_of_not_done hd]
    refine ⟨t, t, ?_, ht, voiceSample_producedVoice hoffN hd k t⟩
    rw [hmid, toNat_add_ofNat hoffN, split_entry (by omega) hwrap, ht]

/-- Settles O33: the three calls complete (`prod_runs`); the samples of the second part are those of the whole
(`split_sample`), and so is its voice but for the offset (`producedVoice_split`). -/
theorem prodSplits : Obligations.ProdSplits := by
  intro s v N M vc hl hv hn hoff htbl hwrap
  obtain ⟨hs, ho⟩ := windows_of_legal hl (n := N) (by omega)
  have hvalid := (holds_mem hv).2
  have hvalid1 := (producedVoice_valid N vc).trans hvalid
  have hv1 : liveVoice s.params.nvoice (s.voices.set v (producedVoice N vc)) v = some (producedVoice N vc) :=
    liveVoice_set_self hv hvalid1
  obtain ⟨-, -, -, -, -, -, -, htsel, -⟩ := producedVoice_consts N vc
  obtain ⟨m, hexec, hout, -⟩ := prod_runs hl hv hn hoff htbl
  obtain ⟨m1, hexec1, hout1, hframe1⟩ := prod_runs (n := N) hl hv (by omega) (by omega) fun k hk => htbl k (by omega)
  have entry (i : Nat) : readTbl m1 (producedVoice N vc).tsel.toNat i = readTbl s.mem vc.tsel.toNat i := by
    rw [htsel, readTbl_of_sameOutside hframe1 (by omega)]
  obtain ⟨m2, hexec2, hout2, -⟩ := prod_runs (n := M) (v := v) (vc := producedVoice N vc)
    (s := { s with mem := m1, voices := s.voices.set v (producedVoice N vc),
                   rstate := (producedVoice N vc).state.tag, last := okByte })
    hl hv1 (Nat.le_trans (Nat.le_add_left M N) hn) (offset_producedVoice_lt hoff) fun k hk => by
      obtain ⟨t', t, ht', -⟩ := split_sample hn hoff htbl hwrap hk
      exact Option.isSome_of_eq_some ((entry _).trans ht')
  obtain ⟨hsplit, hrunning, hdone⟩ := producedVoice_split hoff
  refine ⟨_, _, _, _, _, _, hexec, hexec1, hexec2,
    liveVoice_set_self hv ((producedVoice_valid _ _).trans hvalid), hv1,
    liveVoice_set_self hv1 ((producedVoice_valid _ _).trans hvalid1), fun k hk => ?_, fun k hk => ?_,
    (congrArg (fun w : Voice => w.state.tag) hsplit :), hsplit, hrunning, hdone⟩
  · obtain ⟨t, ht⟩ := Option.isSome_iff_exists.1 (htbl k (by omega))
    exact (hout1 k t hk ht).trans (hout k t (by omega) ht).symm
  · obtain ⟨t', t, ht', ht, heq⟩ := split_sample hn hoff htbl hwrap hk
    rw [hout (N + k) t (by omega) ht, ← heq]
    exact hout2 k t' hk ((entry _).trans ht')

end Sys2Proof.Machine
end

section
/-! SUPPORT. `FILL`: its refusals, its mix, and what it leaves for no voice, one voice and two equal voices
(44_mixer.md R174 to R183). -/

namespace Sys2Proof.Machine

/-! ### The whole command -/

/-- Some valid slot of the list is the slot of some index (10_state.md R20). -/
theorem exists_valid_iff {s : State} (hs : shaped s) {P : Voice → Prop} :
    (∃ vc ∈ s.voices, vc.valid = true ∧ P vc) ↔ ∃ v vc, holdsVoice s v vc ∧ P vc := by
  constructor
  · rintro ⟨vc, hm, hvalid, hP⟩
    obtain ⟨v, hv⟩ := live_of_mem hs hm hvalid
    exact ⟨v, vc, hv, hP⟩
  · rintro ⟨v, vc, hv, hP⟩
    exact ⟨vc, (holds_mem hv).1, (holds_mem hv).2, hP⟩

/-- With no valid slot in the list no index holds a voice. -/
theorem liveVoice_of_none_valid {s : State} (h : ∀ vc ∈ s.voices, vc.valid = false) (v : Nat) :
    liveVoice s.params.nvoice s.voices v = none := by
  cases hv : liveVoice s.params.nvoice s.voices v with
  | none => rfl
  | some vc =>
    obtain ⟨hm, hvalid⟩ := holds_mem hv
    exact absurd ((h vc hm).symm.trans hvalid) Bool.false_ne_true

theorem exec_fill_long {s : State} {n : Nat} (h : s.params.sr < n) : exec (.fill n) s = .next (refuse .len s) :=
  exec_refused_of_firstReason (by
    rw [firstReason, refusalReasons, firstCode_cons, if_pos (decide_eq_true h)])

theorem exec_fill_overflow {s : State} {n v : Nat} {vc : Voice} (hn : n ≤ s.params.sr) (hv : holdsVoice s v vc)
    (h : 2 ^ 32 ≤ vc.offset.toNat + n) : exec (.fill n) s = .next (refuse .offOvf s) := by
  have hslot : ofSlot s v (fun vc => decide (2 ^ 32 ≤ vc.offset.toNat + n)) = true := by
    rw [ofSlot_of_holds hv, decide_eq_true h]
  refine exec_refused_of_firstReason ?_
  rw [firstReason, refusalReasons, firstCode_cons, if_neg (by rw [decide_eq_true_eq]; omega), firstCode_cons,
    if_pos (List.any_eq_true.2 ⟨v, List.mem_range.2 (liveVoice_eq_some.1 hv).1, hslot⟩)]

/-- The slots `FILL` leaves, also when no voice is valid (44_mixer.md R175 to R177). -/
theorem slots_after_fill {s : State} (hs : shaped s) (n : Nat) :
    (if countLive s.params.nvoice s.voices = 0 then s.voices else removeFinished (s.voices.map (afterRender n))) =
      s.voices.map fun vc =>
        if vc.valid then { producedVoice n vc with valid := !(producedVoice n vc).fin } else vc := by
  split
  next h =>
    refine (List.map_id s.voices).symm.trans (List.map_congr_left fun vc hm => (if_neg fun hvalid => ?_).symm)
    obtain ⟨v, hv⟩ := live_of_mem hs hm hvalid
    exact liveVoice_ne_none hv (countLive_zero.1 h v)
  next => exact removeFinished_afterRender n s.voices

/-- Settles O35: the refusals are the two checks, in order; past them `fill_runs`. -/
theorem fillMixesTheVoices : Obligations.FillMixesTheVoices := by
  rintro s n _ hl hs rfl
  refine ⟨exec_fill_long, fun hn h => ?_, fun hn hoff htbl => ?_⟩
  · obtain ⟨v, vc, hv, hover⟩ := (exists_valid_iff hs).1 h
    exact exec_fill_overflow hn hv hover
  · obtain ⟨m, hexec, hout, hframe⟩ := fill_runs hl hs hn
      (fun v vc hv => hoff vc (holds_mem hv).1 (holds_mem hv).2)
      fun v vc hv => htbl vc (holds_mem hv).1 (holds_mem hv).2
    rw [slots_after_fill hs] at hexec
    exact ⟨m, hexec, hout, hframe⟩

/-- Settles O36: `FILL` stops after zeroing the output (44_mixer.md R175). -/
theorem fillOfNoVoiceIsSilence : Obligations.FillOfNoVoiceIsSilence := by
  intro s n hnone hn
  have hlive := liveVoice_of_none_valid hnone
  have hcheck : fillCheck n s = .ok () := fillCheck_ok.2 ⟨hn, fun v vc hv => absurd (hlive v) (liveVoice_ne_none hv)⟩
  have heffect : fillEffect n s () = .ok (setRcount 0 (setMem (fillWords outBase fZero 0 n s.mem) s)) := by
    rw [fillEffect, countLive_zero.2 hlive]
    rfl
  refine ⟨_, runCommand_ok s hcheck heffect, fun k hk => ?_, fun x hx => fillWords_frame _ _ _ 0 n (by simpa using hx)⟩
  exact fillWords_readWord outBase fZero s.mem 0 n (Nat.zero_le k) (by omega)

/-! ### One voice, and two equal voices -/

/-- The sample `PROD` and `FILL` make of a voice at `k` (43_voice.md R163). -/
def tableSample (s : State) (vc : Voice) (k : Nat) : Word := voiceSample vc k (tableEntry s.params s.mem vc k)

/-- `PROD` leaves that sample. -/
theorem prod_samples {s : State} {v n : Nat} {vc : Voice} (hl : s.params.legal = true) (hv : holdsVoice s v vc)
    (hn : n ≤ s.params.sr) (hoff : vc.offset.toNat + n < 2 ^ 32)
    (htbl : tableWritten s.params vc n vc.offset.toNat s.mem) :
    ∃ t, exec (.prod v n) s = .next t ∧ ∀ k, k < n → readScr t.mem k = some (tableSample s vc k) := by
  obtain ⟨m, hexec, hout, -⟩ := prod_runs hl hv hn hoff htbl
  refine ⟨_, hexec, fun k hk => ?_⟩
  obtain ⟨t, ht⟩ := Option.isSome_iff_exists.1 (htbl k hk)
  refine (hout k t hk ht).trans ?_
  rw [tableSample, tableEntry, ht, Option.getD_some]

/-- `FILL` of voices that are all the same voice `vc` (44_mixer.md R175 to R178). -/
theorem fill_samples {s : State} {n : Nat} {vc : Voice} (hl : s.params.legal = true) (hs : shaped s)
    (hn : n ≤ s.params.sr) (hoff : vc.offset.toNat + n < 2 ^ 32)
    (htbl : tableWritten s.params vc n vc.offset.toNat s.mem) (hall : ∀ v vc', holdsVoice s v vc' → vc' = vc)
    (hcnt : countLive s.params.nvoice s.voices ≠ 0) :
    ∃ t, exec (.fill n) s = .next t ∧ ∀ k, k < n → readOut t.mem k =
      some (fmul (mixSum s k s.params.nvoice) (mixScale (countLive s.params.nvoice s.voices))) := by
  obtain ⟨m, hexec, hout, -⟩ := fill_runs hl hs hn (fun v vc' hv => hall v vc' hv ▸ hoff)
    fun v vc' hv => hall v vc' hv ▸ htbl
  exact ⟨_, hexec, fun k hk => (hout k hk).trans (by rw [if_neg hcnt])⟩

theorem mix_one {s : State} {k v : Nat} {vc : Voice} (hv : holdsVoice s v vc)
    (ho : ∀ u, u < s.params.nvoice → u ≠ v → liveVoice s.params.nvoice s.voices u = none) :
    mixSum s k s.params.nvoice = fadd fZero (tableSample s vc k) := by
  have hlt := (liveVoice_eq_some.1 hv).1
  obtain ⟨d, hd⟩ := Nat.exists_eq_add_of_lt hlt
  rw [hd, Nat.add_right_comm, mixSum_none d fun u hu hu' => ho u (by omega) (by omega), mixSum, hv,
    mixSum_zero fun u hu => ho u (by omega) (by omega)]
  rfl

theorem mixScale_one : mixScale 1 = fOne := by decide

theorem mixScale_two : mixScale 2 = 0x3F000000#32 := by decide

/-- Settles O37: `FILL` multiplies the one sample, added to `+0.0`, by `1.0`. -/
theorem fillOfOneVoiceIsTheVoice : Obligations.FillOfOneVoiceIsTheVoice := by
  intro s v n vc hl hs hv ho hn hoff htbl
  have hall (u : Nat) (vc' : Voice) (hu : holdsVoice s u vc') : vc' = vc := by
    by_cases huv : u = v
    · exact holdsVoice_unique (huv ▸ hu) hv
    · exact absurd (ho u (liveVoice_eq_some.1 hu).1 huv) (liveVoice_ne_none hu)
  have hcnt := countLive_one hv ho
  obtain ⟨t, hexec, hout⟩ := fill_samples hl hs hn hoff htbl hall (by rw [hcnt]; exact Nat.one_ne_zero)
  obtain ⟨t', hexec', hscr⟩ := prod_samples hl hv hn hoff htbl
  refine ⟨t, t', hexec, hexec', fun k hk => ?_⟩
  have hk' := hout k hk
  rw [mix_one hv ho, hcnt, mixScale_one] at hk'
  refine ⟨_, hscr k hk, hk', fun hnan hneg => ?_, fun hneg => ?_⟩
  · rw [hk', fadd_zero_left hnan hneg, fmul_one_right hnan]
  · rw [hk', hneg, fadd_zero_negZero]
    decide

/-- Two voices with equal fields, in whichever order their slots stand. -/
theorem mix_two_equal {s : State} {k u v : Nat} {vc : Voice} (huv : u ≠ v) (hu : holdsVoice s u vc)
    (hv : holdsVoice s v vc)
    (ho : ∀ w, w < s.params.nvoice → w ≠ u → w ≠ v → liveVoice s.params.nvoice s.voices w = none) :
    mixSum s k s.params.nvoice = fadd (fadd fZero (tableSample s vc k)) (tableSample s vc k) := by
  rcases Nat.lt_or_gt_of_ne huv with h | h
  · exact mix_two h hu hv ho
  · exact mix_two h hv hu fun w hw hwv hwu => ho w hw hwu hwv

/-- Settles O38: `FILL` multiplies the doubled sample by `0.5`, which gives the sample back unless it overflows
(`half_double`). -/
theorem fillOfTwoEqualVoices : Obligations.FillOfTwoEqualVoices := by
  intro s u v n vc hl hs huv hu hv ho hn hoff htbl
  have hall (w : Nat) (vc' : Voice) (hw : holdsVoice s w vc') : vc' = vc := by
    by_cases hwu : w = u
    · exact holdsVoice_unique (hwu ▸ hw) hu
    · by_cases hwv : w = v
      · exact holdsVoice_unique (hwv ▸ hw) hv
      · exact absurd (ho w (liveVoice_eq_some.1 hw).1 hwu hwv) (liveVoice_ne_none hw)
  have hcnt := countLive_two hu hv huv ho
  obtain ⟨t, hexec, hout⟩ := fill_samples hl hs hn hoff htbl hall (by rw [hcnt]; exact two_ne_zero)
  obtain ⟨t', hexec', hscr⟩ := prod_samples hl hv hn hoff htbl
  refine ⟨t, t', hexec, hexec', fun k hk => ?_⟩
  have hk' := hout k hk
  rw [mix_two_equal huv hu hv ho, hcnt, mixScale_two] at hk'
  refine ⟨_, hscr k hk, hk', fun hfin hfin2 hneg => ?_, fun hneg => ?_⟩
  · rw [hk', fadd_zero_left (isFinite_parts hfin).1 hneg, half_double (double_finite hfin hfin2) hneg]
  · rw [hk', hneg, fadd_zero_negZero]
    decide

/-! ### What FILL leaves in SCR -/

/-- A completed `FILL` of some voice found the table entries of every voice written. -/
theorem fillEffect_tables {s u : State} {n v : Nat} {vc : Voice} (hl : s.params.legal = true) (hn : n ≤ s.params.sr)
    (h : fillEffect n s () = .ok u) (hv : holdsVoice s v vc) :
    tableWritten s.params vc n vc.offset.toNat s.mem := by
  obtain ⟨hs, ho⟩ := windows_of_legal hl hn
  have hcnt : countLive s.params.nvoice s.voices ≠ 0 := fun h0 => liveVoice_ne_none hv (countLive_zero.1 h0 v)
  cases hr : forEach (fillVoice s.params n) 0 s.params.nvoice (s.voices, fillWords outBase fZero 0 n s.mem) with
  | ok a => exact fillLoop_tables hs ho hr hv
  | error e =>
    simp only [fillEffect, if_neg hcnt, fillMix, setRcount_params, setMem_params, setRcount_voices, setMem_voices,
      setRcount_mem, setMem_mem, hr] at h
    cases h

/-- Settles O39: an executed `FILL` leaves the highest valid slot's samples (`fillEffect_ok`), which are those of `PROD`;
with no valid voice it writes `OUT` only. -/
theorem scratchAfterFill : Obligations.ScratchAfterFill := by
  intro s t n hl hs ht hlast
  rcases runCommand_next.1 ht with ⟨c, -, rfl⟩ | ⟨⟨⟩, u, hc, hu, rfl⟩
  · exact absurd hlast (fillCode_ne c)
  obtain ⟨hn, hoff⟩ := fillCheck_ok.1 hc
  obtain ⟨hwin, -⟩ := windows_of_legal hl (Nat.le_refl s.params.sr)
  obtain ⟨vs, m, rfl, -, -, hscr, hquiet, -⟩ := fillEffect_ok hs.1 hl hn hu
  refine ⟨fun v vc hv hhigh => ?_, fun hnone k hk => ?_⟩
  · obtain ⟨t', hexec, hprod⟩ := prod_samples hl hv hn (hoff v vc hv) (fillEffect_tables hl hn hu hv)
    have hcnt : countLive s.params.nvoice s.voices ≠ 0 := fun h0 => liveVoice_ne_none hv (countLive_zero.1 h0 v)
    refine ⟨t', hexec, fun k hk => (hscr hcnt v vc hv (fun x hx vx hvx => ?_) k hk).trans (hprod k hk).symm⟩
    exact liveVoice_ne_none hvx (hhigh x hx (liveVoice_eq_some.1 hvx).1)
  · exact readScr_of_sameOutside_out (hquiet (countLive_zero.2 (liveVoice_of_none_valid hnone))) (by omega)

end Sys2Proof.Machine
end
